-- ==== Sys2Proof/Word.lean ====
section
/-! DEFINITION. The word types of the protocol CORE (spec 00_scope.md R9, R11). -/

namespace Sys2Proof

/-- A byte of a buffer: a frame byte (R72), or a byte of a SysEx buffer whose bit 7 the CORE never
reads (R161) and always writes as 0 (R12). -/
abbrev Byte := BitVec 8

/-- The seven payload bits of one stored byte (`SLOT_BITS` = 7, R9, R71). -/
abbrev Septet := BitVec 7

end Sys2Proof
end

