-- ==== Sys2Proof/Config.lean ====
section
/-! DEFINITION. The fixed constants of R9, the parameters of R10 (as plain data that a state carries
and no request writes, R54), the schemas of R200, and the free values. -/

namespace Sys2Proof

/-! ### Fixed constants (R9) -/

/-- `SLOT_BITS`: payload bits per stored byte. -/
def Config.slotBits : Nat := 7
/-- `MAX_FIELD_BITS`: the widest field. -/
def Config.maxFieldBits : Nat := 32
/-- `INBOUND_START_BIT`: where message decoding begins in a stripped inbound buffer (R107). -/
def Config.inboundStartBit : Nat := 39
/-- `MAX_PACKET_BYTES_DEFAULT`: the reset value of `MAXPKT` (R50). -/
def Config.maxPacketBytesDefault : BitVec 16 := 200
/-- `FW_COUNTER_AFTER_UPLOAD`: what handshake step 6 assigns to `PC` (R326). -/
def Config.fwCounterAfterUpload : BitVec 10 := 3

/-! ### Message schemas (R200) -/

/-- The name of a schema field. The spec names four; every other name is a number
(DESIGN CHOICE, log 9). -/
inductive FieldName where
  | tag
  | counter
  | deviceCount
  | connectionCount
  | other (n : Nat)
deriving DecidableEq, Repr

/-- A schema: an ordered list of fields, each of one of the three kinds of R200. -/
inductive Schema where
  /-- No further field. -/
  | nil
  /-- Kind (a): an unsigned integer of a fixed width, then the rest. -/
  | scalar (name : FieldName) (width : Nat) (rest : Schema)
  /-- Kind (b): another schema decoded in place, with the declared width of the field. -/
  | composite (name : FieldName) (width : Nat) (nested rest : Schema)
  /-- Kind (c): declared, skipped by the decoder. -/
  | absent (name : FieldName) (rest : Schema)
deriving DecidableEq, Repr

/-- The `SCHEMAS` parameter (R10, R203, R204); `none` is an entry left unconfigured. -/
structure Schemas where
  topologyHeader         : Option Schema
  topologyDeviceInfo     : Option Schema
  topologyConnectionInfo : Option Schema
  touchMove              : Option Schema
  touchStartV            : Option Schema
  touchEndV              : Option Schema
deriving DecidableEq, Repr

/-! ### Parameters (R10) -/

/-- The parameters of R10 that are fixed when a CORE is built. A state carries them as a constant:
no request and no reset writes them (R54; log 2). -/
structure Params where
  /-- `WCAP`: capacity of one writer, in stored bytes. -/
  wcap : Nat
  /-- `NW`: number of writer handles. -/
  nw : Nat
  /-- `READ_BOUND_FACTOR`: 8 (BP's text) or 7. -/
  readBoundFactor : Nat
  /-- `VALUE_RUNS`: whether U2 may emit commands 5, 6 and 7. -/
  valueRuns : Bool
  /-- `QCAP`: capacity of the unsent-packet queue, in packets. -/
  qcap : Nat
  /-- `SCHEMAS`. -/
  schemas : Schemas
  /-- `FW_IMAGE[0]`. -/
  fwImage0 : List Byte
  /-- `FW_IMAGE[1]`. -/
  fwImage1 : List Byte
deriving DecidableEq, Repr

/-! ### Free values -/

/-- FREE VALUE (R10, D33: OPEN): the bytes of `FW_IMAGE[0]`, before bit 7 of each is cleared (log 5). -/
opaque Config.fwImageRaw0 : List Byte
/-- FREE VALUE (R10, D33: OPEN): the bytes of `FW_IMAGE[1]`, before bit 7 of each is cleared (log 5). -/
opaque Config.fwImageRaw1 : List Byte

/-- FREE VALUE (R281, I20): the writes a device makes when it reads a `VALL` with no established
value, as a function of how many such reads came before (log 12). -/
opaque Config.undefinedVallWrites : Nat → List (Nat × Byte)
/-- FREE VALUE (R281, I20): where that device's cursor is afterwards (log 12). -/
opaque Config.undefinedVallCursor : Nat → Nat
/-- FREE VALUE (R281, I20): the value that device has established afterwards (log 12). -/
opaque Config.undefinedVallLast : Nat → Option Byte
/-- FREE VALUE (R281, I20): whether that device goes on reading the packet (log 12). -/
opaque Config.undefinedVallGoesOn : Nat → Bool

/-! ### Values named where the spec leaves one open -/

/-- DESIGN CHOICE (log 4): `DEVIDX` after reset, which R50 leaves unspecified. -/
def Config.resetDevIdx : BitVec 7 := 0

/-- DESIGN CHOICE (log 13): what a display byte that nothing has written reads as. -/
def Config.displayDefault : Byte := 0

/-- Every tag unconfigured, a value R203 allows `SCHEMAS` to have. -/
def Schemas.unconfigured : Schemas where
  topologyHeader         := none
  topologyDeviceInfo     := none
  topologyConnectionInfo := none
  touchMove              := none
  touchStartV            := none
  touchEndV              := none

/-- The parameters at `State.reset`: R10's defaults where it gives one, a DESIGN CHOICE (log 2) for
`WCAP`, `NW`, `QCAP` and `SCHEMAS`, and free bytes made 7-bit-clean for `FW_IMAGE` (log 5). -/
def Params.default : Params where
  wcap            := 65535
  nw              := 2
  readBoundFactor := 8
  valueRuns       := false
  qcap            := 64
  schemas         := Schemas.unconfigured
  fwImage0        := Config.fwImageRaw0.map (· &&& 0x7F#8)
  fwImage1        := Config.fwImageRaw1.map (· &&& 0x7F#8)

end Sys2Proof
end

