-- ==== Sys2Proof/Syntax.lean ====
section
/-! DEFINITION. The instructions: one constructor per row of spec/opcode_table.json, in its order,
over the four encoded layers of 30_encoding.md. -/

namespace Sys2Proof

/-- Where an instruction's bits stand: the four layers at the head of 30_encoding.md, with the first
split into the packet header and the commands after it (R102). -/
inductive Layer where
  | header
  | command
  | message
  | payload
  | request
deriving DecidableEq, Repr

/-- The 41 rows of spec/opcode_table.json. -/
inductive Instr where
  /-- `DELTA_HDR` (R102): tag 0x02 and the 16-bit sequence number. -/
  | deltaHdr (seq : BitVec 16)
  /-- `EOP`, command 0 (R104). -/
  | eop
  /-- `EOC`, command 1 (R104). -/
  | eoc
  /-- `SKIPF n`, command 2 (R104). -/
  | skipf (n : BitVec 4)
  /-- `SKIPM n`, command 3 (R104). -/
  | skipm (n : BitVec 8)
  /-- `LIT v0+, ..., vlast`, command 4 (R104, R105): its bytes, of which there is at least one. -/
  | lit (vs : List Byte)
  /-- `VALF n, v`, command 5 (R104). -/
  | valf (n : BitVec 4) (v : Byte)
  /-- `VALL n`, command 6 (R104). -/
  | vall (n : BitVec 4)
  /-- `VALM n, v`, command 7 (R104). -/
  | valm (n : BitVec 8) (v : Byte)
  /-- `MSG_TOPOLOGY`, tag 0x01 (R108): the stored bytes after the tag's. -/
  | msgTopology (body : List Septet)
  /-- `MSG_ACK`, tag 0x02 (R108, R205). -/
  | msgAck (counter : BitVec 10)
  /-- `MSG_TOUCH_MOVE`, tag 0x11 (R108): the stored bytes after the tag's. -/
  | msgTouchMove (body : List Septet)
  /-- `MSG_TOUCH_START_V`, tag 0x13 (R108): the stored bytes after the tag's. -/
  | msgTouchStartV (body : List Septet)
  /-- `MSG_TOUCH_END_V`, tag 0x15 (R108): the stored bytes after the tag's. -/
  | msgTouchEndV (body : List Septet)
  /-- `CMD_END_API` (R111). -/
  | cmdEndApi
  /-- `CMD_BEGIN_API` (R111). -/
  | cmdBeginApi
  /-- `CMD_HEARTBEAT` (R111). -/
  | cmdHeartbeat
  /-- `CMD_ENABLE_MPE` (R111). -/
  | cmdEnableMpe
  /-- `CMD_SAVE_DEFAULT` (R111). -/
  | cmdSaveDefault
  /-- `CMD_REQ_TOPOLOGY` (R111). -/
  | cmdReqTopology
  /-- `W_NEW h`, opcode 0x01 (R151). -/
  | wNew (h : BitVec 8)
  /-- `W_BITS h, v, w`, opcode 0x02 (R152). -/
  | wBits (h : BitVec 8) (v : BitVec 32) (w : BitVec 6)
  /-- `W_SIZE h`, opcode 0x03 (R153). -/
  | wSize (h : BitVec 8)
  /-- `W_HASCAP h, n, maxBytes`, opcode 0x04 (R154). -/
  | wHascap (h : BitVec 8) (n : BitVec 16) (maxBytes : BitVec 16)
  /-- `W_SNAP h`, opcode 0x05 (R156). -/
  | wSnap (h : BitVec 8)
  /-- `W_RESTORE h, (nb, nbit)`, opcode 0x06 (R157). -/
  | wRestore (h : BitVec 8) (nb : BitVec 32) (nbit : BitVec 3)
  /-- `W_CLONE hd, hs`, opcode 0x07 (R158). -/
  | wClone (hd : BitVec 8) (hs : BitVec 8)
  /-- `W_READ h`, opcode 0x08 (R159). -/
  | wRead (h : BitVec 8)
  /-- `R_BITS data, p, w`, opcode 0x09 (R160). -/
  | rBits (data : List Byte) (p : BitVec 32) (w : BitVec 6)
  /-- `R_TYPE data, p`, opcode 0x0A (R163). -/
  | rType (data : List Byte) (p : BitVec 32)
  /-- `R_DISPATCH data`, opcode 0x0B (R206). -/
  | rDispatch (data : List Byte)
  /-- `R_DECODE data, p, tag`, opcode 0x0C (R202). -/
  | rDecode (data : List Byte) (p : BitVec 32) (tag : BitVec 7)
  /-- `D_COMPUTE`, opcode 0x0D (R240). -/
  | dCompute (newData oldData : List Byte) (baseOffset length startIndex maxBytes : BitVec 16)
  /-- `S_CONFIG devIdx, maxPkt`, opcode 0x10 (R318). -/
  | sConfig (devIdx : BitVec 7) (maxPkt : BitVec 16)
  /-- `S_OPEN`, opcode 0x11 (R319). -/
  | sOpen
  /-- `S_CLOSE`, opcode 0x12 (R331). -/
  | sClose
  /-- `S_ACK counter`, opcode 0x13 (R309). -/
  | sAck (counter : BitVec 10)
  /-- `S_FRAME`, opcode 0x14 (R340). -/
  | sFrame (newData oldData : List Byte) (baseOffset length : BitVec 16)
  /-- `S_HB_TICK`, opcode 0x15 (R335). -/
  | sHbTick
  /-- `S_REQ_TOPO`, opcode 0x16 (R336). -/
  | sReqTopo
  /-- `S_STATUS`, opcode 0x17 (R337). -/
  | sStatus
deriving DecidableEq, Repr

/-- The layer each row belongs to (the table's "format"). -/
def Instr.layer : Instr → Layer
  | .deltaHdr _ => .header
  | .eop => .command
  | .eoc => .command
  | .skipf _ => .command
  | .skipm _ => .command
  | .lit _ => .command
  | .valf _ _ => .command
  | .vall _ => .command
  | .valm _ _ => .command
  | .msgTopology _ => .message
  | .msgAck _ => .message
  | .msgTouchMove _ => .message
  | .msgTouchStartV _ => .message
  | .msgTouchEndV _ => .message
  | .cmdEndApi => .payload
  | .cmdBeginApi => .payload
  | .cmdHeartbeat => .payload
  | .cmdEnableMpe => .payload
  | .cmdSaveDefault => .payload
  | .cmdReqTopology => .payload
  | .wNew _ => .request
  | .wBits _ _ _ => .request
  | .wSize _ => .request
  | .wHascap _ _ _ => .request
  | .wSnap _ => .request
  | .wRestore _ _ _ => .request
  | .wClone _ _ => .request
  | .wRead _ => .request
  | .rBits _ _ _ => .request
  | .rType _ _ => .request
  | .rDispatch _ => .request
  | .rDecode _ _ _ => .request
  | .dCompute _ _ _ _ _ _ => .request
  | .sConfig _ _ => .request
  | .sOpen => .request
  | .sClose => .request
  | .sAck _ => .request
  | .sFrame _ _ _ _ => .request
  | .sHbTick => .request
  | .sReqTopo => .request
  | .sStatus => .request

end Sys2Proof
end

