-- ==== Sys2Proof/Decode.lean ====
section
/-! DEFINITION. The decoder and, after it, the encoder. Every layer is read as a stream of bits, the
first bit first, and every field is stored least-significant bit first (R73, R100). -/

namespace Sys2Proof

/-! ### Bits, fields and streams -/

/-- The low `n` bits of `v`, least-significant first (R73). -/
def bitsOf (n v : Nat) : List Bool := (List.range n).map v.testBit

/-- The number whose bits these are, least-significant first (R74). -/
def ofBits : List Bool → Nat
  | [] => 0
  | b :: bs => b.toNat + 2 * ofBits bs

/-- Append a field (R100). -/
def putField {w : Nat} (x : BitVec w) : List Bool := bitsOf w x.toNat

/-- Why bits are no instruction of their layer. -/
inductive DecodeError where
  /-- The bits end inside the header, a command, an inbound message or a request. -/
  | truncated
  /-- A header whose tag is not `DELTA_TAG` (R102). -/
  | notChangePacket
  /-- An inbound tag outside R108's table. -/
  | unknownTag
  /-- Payload bytes that are no row of R111. -/
  | unknownPayload
  /-- A request opcode R114 reserves. -/
  | reservedOpcode
deriving DecidableEq, Repr

/-- Read a field of `w` bits at the head of a stream. -/
def getField (w : Nat) (bs : List Bool) : Except DecodeError (BitVec w × List Bool) :=
  if bs.length < w then .error .truncated else .ok (BitVec.ofNat w (ofBits (bs.take w)), bs.drop w)

/-- Read `n` whole bytes. -/
def getBytes : Nat → List Bool → Except DecodeError (List Byte × List Bool)
  | 0, bs => .ok ([], bs)
  | n + 1, bs => do
    let (b, bs) ← getField 8 bs
    let (rest, bs) ← getBytes n bs
    .ok (b :: rest, bs)

/-- A byte-list operand of a request: its length in 32 bits, then its bytes (DESIGN CHOICE, log 3). -/
def putData (data : List Byte) : List Bool := bitsOf 32 data.length ++ data.flatMap putField

/-- Read a byte-list operand of a request. -/
def getData (bs : List Bool) : Except DecodeError (List Byte × List Bool) := do
  let (n, bs) ← getField 32 bs
  getBytes n.toNat bs

/-- The stream bits of a 7-bit-packed buffer: seven of each byte, bit 7 not among them (R12, R161). -/
def streamBits (bytes : List Byte) : List Bool := bytes.flatMap fun b => bitsOf 7 b.toNat

/-- The bits of a buffer read in whole bytes (layers 3 and 4 of 30_encoding.md). -/
def byteBits (bytes : List Byte) : List Bool := bytes.flatMap putField

/-- The stored bytes of a stream, seven bits each; the unfilled slots of a last byte are 0 (R101). -/
def septets : List Bool → List Septet
  | b0 :: b1 :: b2 :: b3 :: b4 :: b5 :: b6 :: rest =>
      BitVec.ofNat 7 (ofBits [b0, b1, b2, b3, b4, b5, b6]) :: septets rest
  | [] => []
  | part => [BitVec.ofNat 7 (ofBits part)]

/-! ### The decoders of the five layers -/

/-- The header of a change-list packet (R102). -/
def decodeHeader (bs : List Bool) : Except DecodeError (Instr × List Bool) := do
  let (tag, bs) ← getField 7 bs
  if tag = 0x02#7 then
    let (seq, bs) ← getField 16 bs
    .ok (.deltaHdr seq, bs)
  else .error .notChangePacket

/-- The pairs of a `LIT` command, up to and with the first whose continuation bit is 0 (R105). -/
def getLiteral : List Bool → Except DecodeError (List Byte × List Bool)
  | b0 :: b1 :: b2 :: b3 :: b4 :: b5 :: b6 :: b7 :: k :: rest =>
      let v := BitVec.ofNat 8 (ofBits [b0, b1, b2, b3, b4, b5, b6, b7])
      if k then
        match getLiteral rest with
        | .ok (vs, rest') => .ok (v :: vs, rest')
        | .error e => .error e
      else .ok ([v], rest)
  | _ => .error .truncated

/-- One command of a change-list packet (R103, R104). -/
def decodeCommand (bs : List Bool) : Except DecodeError (Instr × List Bool) := do
  let (cmd, bs) ← getField 3 bs
  match cmd.toNat with
  | 0 => .ok (.eop, bs)
  | 1 => .ok (.eoc, bs)
  | 2 => do
    let (n, bs) ← getField 4 bs
    .ok (.skipf n, bs)
  | 3 => do
    let (n, bs) ← getField 8 bs
    .ok (.skipm n, bs)
  | 4 => do
    let (vs, bs) ← getLiteral bs
    .ok (.lit vs, bs)
  | 5 => do
    let (n, bs) ← getField 4 bs
    let (v, bs) ← getField 8 bs
    .ok (.valf n v, bs)
  | 6 => do
    let (n, bs) ← getField 4 bs
    .ok (.vall n, bs)
  | _ => do
    let (n, bs) ← getField 8 bs
    let (v, bs) ← getField 8 bs
    .ok (.valm n v, bs)

/-- One inbound message, its tag first (R108). A touch or topology message takes every
stored byte that follows, because its length is its schema's (R116). -/
def decodeMessageBits (bs : List Bool) : Except DecodeError (Instr × List Bool) := do
  let (tag, bs) ← getField 7 bs
  match tag.toNat with
  | 0x01 => .ok (.msgTopology (septets bs), [])
  | 0x02 => do
    let (c, bs) ← getField 10 bs
    .ok (.msgAck c, bs)
  | 0x11 => .ok (.msgTouchMove (septets bs), [])
  | 0x13 => .ok (.msgTouchStartV (septets bs), [])
  | 0x15 => .ok (.msgTouchEndV (septets bs), [])
  | _ => .error .unknownTag

/-- The bytes of a command payload (R111). -/
def payloadBytes : Instr → List Byte
  | .cmdEndApi => [0x01, 0x02, 0x00]
  | .cmdBeginApi => [0x01, 0x00, 0x00]
  | .cmdHeartbeat => [0x01, 0x03, 0x00]
  | .cmdEnableMpe => [0x10, 0x02]
  | .cmdSaveDefault => [0x01, 0x05, 0x00]
  | .cmdReqTopology => [0x01, 0x01, 0x00]
  | _ => []

/-- A command payload, all of its bits and no more (R111, R116). -/
def decodePayload (bs : List Bool) : Except DecodeError (Instr × List Bool) :=
  if bs = byteBits (payloadBytes .cmdEndApi) then .ok (.cmdEndApi, [])
  else if bs = byteBits (payloadBytes .cmdBeginApi) then .ok (.cmdBeginApi, [])
  else if bs = byteBits (payloadBytes .cmdHeartbeat) then .ok (.cmdHeartbeat, [])
  else if bs = byteBits (payloadBytes .cmdEnableMpe) then .ok (.cmdEnableMpe, [])
  else if bs = byteBits (payloadBytes .cmdSaveDefault) then .ok (.cmdSaveDefault, [])
  else if bs = byteBits (payloadBytes .cmdReqTopology) then .ok (.cmdReqTopology, [])
  else .error .unknownPayload

/-- One request: the 5-bit opcode and the operands of R112 in R112's order, at R112's widths, each at
the next free bit. The widths of `h` (8) and `nb` (32), the length field of a byte list and the
packing are the model's (DESIGN CHOICE, log 3). -/
def decodeRequest (bs : List Bool) : Except DecodeError (Instr × List Bool) := do
  let (op, bs) ← getField 5 bs
  match op.toNat with
  | 0x01 => do
    let (h, bs) ← getField 8 bs
    .ok (.wNew h, bs)
  | 0x02 => do
    let (h, bs) ← getField 8 bs
    let (v, bs) ← getField 32 bs
    let (w, bs) ← getField 6 bs
    .ok (.wBits h v w, bs)
  | 0x03 => do
    let (h, bs) ← getField 8 bs
    .ok (.wSize h, bs)
  | 0x04 => do
    let (h, bs) ← getField 8 bs
    let (n, bs) ← getField 16 bs
    let (m, bs) ← getField 16 bs
    .ok (.wHascap h n m, bs)
  | 0x05 => do
    let (h, bs) ← getField 8 bs
    .ok (.wSnap h, bs)
  | 0x06 => do
    let (h, bs) ← getField 8 bs
    let (nb, bs) ← getField 32 bs
    let (nbit, bs) ← getField 3 bs
    .ok (.wRestore h nb nbit, bs)
  | 0x07 => do
    let (hd, bs) ← getField 8 bs
    let (hs, bs) ← getField 8 bs
    .ok (.wClone hd hs, bs)
  | 0x08 => do
    let (h, bs) ← getField 8 bs
    .ok (.wRead h, bs)
  | 0x09 => do
    let (data, bs) ← getData bs
    let (p, bs) ← getField 32 bs
    let (w, bs) ← getField 6 bs
    .ok (.rBits data p w, bs)
  | 0x0A => do
    let (data, bs) ← getData bs
    let (p, bs) ← getField 32 bs
    .ok (.rType data p, bs)
  | 0x0B => do
    let (data, bs) ← getData bs
    .ok (.rDispatch data, bs)
  | 0x0C => do
    let (data, bs) ← getData bs
    let (p, bs) ← getField 32 bs
    let (tag, bs) ← getField 7 bs
    .ok (.rDecode data p tag, bs)
  | 0x0D => do
    let (nd, bs) ← getData bs
    let (od, bs) ← getData bs
    let (base, bs) ← getField 16 bs
    let (len, bs) ← getField 16 bs
    let (start, bs) ← getField 16 bs
    let (maxB, bs) ← getField 16 bs
    .ok (.dCompute nd od base len start maxB, bs)
  | 0x10 => do
    let (d, bs) ← getField 7 bs
    let (m, bs) ← getField 16 bs
    .ok (.sConfig d m, bs)
  | 0x11 => .ok (.sOpen, bs)
  | 0x12 => .ok (.sClose, bs)
  | 0x13 => do
    let (c, bs) ← getField 10 bs
    .ok (.sAck c, bs)
  | 0x14 => do
    let (nd, bs) ← getData bs
    let (od, bs) ← getData bs
    let (base, bs) ← getField 16 bs
    let (len, bs) ← getField 16 bs
    .ok (.sFrame nd od base len, bs)
  | 0x15 => .ok (.sHbTick, bs)
  | 0x16 => .ok (.sReqTopo, bs)
  | 0x17 => .ok (.sStatus, bs)
  | _ => .error .reservedOpcode

/-- The decoder: the instruction at the head of a layer's stream and the bits after it. -/
def decode : Layer → List Bool → Except DecodeError (Instr × List Bool)
  | .header => decodeHeader
  | .command => decodeCommand
  | .message => decodeMessageBits
  | .payload => decodePayload
  | .request => decodeRequest

/-! ### The encoder, from the tables of R102, R104, R108, R111 and R112 -/

/-- The pairs of a `LIT` command: continuation 1 on every pair but the last (R104, R105). -/
def putLiteral : List Byte → List Bool
  | [] => []
  | [v] => putField v ++ [false]
  | v :: vs => putField v ++ true :: putLiteral vs

/-- The bits of an instruction in its layer's stream. -/
def encode : Instr → List Bool
  | .deltaHdr seq => bitsOf 7 0x02 ++ putField seq
  | .eop => bitsOf 3 0
  | .eoc => bitsOf 3 1
  | .skipf n => bitsOf 3 2 ++ putField n
  | .skipm n => bitsOf 3 3 ++ putField n
  | .lit vs => bitsOf 3 4 ++ putLiteral vs
  | .valf n v => bitsOf 3 5 ++ putField n ++ putField v
  | .vall n => bitsOf 3 6 ++ putField n
  | .valm n v => bitsOf 3 7 ++ putField n ++ putField v
  | .msgTopology body => bitsOf 7 0x01 ++ body.flatMap putField
  | .msgAck c => bitsOf 7 0x02 ++ putField c
  | .msgTouchMove body => bitsOf 7 0x11 ++ body.flatMap putField
  | .msgTouchStartV body => bitsOf 7 0x13 ++ body.flatMap putField
  | .msgTouchEndV body => bitsOf 7 0x15 ++ body.flatMap putField
  | .cmdEndApi => byteBits (payloadBytes .cmdEndApi)
  | .cmdBeginApi => byteBits (payloadBytes .cmdBeginApi)
  | .cmdHeartbeat => byteBits (payloadBytes .cmdHeartbeat)
  | .cmdEnableMpe => byteBits (payloadBytes .cmdEnableMpe)
  | .cmdSaveDefault => byteBits (payloadBytes .cmdSaveDefault)
  | .cmdReqTopology => byteBits (payloadBytes .cmdReqTopology)
  | .wNew h => bitsOf 5 0x01 ++ putField h
  | .wBits h v w => bitsOf 5 0x02 ++ putField h ++ putField v ++ putField w
  | .wSize h => bitsOf 5 0x03 ++ putField h
  | .wHascap h n m => bitsOf 5 0x04 ++ putField h ++ putField n ++ putField m
  | .wSnap h => bitsOf 5 0x05 ++ putField h
  | .wRestore h nb nbit => bitsOf 5 0x06 ++ putField h ++ putField nb ++ putField nbit
  | .wClone hd hs => bitsOf 5 0x07 ++ putField hd ++ putField hs
  | .wRead h => bitsOf 5 0x08 ++ putField h
  | .rBits data p w => bitsOf 5 0x09 ++ putData data ++ putField p ++ putField w
  | .rType data p => bitsOf 5 0x0A ++ putData data ++ putField p
  | .rDispatch data => bitsOf 5 0x0B ++ putData data
  | .rDecode data p tag => bitsOf 5 0x0C ++ putData data ++ putField p ++ putField tag
  | .dCompute nd od base len start maxB =>
      bitsOf 5 0x0D ++ putData nd ++ putData od ++ putField base ++ putField len ++ putField start
        ++ putField maxB
  | .sConfig d m => bitsOf 5 0x10 ++ putField d ++ putField m
  | .sOpen => bitsOf 5 0x11
  | .sClose => bitsOf 5 0x12
  | .sAck c => bitsOf 5 0x13 ++ putField c
  | .sFrame nd od base len =>
      bitsOf 5 0x14 ++ putData nd ++ putData od ++ putField base ++ putField len
  | .sHbTick => bitsOf 5 0x15
  | .sReqTopo => bitsOf 5 0x16
  | .sStatus => bitsOf 5 0x17

/-! ### Words as spec/opcode_table.json numbers them -/

/-- Whether R114 reserves this request opcode. -/
def opcodeReserved (op : Nat) : Bool :=
  decide (op = 0x00) || decide (op = 0x0E) || decide (op = 0x0F) || decide (0x18 ≤ op)

/-- Which layer a table word is read in. The table's layers share their words (0x02 is `DELTA_HDR`,
`SKIPF`, `MSG_ACK` and `W_BITS`), so a word alone cannot name its row: one longer than a byte is a
payload, and a byte is a request unless its opcode is reserved, where it is a change command
(DESIGN CHOICE, log 7). -/
def tableLayer (nbits w : Nat) : Layer :=
  if 8 < nbits then .payload
  else if opcodeReserved (w % 32) then .command
  else .request

/-- The bytes of a payload word, which the table writes with its first byte most significant. -/
def wordBytes (nbits w : Nat) : List Byte :=
  ((List.range (nbits / 8)).map fun k => BitVec.ofNat 8 (w >>> (8 * k))).reverse

/-- The stream of a table word: a payload's bytes in transmission order; otherwise its bits from bit 0
up, and 0 for every bit above them. -/
def tableBits (nbits w : Nat) : List Bool :=
  if 8 < nbits then byteBits (wordBytes nbits w)
  else bitsOf nbits w ++ List.replicate 256 false

/-- The instruction the decoder reads from a table word. -/
def decodeTableWord (nbits w : Nat) : Option Instr :=
  match decode (tableLayer nbits w) (tableBits nbits w) with
  | .ok (i, _) => some i
  | .error _ => none

end Sys2Proof
end

