-- ==== Sys2Proof/Machine/State.lean ====
section
/-! DEFINITION. The state of the machine: everything 10_state.md gives the CORE (R30), the reference
device of 42_delta_encoder.md section 7, and the interface on which requests arrive and responses and
events leave. Plain data throughout. -/

namespace Sys2Proof.Machine

/-! ### U1 (R32) -/

/-- One writer instance (R32). `buf` holds the stored bytes in use; every byte at or past its end is 0,
as R33 (b) says of every stream bit at or past the cursor (log 6). -/
structure Writer where
  /-- `WBUF_h`. -/
  buf : List Byte
  /-- `WNB_h`, the count of completed bytes. -/
  nb : Nat
  /-- `WNBIT_h`, the slots filled in the byte being filled. -/
  nbit : BitVec 3
deriving DecidableEq, Repr

/-! ### U3 (R40) -/

/-- `SSTATE` (R40). The code 3 is reserved and never held, so it has no constructor. -/
inductive SState where
  | closed
  | opening
  | ready
deriving DecidableEq, Repr

/-! ### Decoded messages (R201, R204) -/

/-- The fields a decode returns, in schema order. -/
inductive Record where
  | nil
  | num (name : FieldName) (value : BitVec 32) (rest : Record)
  | sub (name : FieldName) (fields rest : Record)
deriving DecidableEq, Repr

/-- What `decodeMessage` returns: the fields of a fixed schema, or a topology message's groups. -/
inductive Decoded where
  | fields (r : Record)
  | topology (header : Record) (devices connections : List Record)
deriving DecidableEq, Repr

/-! ### The reference device (R280, R281) -/

/-- The device's display buffer, indexed by absolute device offset (R70), as a list of cells with
rising offsets none of which holds `Config.displayDefault` (log 13). -/
abbrev Memory := List Host.Cell

/-- The device that reads change-list packets (R280). -/
structure Device where
  /-- The display buffer `D`. -/
  display : Memory
  /-- The device cursor `cur`. -/
  cur : Nat
  /-- The established value `last`, or none. -/
  last : Option Byte
  /-- Whether a packet's header has been read and its terminator has not. -/
  inPacket : Bool
deriving DecidableEq, Repr

/-! ### The request interface -/

/-- The fault codes of R360 other than `OK`. -/
inductive ErrCode where
  /-- `E_ILLEGAL_OP` -/
  | illegalOp
  /-- `E_WIDTH` -/
  | width
  /-- `E_VALUE` -/
  | value
  /-- `E_WRITER_FULL` -/
  | writerFull
  /-- `E_RESTORE` -/
  | restore
  /-- `E_ARG` -/
  | arg
  /-- `E_BUDGET` -/
  | budget
  /-- `E_QUEUE_FULL` -/
  | queueFull
  /-- `E_CHECKSUM` -/
  | checksum
  /-- `E_STATE` -/
  | badState
deriving DecidableEq, Repr

/-- The result of a request, per R112's result column. -/
inductive Result where
  | none
  | size (bytes : Nat)
  | capacity (fits : Bool)
  | snapshot (nb : Nat) (nbit : BitVec 3)
  | bytes (bs : List Byte)
  | read (ok : Bool) (value : BitVec 32)
  | messages (delivered : List (BitVec 7 × Decoded))
  | decoded (fields : Decoded) (bitsConsumed : Nat)
  | packets (ps : List (List Byte))
  | committed
  | dropped
  | status (status0 status1 : BitVec 32)
deriving DecidableEq, Repr

/-- The response to a request: its 8-bit status (R360) and its result. -/
structure Response where
  status : BitVec 8
  result : Result
deriving DecidableEq, Repr

/-- The output events of R113. -/
inductive Event where
  /-- `EV_TX`: device index, payload, expected checksum or none (R301). -/
  | tx (dev : BitVec 7) (payload : List Byte) (expect : Option (BitVec 7))
  /-- `EV_STUCK`: the value of `APC` (R310). -/
  | stuck (apc : BitVec 10)
  /-- `EV_READY` (R328). -/
  | ready
  /-- `EV_ABORTED` (R331). -/
  | aborted
  /-- `EV_MSG`: a delivered message other than a packet-ack (R209). -/
  | msg (tag : BitVec 7) (fields : Decoded)
deriving DecidableEq, Repr

/-- What waits at the machine's inputs (log 1). The CORE has two: reset (R390) and requests (R112),
which carry every other stimulus (R372), an inbound message inside `R_DISPATCH`. A change-list packet
goes to the reference device, which is outside the CORE (R7, R280). -/
inductive Input where
  /-- The reset input (R390). -/
  | reset
  /-- One request (R112), as `decodeRequest` reads it. -/
  | request (bits : List Bool)
  /-- A change-list packet at the device: the stream bits not read yet (R280). -/
  | packet (bits : List Bool)
deriving DecidableEq, Repr

/-! ### The state -/

/-- The machine's state. -/
structure State where
  /-- The parameters the CORE was built with: a constant, which no request writes (R54; log 2). -/
  params : Params
  /-- `FAULT` (R31). -/
  fault : BitVec 8
  /-- U1's writers, by handle (R32). -/
  writers : List Writer
  /-- `SSTATE` (R40). -/
  sstate : SState
  /-- `STEP` (R41). -/
  stepReg : BitVec 4
  /-- `PENDING` (R42). -/
  pending : Bool
  /-- `PC`, the packet counter (R43). -/
  pc : BitVec 10
  /-- `APC`, the acknowledged counter (R44). -/
  apc : BitVec 10
  /-- `READYF` (R46). -/
  readyF : Bool
  /-- `HBEN` (R47). -/
  hbEn : Bool
  /-- `QUEUE`, head first (R48). -/
  queue : List (List Byte)
  /-- `DEVIDX` (R50). -/
  devIdx : BitVec 7
  /-- `MAXPKT` (R50). -/
  maxPkt : BitVec 16
  /-- The reference device (R280), which is outside the CORE (R7). -/
  dev : Device
  /-- The model's own: what waits at the inputs, first in front (R84; log 1). -/
  inputs : List Input
  /-- The model's own: a command payload (R111) that U3 transmits when nothing waits at the inputs. It is
  no stimulus: no step and no input sets it, only `State.withFetchWord` does (log 1). -/
  outbound : Option (List Bool)
  /-- The model's own: the response of the last request (R360; log 8). -/
  response : Response
  /-- The model's own: every event emitted so far, in order (R84, R113; log 8). -/
  events : List Event
  /-- The model's own: how many free values have been drawn (log 12). -/
  freeCount : Nat
deriving DecidableEq, Repr

/-! ### Where a step stops -/

/-- The stops of a step that are not the spec's fault codes (a code of R360 is a next state). -/
inductive Fault where
  /-- Raised by the fetch of a change-list packet whose bits end before its terminator; R280 and R116
  give such bits no meaning. Safe: the machine stops. -/
  | packetTruncated
  /-- Raised by an ack that finds `PENDING` = 1 with `STEP` + 1 outside 1..8, where R320 has no step to
  run; no request reaches such a state (R42, R320). Safe: the machine stops. -/
  | handshakeOverrun
deriving DecidableEq, Repr

/-- What the machine gives no meaning to. -/
inductive Refusal where
  /-- Raised by exec for an instruction without a meaning. Safe. -/
  | notModelled (mnemonic : String)
  /-- Raised by R_DECODE, and by R_DISPATCH and the inbound messages it carries, where a message is to be
  decoded by an entry of `SCHEMAS` that is ill-formed: R200 says a model refuses it (log 20). Safe. -/
  | illFormedSchemas
  /-- Raised by the fetch when the bits at an input are no instruction of their layer and the spec
  gives them no effect (log 10). Safe. -/
  | undecodable (e : DecodeError)
deriving DecidableEq, Repr

/-- How a request ends early: with a fault code of R360, or with a stop of the machine. -/
inductive Stop where
  | raise (c : ErrCode)
  | stuck (f : Fault)
  | refuse (r : Refusal)
deriving DecidableEq, Repr

/-! ### Reset -/

/-- An empty writer (R34). -/
def Writer.empty : Writer := { buf := [], nb := 0, nbit := 0 }

/-- The device before any packet: nothing written, no packet begun (log 13). -/
def Device.initial : Device := { display := [], cur := 0, last := none, inPacket := false }

/-- The response before any request (log 8). -/
def Response.initial : Response := { status := 0x00, result := .none }

/-- The machine right after reset (R390), with nothing at its inputs. -/
def State.reset : State where
  params    := Params.default
  fault     := 0x00
  writers   := List.replicate Params.default.nw Writer.empty
  sstate    := .closed
  stepReg   := 0
  pending   := false
  pc        := 1
  apc       := 0
  readyF    := false
  hbEn      := false
  queue     := []
  devIdx    := Config.resetDevIdx
  maxPkt    := Config.maxPacketBytesDefault
  dev       := Device.initial
  inputs    := []
  outbound  := none
  response  := Response.initial
  events    := []
  freeCount := 0

end Sys2Proof.Machine
end

