-- ==== Sys2Proof/Machine/Ops.lean ====
section
/-! DEFINITION. The named operations over the state: raising a fault (R362), answering a request,
reset (R390), the writer's bit store (R152, R157), the device's display, and transmission (R301, R302). -/

namespace Sys2Proof.Machine

/-! ### Raising a fault (R362) -/

/-- The status byte of each fault code (R360). -/
def ErrCode.code : ErrCode → BitVec 8
  | .illegalOp  => 0x01
  | .width      => 0x02
  | .value      => 0x03
  | .writerFull => 0x04
  | .restore    => 0x05
  | .arg        => 0x06
  | .budget     => 0x07
  | .queueFull  => 0x08
  | .checksum   => 0x09
  | .badState   => 0x0A

/-- Raise `c` (R362): the request ends with that status and no result, `FAULT` takes the code if it
was 0 (R31), and nothing else changes. There is no handler, no vector and no return (R363, R365). -/
def State.raise (s : State) (c : ErrCode) : State :=
  { s with
    fault := if s.fault = 0 then c.code else s.fault
    response := { status := c.code, result := .none } }

/-- How work on a copy of the state ends: it is committed, or its fault is raised on the state as it
was (R362). -/
def finish (s : State) : Except Stop State → Host.Outcome State Fault Refusal
  | .ok t => .next t
  | .error (.raise c) => .next (s.raise c)
  | .error (.stuck f) => .fault f
  | .error (.refuse r) => .refused r

/-- A state that has answered with status `OK` and this result (R13, R360). -/
def State.respondOk (s : State) (r : Result) : State :=
  { s with response := { status := 0x00, result := r } }

/-- How a request ends: its work is committed with status `OK` and its result, or its fault is raised. -/
def answer (s : State) (r : Except Stop (State × Result)) : Host.Outcome State Fault Refusal :=
  finish s (r.map fun tr => tr.1.respondOk tr.2)

/-- Put an event on the event interface, after those already there (R13, R84). -/
def State.emit (s : State) (e : Event) : State := { s with events := s.events ++ [e] }

/-- The reset input (R390): every register of the CORE takes its reset value. What is not the CORE's
state stays: the parameters (R54), the device (R7), the inputs and the events already emitted. -/
def State.coreReset (s : State) : State :=
  { s with
    fault := 0x00
    writers := List.replicate s.params.nw Writer.empty
    sstate := .closed
    stepReg := 0
    pending := false
    pc := 1
    apc := 0
    readyF := false
    hbEn := false
    queue := []
    devIdx := Config.resetDevIdx
    maxPkt := Config.maxPacketBytesDefault
    response := Response.initial }

/-! ### Bytes and stream bits of a buffer (R12, R71) -/

/-- `ceil(n / 7)`: how many stored bytes `n` stream bits occupy (R101). -/
def bytesFor (n : Nat) : Nat := (n + 6) / 7

/-- Replace byte `i`, with zero bytes up to it where the list is shorter. -/
def setByte : List Byte → Nat → Byte → List Byte
  | [], 0, x => [x]
  | [], i + 1, x => 0 :: setByte [] i x
  | _ :: bs, 0, x => x :: bs
  | b :: bs, i + 1, x => b :: setByte bs i x

/-- Byte `b` with bit `k` made `v`. -/
def putBit (b : Byte) (k : Nat) (v : Bool) : Byte :=
  if v then b ||| (1#8 <<< k) else b &&& ~~~(1#8 <<< k)

/-- Stream bit `j` of a writer's bytes: bit `j mod 7` of byte `floor(j/7)` (R12). -/
def bitAt (buf : List Byte) (j : Nat) : Bool := (buf.getD (j / 7) 0).getLsbD (j % 7)

/-- Write stream bit `j` (R152). -/
def setStreamBit (buf : List Byte) (j : Nat) (v : Bool) : List Byte :=
  setByte buf (j / 7) (putBit (buf.getD (j / 7) 0) (j % 7) v)

/-- Write a run of stream bits from position `q` up (R152's loop). -/
def storeBits : List Byte → Nat → List Bool → List Byte
  | buf, _, [] => buf
  | buf, q, b :: bs => storeBits (setStreamBit buf q b) (q + 1) bs

/-- Clear every stream bit at or after position `t` (R157). -/
def clearFrom (buf : List Byte) (t : Nat) : List Byte :=
  if t % 7 = 0 then buf.take (t / 7)
  else buf.take (t / 7) ++ [buf.getD (t / 7) 0 &&& BitVec.ofNat 8 (2 ^ (t % 7) - 1)]

/-! ### Writers (R32) -/

/-- `bitCount(h) = 7·WNB_h + WNBIT_h` (R33). -/
def Writer.bitCount (wr : Writer) : Nat := 7 * wr.nb + wr.nbit.toNat

/-- `size(h)` (R33, R153). -/
def Writer.size (wr : Writer) : Nat := wr.nb + if 0 < wr.nbit.toNat then 1 else 0

/-- Append bits at the cursor and move it past them (R152). -/
def Writer.append (wr : Writer) (bs : List Bool) : Writer where
  buf := storeBits wr.buf wr.bitCount bs
  nb := (wr.bitCount + bs.length) / 7
  nbit := BitVec.ofNat 3 ((wr.bitCount + bs.length) % 7)

/-- Whether appending `n` bits would pass `WCAP` bytes (R152, R257). -/
def Writer.overflows (wr : Writer) (n wcap : Nat) : Bool := decide (wcap < bytesFor (wr.bitCount + n))

/-- Roll the cursor back to `(nb, nbit)`, clearing every bit after it (R157). -/
def Writer.rollBack (wr : Writer) (nb : Nat) (nbit : BitVec 3) : Writer where
  buf := clearFrom wr.buf (7 * nb + nbit.toNat)
  nb := nb
  nbit := nbit

/-- The `size(h)` bytes of a writer (R159). -/
def Writer.bytes (wr : Writer) : List Byte := (List.range wr.size).map fun i => wr.buf.getD i 0

/-- Replace writer `h`. -/
def State.setWriter (s : State) (h : BitVec 8) (wr : Writer) : State :=
  { s with writers := s.writers.set h.toNat wr }

/-! ### The device's display (R70, R281) -/

/-- `D[a]`. -/
def Memory.read : Memory → Nat → Byte
  | [], _ => Config.displayDefault
  | c :: m, a => if c.1 = a then c.2 else Memory.read m a

/-- `MemWrite(D, a, v)` (R281), keeping offsets rising and listing no default byte. -/
def Memory.write : Memory → Nat → Byte → Memory
  | [], a, v => if v = Config.displayDefault then [] else [(a, v)]
  | c :: m, a, v =>
      if a < c.1 then (if v = Config.displayDefault then c :: m else (a, v) :: c :: m)
      else if a = c.1 then (if v = Config.displayDefault then m else (a, v) :: m)
      else c :: Memory.write m a v

/-- Bytes written at rising offsets from `a` (the loops of R281). -/
def Memory.writeRun : Memory → Nat → List Byte → Memory
  | m, _, [] => m
  | m, a, v :: vs => Memory.writeRun (m.write a v) (a + 1) vs

/-- A list of writes, in order. -/
def Memory.writeAll : Memory → List (Nat × Byte) → Memory
  | m, [] => m
  | m, w :: ws => Memory.writeAll (m.write w.1 w.2) ws

/-- The canonical form: offsets strictly rising, and no default byte listed. -/
def Memory.wf : Memory → Bool
  | [] => true
  | [c] => decide (c.2 ≠ Config.displayDefault)
  | c :: d :: m => decide (c.2 ≠ Config.displayDefault) && decide (c.1 < d.1) && Memory.wf (d :: m)

/-! ### Transmission (R109, R110, R301, R302) -/

/-- One byte of the checksum recurrence: `c := (3·c + b) mod 256` (R110). -/
def checksumStep (c b : Byte) : Byte := c + (2 * c + b)

/-- `Checksum(P)` (R110). -/
def checksum (payload : List Byte) : BitVec 7 :=
  (payload.foldl checksumStep (BitVec.ofNat 8 payload.length)).setWidth 7

/-- `Frame(d, P)` (R109): what the external SysEx builder sends for an `EV_TX` of `P` to device `d`. -/
def frame (d : BitVec 7) (payload : List Byte) : List Byte :=
  [0xF0, 0x00, 0x21, 0x10, 0x77, d.setWidth 8] ++ payload ++ [(checksum payload).setWidth 8, 0xF7]

/-- `transmit(d, P, expect)` (R301). -/
def transmit (s : State) (d : BitVec 7) (payload : List Byte) (expect : Option (BitVec 7)) :
    Except Stop State :=
  match expect with
  | none => .ok (s.emit (.tx d payload none))
  | some e =>
      if checksum payload = e then .ok (s.emit (.tx d payload (some e)))
      else .error (.raise .checksum)

/-- The expected checksums of R111's table (the handshake command table, R54). -/
def expectedChecksum : Instr → BitVec 7
  | .cmdEndApi => 0x60
  | .cmdBeginApi => 0x5A
  | .cmdHeartbeat => 0x63
  | .cmdEnableMpe => 0x44
  | .cmdSaveDefault => 0x69
  | .cmdReqTopology => 0x5D
  | _ => 0

/-- Transmit a row of R111's table to device `d`. -/
def transmitCommand (s : State) (d : BitVec 7) (cmd : Instr) : Except Stop State :=
  transmit s d (payloadBytes cmd) (some (expectedChecksum cmd))

/-- `sendQueuedHead()` (R302): the head of `QUEUE` is popped and sent, and `PC` counts it. An empty
queue has no head to send; every caller has one (R312, R340). -/
def sendQueuedHead (s : State) : Except Stop State :=
  match s.queue with
  | [] => .ok s
  | p :: rest => do
      let t ← transmit { s with queue := rest } s.devIdx p none
      .ok { t with pc := s.pc + 1 }

end Sys2Proof.Machine
end

