-- ==== Sys2Proof/Machine/Operands.lean ====
section
/-! DEFINITION. The operand forms of the requests: a writer handle (R150), a field of an input buffer
(R160, R161) and a pair of frame buffers (R241). -/

namespace Sys2Proof.Machine

/-- The writer a handle names; a handle at or past `NW` raises `E_ARG` (R150). -/
def getWriter (s : State) (h : BitVec 8) : Except Stop Writer :=
  if h.toNat < s.params.nw then .ok (s.writers.getD h.toNat Writer.empty) else .error (.raise .arg)

/-- Whether a field width is outside `1..32` (R79). -/
def badWidth (w : BitVec 6) : Bool := decide (w.toNat < 1) || decide (Config.maxFieldBits < w.toNat)

/-- `sbit(data, j)` (R161): 0 past the payload, and bit 7 of a byte never read. -/
def sbit (data : List Byte) (j : Nat) : Bool :=
  if j < 7 * data.length then (data.getD (j / 7) 0).getLsbD (j % 7) else false

/-- The number in stream bits `p .. p+w-1` of a buffer (R74). -/
def readField (data : List Byte) (p w : Nat) : Nat :=
  ofBits ((List.range w).map fun k => sbit data (p + k))

/-- `R_BITS` after its width check (R160): `none` past the read bound, the value inside it. -/
def readBits (factor : Nat) (data : List Byte) (p w : Nat) : Option (BitVec 32) :=
  if factor * data.length < p + w then none else some (BitVec.ofNat 32 (readField data p w))

/-- What `R_BITS` responds (R160). -/
def readResult : Option (BitVec 32) → Result
  | none => .read false 0
  | some v => .read true v

/-- R241's checks on a pair of frame buffers. -/
def badFrames (newData oldData : List Byte) (length : BitVec 16) : Bool :=
  decide (newData.length ≠ oldData.length) || decide (newData.length < length.toNat)

/-- The pairs of bytes at scan positions `0 .. length-1` (R76). -/
def framePairs (newData oldData : List Byte) (length : BitVec 16) : List (Byte × Byte) :=
  (newData.zip oldData).take length.toNat

end Sys2Proof.Machine
end

