-- ==== Sys2Proof/Machine/BitCursor.lean ====
section
/-! DEFINITION. U1, the bit cursor: the requests of 40_bitcursor.md. -/

namespace Sys2Proof.Machine

/-- `W_NEW h` (R151): writer `h` is emptied. -/
def execWNew (h : BitVec 8) (s : State) : Host.Outcome State Fault Refusal :=
  answer s do
    let _ ← getWriter s h
    .ok (s.setWriter h Writer.empty, .none)

/-- `W_BITS h, v, w` (R152): the low `w` bits of `v` are appended. -/
def execWBits (h : BitVec 8) (v : BitVec 32) (w : BitVec 6) (s : State) :
    Host.Outcome State Fault Refusal :=
  answer s do
    let wr ← getWriter s h
    if badWidth w then .error (.raise .width)
    else if w.toNat < 32 ∧ v >>> w.toNat ≠ 0 then .error (.raise .value)
    else if wr.overflows w.toNat s.params.wcap then .error (.raise .writerFull)
    else .ok (s.setWriter h (wr.append (bitsOf w.toNat v.toNat)), .none)

/-- `W_SIZE h` (R153). -/
def execWSize (h : BitVec 8) (s : State) : Host.Outcome State Fault Refusal :=
  answer s do
    let wr ← getWriter s h
    .ok (s, .size wr.size)

/-- `W_HASCAP h, n, maxBytes` (R154): `WCAP` plays no part in it. -/
def execWHascap (h : BitVec 8) (n maxBytes : BitVec 16) (s : State) :
    Host.Outcome State Fault Refusal :=
  answer s do
    let wr ← getWriter s h
    .ok (s, .capacity (decide (wr.bitCount + n.toNat ≤ 7 * maxBytes.toNat)))

/-- `W_SNAP h` (R156). -/
def execWSnap (h : BitVec 8) (s : State) : Host.Outcome State Fault Refusal :=
  answer s do
    let wr ← getWriter s h
    .ok (s, .snapshot wr.nb wr.nbit)

/-- `W_RESTORE h, (nb, nbit)` (R157). -/
def execWRestore (h : BitVec 8) (nb : BitVec 32) (nbit : BitVec 3) (s : State) :
    Host.Outcome State Fault Refusal :=
  answer s do
    let wr ← getWriter s h
    if 6 < nbit.toNat then .error (.raise .restore)
    else if wr.bitCount < 7 * nb.toNat + nbit.toNat then .error (.raise .restore)
    else .ok (s.setWriter h (wr.rollBack nb.toNat nbit), .none)

/-- `W_CLONE hd, hs` (R158): writer `hd` becomes a copy of writer `hs`. -/
def execWClone (hd hs : BitVec 8) (s : State) : Host.Outcome State Fault Refusal :=
  answer s do
    let _ ← getWriter s hd
    let wr ← getWriter s hs
    .ok (s.setWriter hd wr, .none)

/-- `W_READ h` (R159). -/
def execWRead (h : BitVec 8) (s : State) : Host.Outcome State Fault Refusal :=
  answer s do
    let wr ← getWriter s h
    .ok (s, .bytes wr.bytes)

/-- `R_BITS data, p, w` (R160): a read past the bound answers `ok = 0` and is no fault (R366). -/
def execRBits (data : List Byte) (p : BitVec 32) (w : BitVec 6) (s : State) :
    Host.Outcome State Fault Refusal :=
  answer s do
    if badWidth w then .error (.raise .width)
    else .ok (s, readResult (readBits s.params.readBoundFactor data p.toNat w.toNat))

/-- `R_TYPE data, p` (R163): `R_BITS` at the fixed width 7. -/
def execRType (data : List Byte) (p : BitVec 32) (s : State) : Host.Outcome State Fault Refusal :=
  answer s (.ok (s, readResult (readBits s.params.readBoundFactor data p.toNat 7)))

end Sys2Proof.Machine
end

