-- ==== Sys2Proof/Machine/DeltaEncoder.lean ====
section
/-! DEFINITION. U2, the delta frame encoder and packet splitter of 42_delta_encoder.md sections 1 to 6.
It writes every command through `encode`, so its packets use the formats of R104 and nothing else. -/

namespace Sys2Proof.Machine

/-- What stays fixed during one encoding: the budget `B` (R243), `WCAP`, `baseOffset` and `VALUE_RUNS`. -/
structure EncodeJob where
  /-- `B` in stream bits; `none` is unbounded. -/
  budget : Option Nat
  wcap : Nat
  base : Nat
  valueRuns : Bool
deriving DecidableEq, Repr

/-- U2's working registers (R38); they live inside one request. -/
structure Encoder where
  /-- `Wk`. -/
  wk : Writer
  seq : BitVec 16
  /-- `dev`, the absolute offset the packet has reached (R244). -/
  dev : Nat
  lastValue : Option Byte
  /-- The packets finished so far, in order. -/
  out : List (List Byte)
deriving DecidableEq, Repr

/-- `B` (R243): `maxBytes = 0` encodes null. -/
def packetBudget (maxBytes : BitVec 16) : Option Nat :=
  if maxBytes = 0 then none else some (7 * maxBytes.toNat)

/-- Whether the header and a terminator fit at all: R240's first budget check (R256 (a)). -/
def budgetTooSmall : Option Nat → Bool
  | none => false
  | some b => decide (b < 26)

/-- `fits(n)`: `bc + n ≤ B` (R243). -/
def Encoder.fits (j : EncodeJob) (e : Encoder) (n : Nat) : Bool :=
  match j.budget with
  | none => true
  | some b => decide (e.wk.bitCount + n ≤ b)

/-- `cost(cmd)`: the stream bits a command occupies (R14). -/
def cost (i : Instr) : Nat := (encode i).length

/-- Write one command into `Wk`; past `WCAP` bytes it raises `E_WRITER_FULL` (R257). -/
def Encoder.put (j : EncodeJob) (e : Encoder) (i : Instr) : Except Stop Encoder :=
  if e.wk.overflows (cost i) j.wcap then .error (.raise .writerFull)
  else .ok { e with wk := e.wk.append (encode i) }

/-- Write commands in order. -/
def Encoder.putAll (j : EncodeJob) : Encoder → List Instr → Except Stop Encoder
  | e, [] => .ok e
  | e, i :: is => do
      let e' ← e.put j i
      e'.putAll j is

/-- `startPacket()` (R242). -/
def Encoder.startPacket (j : EncodeJob) (e : Encoder) : Except Stop Encoder :=
  Encoder.put j { e with wk := Writer.empty, dev := 0, lastValue := none } (.deltaHdr e.seq)

/-! ### Skips (R246, R248) -/

/-- The counts a run of `c` is chunked into: at most 255 while more than 15 remain, then the rest
(R246). The first argument bounds the chunks; `c` of them always suffice. -/
def runChunks : Nat → Nat → List Nat
  | 0, _ => []
  | fuel + 1, c =>
      if 15 < c then min c 255 :: runChunks fuel (c - min c 255)
      else if 0 < c then [c]
      else []

/-- The skip command that carries a count: the many form above 15 (R246). -/
def skipCommand (ch : Nat) : Instr :=
  if 15 < ch then .skipm (BitVec.ofNat 8 ch) else .skipf (BitVec.ofNat 4 ch)

/-- `skipCmds(c)` (R246). -/
def skipCommands (c : Nat) : List Instr := (runChunks c c).map skipCommand

/-- `skipCost(c)` (R246). -/
def skipCost (c : Nat) : Nat := ((skipCommands c).map cost).sum

/-! ### Splitting (R251) -/

/-- `split(X, need)` (R251): the packet ends with `EOP`, the next one starts, and it re-skips to `X`;
a fresh packet that cannot hold the re-skip, the command in hand and a terminator raises `E_BUDGET`
(R256 (b)). -/
def Encoder.split (j : EncodeJob) (e : Encoder) (x need : Nat) : Except Stop Encoder := do
  let c ← e.put j .eop
  let f ← Encoder.startPacket j { c with out := c.out ++ [c.wk.bytes], seq := c.seq + 1 }
  if f.fits j (skipCost x + need + 3) then do
    let g ← f.putAll j (skipCommands x)
    .ok { g with dev := x }
  else .error (.raise .budget)

/-- `emitSkipTo(T)` (R248). -/
def Encoder.skipTo (j : EncodeJob) (e : Encoder) (target : Nat) : Except Stop Encoder :=
  let c := target - e.dev
  if c = 0 then .ok e
  else if e.fits j (skipCost c + 3) then do
    let f ← e.putAll j (skipCommands c)
    .ok { f with dev := target }
  else e.split j target 0

/-! ### Literals (R249) -/

/-- How many of `n` bytes the packet's literal takes: all when unbounded, else as many as leave room
for the terminator (R249). -/
def Encoder.literalRoom (j : EncodeJob) (e : Encoder) (n : Nat) : Nat :=
  match j.budget with
  | none => n
  | some b => min n ((b - e.wk.bitCount - 6) / 9)

/-- `emitLiteral(k, e)` (R249) for the bytes `seg` that start at scan position `k`. The first argument
bounds the loop; one turn takes at least one byte, so `seg.length` turns suffice. -/
def Encoder.literal (j : EncodeJob) : Nat → Encoder → Nat → List Byte → Except Stop Encoder
  | 0, e, _, _ => .ok e
  | _ + 1, e, _, [] => .ok e
  | fuel + 1, e, k, b :: bs => do
      let f ← if e.fits j (3 + 9 + 3) then .ok e else e.split j (j.base + k) 12
      let m := f.literalRoom j (bs.length + 1)
      let g ← f.put j (.lit ((b :: bs).take m))
      let rest := (b :: bs).drop m
      let h : Encoder := { g with dev := j.base + (k + m) }
      let h' ← if rest = [] then .ok h else h.split j (j.base + (k + m)) 12
      Encoder.literal j fuel h' (k + m) rest

/-! ### Value runs (R260 to R264) -/

/-- The value command for a chunk of `ch` copies of `v` (R263): `VALL` only when `v` is established. -/
def valueCommand (lastValue : Option Byte) (ch : Nat) (v : Byte) : Instr :=
  if 15 < ch then .valm (BitVec.ofNat 8 ch) v
  else if lastValue = some v then .vall (BitVec.ofNat 4 ch)
  else .valf (BitVec.ofNat 4 ch) v

/-- The commands for counts of copies of `v`, each establishing `v` for the next (R263, R264). -/
def valueCommands : Option Byte → List Nat → Byte → List Instr
  | _, [], _ => []
  | last, ch :: chs, v => valueCommand last ch v :: valueCommands (some v) chs v

/-- `vcost(r, v)` (R261). -/
def valueCost (lastValue : Option Byte) (r : Nat) (v : Byte) : Nat :=
  ((valueCommands lastValue (runChunks r r) v).map cost).sum

/-- `runLen` at the head of the rest of a copy run (R261). -/
def runLength : List Byte → Nat
  | [] => 0
  | v :: vs => 1 + (vs.takeWhile fun b => decide (b = v)).length

/-- `crit` at the head of the rest of a copy run (R261). -/
def criterion (j : EncodeJob) (lastValue : Option Byte) : List Byte → Bool
  | [] => false
  | v :: vs =>
      j.valueRuns
        && decide (valueCost lastValue (runLength (v :: vs)) v + 3 < 9 * runLength (v :: vs))

/-- How many bytes follow before the criterion next holds (R262). -/
def literalSpan (j : EncodeJob) (lastValue : Option Byte) : List Byte → Nat
  | [] => 0
  | v :: vs => if criterion j lastValue (v :: vs) then 0 else 1 + literalSpan j lastValue vs

/-- `emitValue(k, r)` (R263) for `r` copies of `v` from scan position `k`. The first argument bounds the
loop: a chunk takes at most one split and one command, so `2·r` turns suffice. -/
def Encoder.valueRun (j : EncodeJob) : Nat → Encoder → Nat → Nat → Byte → Except Stop Encoder
  | 0, e, _, _, _ => .ok e
  | fuel + 1, e, k, r, v =>
      if r = 0 then .ok e
      else
        let ch := min r 255
        let cmd := valueCommand e.lastValue ch v
        if e.fits j (cost cmd + 3) then do
          let f ← e.put j cmd
          Encoder.valueRun j fuel { f with lastValue := some v, dev := j.base + (k + ch) } (k + ch)
            (r - ch) v
        else do
          let f ← e.split j (j.base + k) (if 15 < ch then 19 else 15)
          Encoder.valueRun j fuel f k r v

/-- `emitCopyRun` with value runs (R262). The first argument bounds the loop; one turn takes at least
one byte. -/
def Encoder.mixedRun (j : EncodeJob) : Nat → Encoder → Nat → List Byte → Except Stop Encoder
  | 0, e, _, _ => .ok e
  | _ + 1, e, _, [] => .ok e
  | fuel + 1, e, k, v :: vs =>
      if criterion j e.lastValue (v :: vs) then do
        let r := runLength (v :: vs)
        let f ← Encoder.valueRun j (2 * r) e k r v
        Encoder.mixedRun j fuel f (k + r) ((v :: vs).drop r)
      else do
        let n := 1 + literalSpan j e.lastValue vs
        let f ← Encoder.literal j n e k ((v :: vs).take n)
        Encoder.mixedRun j fuel f (k + n) ((v :: vs).drop n)

/-- `emitCopyRun` (R249 with `VALUE_RUNS` = 0, R262 with 1) for the new bytes of a copy run. -/
def Encoder.copyRun (j : EncodeJob) (e : Encoder) (k : Nat) (seg : List Byte) :
    Except Stop Encoder :=
  if j.valueRuns then Encoder.mixedRun j seg.length e k seg
  else Encoder.literal j seg.length e k seg

/-! ### The scan (R240, R245) -/

/-- Whether a scan position continues the run: equal bytes in skip mode, unequal in copy mode (R245). -/
def continuesRun (isSkipping : Bool) (p : Byte × Byte) : Bool := decide (p.1 = p.2) == isSkipping

/-- R240's loop from scan position `i`, over the pairs of bytes from there to `length`. The first
argument bounds the loop: only the first run can be empty. -/
def Encoder.scan (j : EncodeJob) :
    Nat → Encoder → Nat → Bool → List (Byte × Byte) → Except Stop Encoder
  | 0, e, _, _, _ => .ok e
  | fuel + 1, e, i, isSkipping, pairs => do
      let run := pairs.takeWhile (continuesRun isSkipping)
      let tail := pairs.dropWhile (continuesRun isSkipping)
      let f ← if isSkipping then e.skipTo j (j.base + (i + run.length))
              else e.copyRun j i (run.map Prod.fst)
      if tail = [] then .ok f else Encoder.scan j fuel f (i + run.length) (!isSkipping) tail

/-- R240 after its checks: the packets, in order. -/
def encodePairs (j : EncodeJob) (startIndex : BitVec 16) (pairs : List (Byte × Byte)) :
    Except Stop (List (List Byte)) := do
  let e ← Encoder.startPacket j
    { wk := Writer.empty, seq := startIndex, dev := 0, lastValue := none, out := [] }
  let f ← Encoder.scan j (pairs.length + 2) e 0 true pairs
  let g ← f.put j .eoc
  .ok (g.out ++ [g.wk.bytes])

/-- `D_COMPUTE` (R240), as `S_FRAME` runs it too (R340). -/
def computeDelta (p : Params) (newData oldData : List Byte)
    (baseOffset length startIndex maxBytes : BitVec 16) : Except Stop (List (List Byte)) :=
  if badFrames newData oldData length then .error (.raise .arg)
  else if budgetTooSmall (packetBudget maxBytes) then .error (.raise .budget)
  else
    encodePairs
      { budget := packetBudget maxBytes, wcap := p.wcap, base := baseOffset.toNat,
        valueRuns := p.valueRuns }
      startIndex (framePairs newData oldData length)

/-- `D_COMPUTE` (R240). -/
def execDCompute (newData oldData : List Byte) (baseOffset length startIndex maxBytes : BitVec 16)
    (s : State) : Host.Outcome State Fault Refusal :=
  answer s do
    let pk ← computeDelta s.params newData oldData baseOffset length startIndex maxBytes
    .ok (s, .packets pk)

end Sys2Proof.Machine
end

