-- ==== Sys2Proof/Machine/DeviceSide.lean ====
section
/-! DEFINITION. The device side of change-list packets: what R280 and R281 say each command does to the
display buffer. It touches no state of the CORE (R7). -/

namespace Sys2Proof.Machine

/-- Bytes written from the cursor on, and the cursor moved past them (R281). -/
def Device.write (d : Device) (vs : List Byte) : Device :=
  { d with display := d.display.writeRun d.cur vs, cur := d.cur + vs.length }

/-- The cursor moved by a skip (R281). -/
def Device.skip (d : Device) (n : Nat) : Device := { d with cur := d.cur + n }

/-- A packet begun: cursor 0 and no established value (R280). -/
def Device.startPacket (d : Device) : Device := { d with cur := 0, last := none, inPacket := true }

/-- A packet ended: the rest of it is padding (R280). -/
def Device.endPacket (d : Device) : Device := { d with inPacket := false }

/-- The free effect of a `VALL` of a count above 0 with no established value (R281: "its effect is
undefined"; I20: any value; log 12): whatever writes, cursor, value and stop the `k`-th such read draws. -/
def Device.undefinedVall (d : Device) (k : Nat) : Device where
  display  := d.display.writeAll (Config.undefinedVallWrites k)
  cur      := Config.undefinedVallCursor k
  last     := Config.undefinedVallLast k
  inPacket := Config.undefinedVallGoesOn k

/-- `DELTA_HDR` (R102, R280): the tag and `seq` are read and a packet begins. What a device does with
`seq` is outside the CORE (R280; log 11). -/
def execDeltaHdr (_seq : BitVec 16) (s : State) : Host.Outcome State Fault Refusal :=
  .next { s with dev := s.dev.startPacket }

/-- `EOP` (R280): stop. -/
def execEop (s : State) : Host.Outcome State Fault Refusal := .next { s with dev := s.dev.endPacket }

/-- `EOC` (R280): stop. -/
def execEoc (s : State) : Host.Outcome State Fault Refusal := .next { s with dev := s.dev.endPacket }

/-- `SKIPF n` (R281). -/
def execSkipf (n : BitVec 4) (s : State) : Host.Outcome State Fault Refusal :=
  .next { s with dev := s.dev.skip n.toNat }

/-- `SKIPM n` (R281). -/
def execSkipm (n : BitVec 8) (s : State) : Host.Outcome State Fault Refusal :=
  .next { s with dev := s.dev.skip n.toNat }

/-- `LIT` (R281): its bytes in order from the cursor. -/
def execLit (vs : List Byte) (s : State) : Host.Outcome State Fault Refusal :=
  .next { s with dev := s.dev.write vs }

/-- `VALF n, v` (R281): `v` is established and written `n` times. DESIGN CHOICE (log 21): a count of 0
establishes `v` too, as R281's table has it, although R106 calls a count of 0 a no-op. -/
def execValf (n : BitVec 4) (v : Byte) (s : State) : Host.Outcome State Fault Refusal :=
  .next { s with dev := { s.dev with last := some v }.write (List.replicate n.toNat v) }

/-- `VALL n` (R281): the established value written `n` times; with none established, the free effect.
DESIGN CHOICE (log 21): a count of 0 is a no-op even then, as R106 has it. -/
def execVall (n : BitVec 4) (s : State) : Host.Outcome State Fault Refusal :=
  if n = 0 then .next s
  else
    match s.dev.last with
    | some v => .next { s with dev := s.dev.write (List.replicate n.toNat v) }
    | none =>
        .next { s with dev := s.dev.undefinedVall s.freeCount, freeCount := s.freeCount + 1 }

/-- `VALM n, v` (R281): `v` is established and written `n` times. DESIGN CHOICE (log 21): a count of 0
establishes `v` too, as R281's table has it, although R106 calls a count of 0 a no-op. -/
def execValm (n : BitVec 8) (v : Byte) (s : State) : Host.Outcome State Fault Refusal :=
  .next { s with dev := { s.dev with last := some v }.write (List.replicate n.toNat v) }

end Sys2Proof.Machine
end

