-- ==== Sys2Proof/Machine/Flags.lean ====
section
/-! DEFINITION. The derived status bit of R45 and the two status words of R52. -/

namespace Sys2Proof.Machine

/-- `LASTACKED` (R45): `PC` = (`APC` + 1) mod 1024. -/
def State.lastAcked (s : State) : Bool := decide (s.pc = s.apc + 1)

/-- The two bits of `SSTATE` (R40). -/
def SState.code : SState → BitVec 2
  | .closed  => 0
  | .opening => 1
  | .ready   => 2

/-- `STATUS0` (R52), from bit 31 down. -/
def State.status0 (s : State) : BitVec 32 :=
  0#2 ++ s.apc ++ s.pc ++ BitVec.ofBool s.lastAcked ++ BitVec.ofBool s.hbEn ++ BitVec.ofBool s.readyF
    ++ BitVec.ofBool s.pending ++ s.stepReg ++ s.sstate.code

/-- `STATUS1` (R52), from bit 31 down. -/
def State.status1 (s : State) : BitVec 32 :=
  0#1 ++ s.devIdx ++ s.fault ++ BitVec.ofNat 16 s.queue.length

/-- The 4-bit code of an output event (R113). -/
def Event.code : Event → BitVec 4
  | .tx _ _ _ => 0x1
  | .stuck _  => 0x2
  | .ready    => 0x3
  | .aborted  => 0x4
  | .msg _ _  => 0x5

end Sys2Proof.Machine
end

