-- ==== Sys2Proof/Machine/Session.lean ====
section
/-! DEFINITION. U3, the session: acknowledgements, the eight handshake steps and the `S_*` requests of
43_session_fsm.md, and the command payloads of R111 that it transmits. -/

namespace Sys2Proof.Machine

/-! ### The handshake steps (R320 to R328) -/

/-- "Await ack": the end of each of steps 1 to 7 (R320). -/
def awaitAck (s : State) : State := { s with pending := true }

/-- What step `n` does (R321 to R328), before its wait. -/
def stepActions (n : Nat) (s : State) : Except Stop State :=
  match n with
  | 1 => do
      let t ← transmitCommand s s.devIdx .cmdEndApi
      transmitCommand t t.devIdx .cmdBeginApi
  | 2 => transmitCommand s s.devIdx .cmdBeginApi
  | 3 => transmitCommand { s with hbEn := true } s.devIdx .cmdHeartbeat
  | 4 => transmitCommand s s.devIdx .cmdEnableMpe
  | 5 => transmitCommand s s.devIdx .cmdHeartbeat
  | 6 => do
      let t ← transmit s s.devIdx s.params.fwImage0 none
      let u ← transmit t t.devIdx t.params.fwImage1 none
      .ok { u with pc := Config.fwCounterAfterUpload }
  | 7 => transmitCommand s s.devIdx .cmdSaveDefault
  | 8 => .ok ({ s with readyF := true, sstate := .ready }.emit .ready)
  | _ => .error (.stuck .handshakeOverrun)

/-- `runStep(n)` (R320). -/
def runStep (n : BitVec 4) (s : State) : Except Stop State := do
  let t ← stepActions n.toNat { s with stepReg := n }
  .ok (if n.toNat ≤ 7 then awaitAck t else t)

/-! ### Acknowledgements (R309 to R313) -/

/-- `stall()` (R310). -/
def stall (s : State) : State := { s with pc := s.apc + 1 }.emit (.stuck s.apc)

/-- The counter update of an ack: a stall when it repeats `APC` (R310), progress otherwise (R311). -/
def ackCounter (c : BitVec 10) (s : State) : State :=
  if c = s.apc then stall s else { s with apc := c }

/-- After the counters: one queued packet is sent (R312), or the pending continuation fires (R313). -/
def ackContinue (s : State) : Except Stop State :=
  if s.queue ≠ [] then sendQueuedHead s
  else if s.pending then runStep (s.stepReg + 1) { s with pending := false }
  else .ok s

/-- The arrival of a packet-ack with reported counter `c` (R309); ignored in `CLOSED`. -/
def acknowledge (c : BitVec 10) (s : State) : Except Stop State :=
  if s.sstate = .closed then .ok s else ackContinue (ackCounter c s)

/-! ### The requests -/

/-- `S_CONFIG devIdx, maxPkt` (R318). -/
def execSConfig (devIdx : BitVec 7) (maxPkt : BitVec 16) (s : State) :
    Host.Outcome State Fault Refusal :=
  answer s
    (if s.sstate = .closed then .ok ({ s with devIdx := devIdx, maxPkt := maxPkt }, .none)
     else .error (.raise .badState))

/-- `S_OPEN` (R319). -/
def execSOpen (s : State) : Host.Outcome State Fault Refusal :=
  answer s
    (if s.sstate = .closed then do
       let t ← runStep 1 { s with sstate := .opening }
       .ok (t, .none)
     else .error (.raise .badState))

/-- The rejection of a pending wait on close (R331, R368). -/
def abortWait (s : State) : State :=
  if s.pending then { s with pending := false }.emit .aborted else s

/-- `S_CLOSE` (R331): `PC`, `APC`, `STEP`, `DEVIDX` and `MAXPKT` stay. -/
def execSClose (s : State) : Host.Outcome State Fault Refusal :=
  answer s
    (.ok (if s.sstate = .closed then s
          else { abortWait s with hbEn := false, readyF := false, queue := [], sstate := .closed },
      .none))

/-- `S_ACK c` (R309). -/
def execSAck (c : BitVec 10) (s : State) : Host.Outcome State Fault Refusal :=
  answer s do
    let t ← acknowledge c s
    .ok (t, .none)

/-- The commit of a frame's packets (R340): appended to the queue, and the head sent if the queue was
empty. -/
def commitFrame (pk : List (List Byte)) (s : State) : Except Stop State :=
  if s.params.qcap < s.queue.length + pk.length then .error (.raise .queueFull)
  else
    let t : State := { s with queue := s.queue ++ pk }
    if s.queue = [] then sendQueuedHead t else .ok t

/-- `S_FRAME newData, oldData, baseOffset, length` (R340): dropped outside `READY` or while the last
delta is unacknowledged, before U2 runs (R341); numbered from `zext16(PC)` (R342). -/
def execSFrame (newData oldData : List Byte) (baseOffset length : BitVec 16) (s : State) :
    Host.Outcome State Fault Refusal :=
  answer s
    (if s.sstate ≠ .ready ∨ s.lastAcked = false then .ok (s, .dropped)
     else do
       let pk ← computeDelta s.params newData oldData baseOffset length (s.pc.setWidth 16) s.maxPkt
       let t ← commitFrame pk s
       .ok (t, .committed))

/-- `S_HB_TICK` (R335). -/
def execSHbTick (s : State) : Host.Outcome State Fault Refusal :=
  answer s
    (if s.hbEn then do
       let t ← transmitCommand s s.devIdx .cmdHeartbeat
       .ok (t, .none)
     else .ok (s, .none))

/-- `S_REQ_TOPO` (R336): always to device index 0. -/
def execSReqTopo (s : State) : Host.Outcome State Fault Refusal :=
  answer s do
    let t ← transmitCommand s 0 .cmdReqTopology
    .ok (t, .none)

/-- `S_STATUS` (R337). -/
def execSStatus (s : State) : Host.Outcome State Fault Refusal :=
  answer s (.ok (s, .status s.status0 s.status1))

/-! ### The command payloads, each transmitted alone (R111, R301; log 1) -/

/-- `CMD_END_API` (R111): transmitted to `DEVIDX` with its checksum, as step 1 does (R321). -/
def execCmdEndApi (s : State) : Host.Outcome State Fault Refusal :=
  finish s (transmitCommand s s.devIdx .cmdEndApi)

/-- `CMD_BEGIN_API` (R111): transmitted to `DEVIDX` with its checksum, as steps 1 and 2 do. -/
def execCmdBeginApi (s : State) : Host.Outcome State Fault Refusal :=
  finish s (transmitCommand s s.devIdx .cmdBeginApi)

/-- `CMD_HEARTBEAT` (R111): transmitted to `DEVIDX` with its checksum, as steps 3 and 5 do. -/
def execCmdHeartbeat (s : State) : Host.Outcome State Fault Refusal :=
  finish s (transmitCommand s s.devIdx .cmdHeartbeat)

/-- `CMD_ENABLE_MPE` (R111): transmitted to `DEVIDX` with its checksum, as step 4 does (R324). -/
def execCmdEnableMpe (s : State) : Host.Outcome State Fault Refusal :=
  finish s (transmitCommand s s.devIdx .cmdEnableMpe)

/-- `CMD_SAVE_DEFAULT` (R111): transmitted to `DEVIDX` with its checksum, as step 7 does (R327). -/
def execCmdSaveDefault (s : State) : Host.Outcome State Fault Refusal :=
  finish s (transmitCommand s s.devIdx .cmdSaveDefault)

/-- `CMD_REQ_TOPOLOGY` (R111): transmitted to device index 0 with its checksum (R336). -/
def execCmdReqTopology (s : State) : Host.Outcome State Fault Refusal :=
  finish s (transmitCommand s 0 .cmdReqTopology)

end Sys2Proof.Machine
end

