-- ==== Sys2Proof/WellFormed.lean ====
section
/-! DEFINITION. Well-formedness: of an instruction (what its encoding admits), of the `SCHEMAS`
configuration (R200, R203, R204) and of the parameters (R10). -/

namespace Sys2Proof

/-- A byte list that the 32-bit length field of the model's request encoding can carry (log 3). -/
def dataFits (data : List Byte) : Bool := decide (data.length < 2 ^ 32)

/-- What an encoding admits. A `LIT` carries at least one byte (R105); a byte-list operand of a
request fits the model's length field (log 3). Every other operand is in range by its type. -/
def Instr.wellFormed : Instr → Bool
  | .deltaHdr _ => true
  | .eop => true
  | .eoc => true
  | .skipf _ => true
  | .skipm _ => true
  | .lit vs => !vs.isEmpty
  | .valf _ _ => true
  | .vall _ => true
  | .valm _ _ => true
  | .msgTopology _ => true
  | .msgAck _ => true
  | .msgTouchMove _ => true
  | .msgTouchStartV _ => true
  | .msgTouchEndV _ => true
  | .cmdEndApi => true
  | .cmdBeginApi => true
  | .cmdHeartbeat => true
  | .cmdEnableMpe => true
  | .cmdSaveDefault => true
  | .cmdReqTopology => true
  | .wNew _ => true
  | .wBits _ _ _ => true
  | .wSize _ => true
  | .wHascap _ _ _ => true
  | .wSnap _ => true
  | .wRestore _ _ _ => true
  | .wClone _ _ => true
  | .wRead _ => true
  | .rBits data _ _ => dataFits data
  | .rType data _ => dataFits data
  | .rDispatch data => dataFits data
  | .rDecode data _ _ => dataFits data
  | .dCompute newData oldData _ _ _ _ => dataFits newData && dataFits oldData
  | .sConfig _ _ => true
  | .sOpen => true
  | .sClose => true
  | .sAck _ => true
  | .sFrame newData oldData _ _ => dataFits newData && dataFits oldData
  | .sHbTick => true
  | .sReqTopo => true
  | .sStatus => true

/-! ### Schemas (R200) -/

/-- The number of stream bits a schema's fields occupy: a not-present field occupies none. -/
def Schema.bitWidth : Schema → Nat
  | .nil => 0
  | .scalar _ w rest => w + rest.bitWidth
  | .composite _ _ nested rest => nested.bitWidth + rest.bitWidth
  | .absent _ rest => rest.bitWidth

/-- The names of a schema's own fields (not of the fields inside a composite). -/
def Schema.names : Schema → List FieldName
  | .nil => []
  | .scalar n _ rest => n :: rest.names
  | .composite n _ _ rest => n :: rest.names
  | .absent n rest => n :: rest.names

/-- Whether a schema has a field of its own with this name whose value is a number: a scalar, or a
not-present field, whose value is 0 (R201). A composite's value is a record, and no count (log 20). -/
def Schema.hasCount (n : FieldName) : Schema → Bool
  | .nil => false
  | .scalar m _ rest => decide (m = n) || rest.hasCount n
  | .composite _ _ _ rest => rest.hasCount n
  | .absent m rest => decide (m = n) || rest.hasCount n

/-- R200: names unique within a schema, scalar widths in `1..32`, and a composite's declared width
equal to the sum of its nested widths. -/
def Schema.wellFormed : Schema → Bool
  | .nil => true
  | .scalar n w rest => decide (1 ≤ w) && decide (w ≤ 32) && decide (n ∉ rest.names) && rest.wellFormed
  | .composite n w nested rest =>
      decide (w = nested.bitWidth) && decide (n ∉ rest.names) && nested.wellFormed && rest.wellFormed
  | .absent n rest => decide (n ∉ rest.names) && rest.wellFormed

/-- R203: a message schema starts with its own 7-bit tag field. The spec gives that field no name
(91_not_in_source.md N6), so it may have any. -/
def Schema.startsWithTag : Schema → Bool
  | .scalar _ w _ => decide (w = 7)
  | _ => false

/-- An entry that is unconfigured or meets a check. -/
def optionAll (check : Schema → Bool) : Option Schema → Bool
  | none => true
  | some sc => check sc

/-- R200, R203: what a touch message's entry must satisfy. -/
def messageWellFormed : Option Schema → Bool := optionAll fun m => m.wellFormed && m.startsWithTag

/-- R200, R203, R204: what the three entries of the topology message must satisfy. -/
def Schemas.topologyWellFormed (c : Schemas) : Bool :=
  optionAll (fun h => h.wellFormed && h.startsWithTag && h.hasCount .deviceCount
      && h.hasCount .connectionCount) c.topologyHeader
  && optionAll Schema.wellFormed c.topologyDeviceInfo
  && optionAll Schema.wellFormed c.topologyConnectionInfo

/-- Whether the entries that decode a message of tag `t` are well-formed. A packet-ack and an unknown
tag are decoded by no entry (R203, R205), so nothing is asked for them (log 20). -/
def Schemas.wellFormedFor (c : Schemas) (t : BitVec 7) : Bool :=
  if t = 0x01#7 then c.topologyWellFormed
  else if t = 0x11#7 then messageWellFormed c.touchMove
  else if t = 0x13#7 then messageWellFormed c.touchStartV
  else if t = 0x15#7 then messageWellFormed c.touchEndV
  else true

/-- A `SCHEMAS` configuration whose every entry is well-formed (R200, R203, R204). -/
def Schemas.wellFormed (c : Schemas) : Bool :=
  c.topologyWellFormed && messageWellFormed c.touchMove && messageWellFormed c.touchStartV
    && messageWellFormed c.touchEndV

/-! ### Parameters (R10) -/

/-- R12: bit 7 of every byte is 0. -/
def sevenBitClean (bytes : List Byte) : Bool := bytes.all fun b => decide (b.toNat < 128)

/-- R10's ranges for the parameters. `QLEN` is a 16-bit status field (R52), so `QCAP` is below 2^16. -/
def Params.wellFormed (p : Params) : Bool :=
  decide (8 ≤ p.wcap) && decide (1 ≤ p.nw)
  && (decide (p.readBoundFactor = 8) || decide (p.readBoundFactor = 7))
  && decide (1 ≤ p.qcap) && decide (p.qcap < 2 ^ 16)
  && p.schemas.wellFormed && sevenBitClean p.fwImage0 && sevenBitClean p.fwImage1

end Sys2Proof
end

