-- ==== Sys2Proof/Machine/MessageDecode.lean ====
section
/-! DEFINITION. Message schemas and the inbound dispatch loop of 41_message_decode.md. -/

namespace Sys2Proof.Machine

/-! ### Schema decoding (R201, R204) -/

/-- `decode(S, data, p)` until it fails: the fields and the bits consumed, or `none` where a read passes
the bound or a composite consumes nothing (R201). -/
def decodeFields (factor : Nat) (data : List Byte) : Schema → Nat → Option (Record × Nat)
  | .nil, _ => some (.nil, 0)
  | .scalar name w rest, p =>
      match readBits factor data p w with
      | none => none
      | some v =>
          match decodeFields factor data rest (p + w) with
          | none => none
          | some (r, n) => some (.num name v r, w + n)
  | .composite name _ nested rest, p =>
      match decodeFields factor data nested p with
      | none => none
      | some (g, n) =>
          if n = 0 then none
          else
            match decodeFields factor data rest (p + n) with
            | none => none
            | some (r, m) => some (.sub name g r, n + m)
  | .absent name rest, p =>
      match decodeFields factor data rest p with
      | none => none
      | some (r, n) => some (.num name 0 r, n)

/-- `decode(S, data, p)` (R201); an unconfigured schema decodes to no fields and 0 bits (R203). -/
def decodeSchema (factor : Nat) (data : List Byte) (sc : Option Schema) (p : Nat) : Record × Nat :=
  match sc with
  | none => (.nil, 0)
  | some sc => (decodeFields factor data sc p).getD (.nil, 0)

/-- The value of a field of a record, 0 where it has none of that name. -/
def Record.field (name : FieldName) : Record → BitVec 32
  | .nil => 0
  | .num n v rest => if n = name then v else rest.field name
  | .sub _ _ rest => rest.field name

/-- `count` groups of one schema back to back from bit `p` (R204's loops); `none` where one consumes
nothing. DESIGN CHOICE (log 22): a count of 0 decodes no group (R204) even where the group's schema is
left unconfigured, so the message is decoded. -/
def decodeGroup (factor : Nat) (data : List Byte) (sc : Option Schema) :
    Nat → Nat → Option (List Record × Nat)
  | 0, _ => some ([], 0)
  | count + 1, p =>
      let (d, m) := decodeSchema factor data sc p
      if m = 0 then none
      else
        match decodeGroup factor data sc count (p + m) with
        | none => none
        | some (ds, n) => some (d :: ds, m + n)

/-- `decodeTopology(data, p)` (R204). -/
def decodeTopology (factor : Nat) (c : Schemas) (data : List Byte) (p : Nat) : Decoded × Nat :=
  let (h, n) := decodeSchema factor data c.topologyHeader p
  if n = 0 then (.fields .nil, 0)
  else
    match decodeGroup factor data c.topologyDeviceInfo (h.field .deviceCount).toNat (p + n) with
    | none => (.fields .nil, 0)
    | some (devs, m) =>
        match decodeGroup factor data c.topologyConnectionInfo (h.field .connectionCount).toNat
            (p + n + m) with
        | none => (.fields .nil, 0)
        | some (cons, l) => (.topology h devs cons, n + m + l)

/-- The packet-ack schema `[tag: 7 bits, counter: 10 bits]` (R205). -/
def ackSchema : Schema := .scalar .tag 7 (.scalar .counter 10 .nil)

/-- `decode` of a fixed message schema, as `decodeMessage` returns it. -/
def decodeFixed (factor : Nat) (data : List Byte) (sc : Option Schema) (p : Nat) : Decoded × Nat :=
  let (r, n) := decodeSchema factor data sc p
  (.fields r, n)

/-- `decodeMessage(t, data, p)` (R203). -/
def decodeMessage (pm : Params) (t : BitVec 7) (data : List Byte) (p : Nat) : Decoded × Nat :=
  if t = 0x02#7 then decodeFixed pm.readBoundFactor data (some ackSchema) p
  else if t = 0x01#7 then decodeTopology pm.readBoundFactor pm.schemas data p
  else if t = 0x11#7 then decodeFixed pm.readBoundFactor data pm.schemas.touchMove p
  else if t = 0x13#7 then decodeFixed pm.readBoundFactor data pm.schemas.touchStartV p
  else if t = 0x15#7 then decodeFixed pm.readBoundFactor data pm.schemas.touchEndV p
  else (.fields .nil, 0)

/-! ### Delivery (R209, R210) -/

/-- The counter an ack message reports (R205). -/
def Decoded.ackCounter : Decoded → BitVec 10
  | .fields r => (r.field .counter).setWidth 10
  | .topology _ _ _ => 0

/-- `deliver(t, f)`: an ack runs U3's acknowledgement handling (R210), any other message is put on the
event interface (R209). -/
def deliver (t : BitVec 7) (f : Decoded) (s : State) : Except Stop State :=
  if t = 0x02#7 then acknowledge f.ackCounter s else .ok (s.emit (.msg t f))

/-- The known tags (R108). -/
def knownTag (t : BitVec 7) : Bool :=
  decide (t = 0x01#7) || decide (t = 0x02#7) || decide (t = 0x11#7) || decide (t = 0x13#7)
    || decide (t = 0x15#7)

/-! ### The dispatch loop (R206, R207) -/

/-- R206's loop from stream bit `p`. The first argument bounds it: a delivered message consumes at least
one bit of the `F·len(data)` that a read may reach. A message whose entries of `SCHEMAS` are ill-formed
is refused (R200; log 20). -/
def dispatchLoop (data : List Byte) :
    Nat → Nat → State → Except Stop (State × List (BitVec 7 × Decoded))
  | 0, _, s => .ok (s, [])
  | fuel + 1, p, s =>
      match readBits s.params.readBoundFactor data p 7 with
      | none => .ok (s, [])
      | some v =>
          let t : BitVec 7 := v.setWidth 7
          if knownTag t then
            if s.params.schemas.wellFormedFor t then
              let (f, n) := decodeMessage s.params t data p
              if n = 0 then .ok (s, [])
              else do
                let s' ← deliver t f s
                let (s'', rest) ← dispatchLoop data fuel (p + n) s'
                .ok (s'', (t, f) :: rest)
            else .error (.refuse .illFormedSchemas)
          else .ok (s, [])

/-- The request `R_DISPATCH` of a buffer (R206), atomic: a fault raised while an ack is handled undoes all
of it (R364). -/
def dispatch (data : List Byte) (s : State) : Host.Outcome State Fault Refusal :=
  answer s do
    let (t, ms) ← dispatchLoop data (s.params.readBoundFactor * data.length + 1)
      Config.inboundStartBit s
    .ok (t, .messages ms)

/-- `R_DISPATCH data` (R206). -/
def execRDispatch (data : List Byte) (s : State) : Host.Outcome State Fault Refusal := dispatch data s

/-- `R_DECODE data, p, tag` (R202). A message whose entries of `SCHEMAS` are ill-formed is refused (R200;
log 20). -/
def execRDecode (data : List Byte) (p : BitVec 32) (tag : BitVec 7) (s : State) :
    Host.Outcome State Fault Refusal :=
  if s.params.schemas.wellFormedFor tag then
    let (f, n) := decodeMessage s.params tag data p.toNat
    answer s (.ok (s, .decoded f n))
  else .refused .illFormedSchemas

/-! ### The inbound messages, each as the request that carries it (R372; log 1) -/

/-- The inbound buffer that holds these bits as its messages: the 39 bits before them, which the CORE does
not interpret (R107), are 0, and the last byte is padded (R101). -/
def inboundBuffer (bits : List Bool) : List Byte :=
  (septets (List.replicate Config.inboundStartBit false ++ bits)).map (·.setWidth 8)

/-- `MSG_TOPOLOGY` (R204, R209): the dispatch of the buffer that holds it. -/
def execMsgTopology (body : List Septet) (s : State) : Host.Outcome State Fault Refusal :=
  dispatch (inboundBuffer (encode (.msgTopology body))) s

/-- `MSG_ACK` (R205, R210): the dispatch of the buffer that holds it. -/
def execMsgAck (counter : BitVec 10) (s : State) : Host.Outcome State Fault Refusal :=
  dispatch (inboundBuffer (encode (.msgAck counter))) s

/-- `MSG_TOUCH_MOVE` (R203, R209): the dispatch of the buffer that holds it. -/
def execMsgTouchMove (body : List Septet) (s : State) : Host.Outcome State Fault Refusal :=
  dispatch (inboundBuffer (encode (.msgTouchMove body))) s

/-- `MSG_TOUCH_START_V` (R203, R209): the dispatch of the buffer that holds it. -/
def execMsgTouchStartV (body : List Septet) (s : State) : Host.Outcome State Fault Refusal :=
  dispatch (inboundBuffer (encode (.msgTouchStartV body))) s

/-- `MSG_TOUCH_END_V` (R203, R209): the dispatch of the buffer that holds it. -/
def execMsgTouchEndV (body : List Septet) (s : State) : Host.Outcome State Fault Refusal :=
  dispatch (inboundBuffer (encode (.msgTouchEndV body))) s

end Sys2Proof.Machine
end

