-- ==== Sys2Proof/Machine/Dispatch.lean ====
section
/-! DEFINITION. One arm per row of spec/opcode_table.json, each a direct call of its meaning. -/

namespace Sys2Proof.Machine

def exec (i : Instr) (s : State) : Host.Outcome State Fault Refusal :=
  match i with
  | .deltaHdr seq => Sys2Proof.Machine.execDeltaHdr seq s
  | .eop => Sys2Proof.Machine.execEop s
  | .eoc => Sys2Proof.Machine.execEoc s
  | .skipf n => Sys2Proof.Machine.execSkipf n s
  | .skipm n => Sys2Proof.Machine.execSkipm n s
  | .lit vs => Sys2Proof.Machine.execLit vs s
  | .valf n v => Sys2Proof.Machine.execValf n v s
  | .vall n => Sys2Proof.Machine.execVall n s
  | .valm n v => Sys2Proof.Machine.execValm n v s
  | .msgTopology body => Sys2Proof.Machine.execMsgTopology body s
  | .msgAck counter => Sys2Proof.Machine.execMsgAck counter s
  | .msgTouchMove body => Sys2Proof.Machine.execMsgTouchMove body s
  | .msgTouchStartV body => Sys2Proof.Machine.execMsgTouchStartV body s
  | .msgTouchEndV body => Sys2Proof.Machine.execMsgTouchEndV body s
  | .cmdEndApi => Sys2Proof.Machine.execCmdEndApi s
  | .cmdBeginApi => Sys2Proof.Machine.execCmdBeginApi s
  | .cmdHeartbeat => Sys2Proof.Machine.execCmdHeartbeat s
  | .cmdEnableMpe => Sys2Proof.Machine.execCmdEnableMpe s
  | .cmdSaveDefault => Sys2Proof.Machine.execCmdSaveDefault s
  | .cmdReqTopology => Sys2Proof.Machine.execCmdReqTopology s
  | .wNew h => Sys2Proof.Machine.execWNew h s
  | .wBits h v w => Sys2Proof.Machine.execWBits h v w s
  | .wSize h => Sys2Proof.Machine.execWSize h s
  | .wHascap h n maxBytes => Sys2Proof.Machine.execWHascap h n maxBytes s
  | .wSnap h => Sys2Proof.Machine.execWSnap h s
  | .wRestore h nb nbit => Sys2Proof.Machine.execWRestore h nb nbit s
  | .wClone hd hs => Sys2Proof.Machine.execWClone hd hs s
  | .wRead h => Sys2Proof.Machine.execWRead h s
  | .rBits data p w => Sys2Proof.Machine.execRBits data p w s
  | .rType data p => Sys2Proof.Machine.execRType data p s
  | .rDispatch data => Sys2Proof.Machine.execRDispatch data s
  | .rDecode data p tag => Sys2Proof.Machine.execRDecode data p tag s
  | .dCompute newData oldData baseOffset length startIndex maxBytes => Sys2Proof.Machine.execDCompute newData oldData baseOffset length startIndex maxBytes s
  | .sConfig devIdx maxPkt => Sys2Proof.Machine.execSConfig devIdx maxPkt s
  | .sOpen => Sys2Proof.Machine.execSOpen s
  | .sClose => Sys2Proof.Machine.execSClose s
  | .sAck counter => Sys2Proof.Machine.execSAck counter s
  | .sFrame newData oldData baseOffset length => Sys2Proof.Machine.execSFrame newData oldData baseOffset length s
  | .sHbTick => Sys2Proof.Machine.execSHbTick s
  | .sReqTopo => Sys2Proof.Machine.execSReqTopo s
  | .sStatus => Sys2Proof.Machine.execSStatus s

end Sys2Proof.Machine
end

