-- ==== Sys2Proof/Machine/Fetch.lean ====
section
/-! DEFINITION. Taking what waits at an input and running it. -/

namespace Sys2Proof.Machine

/-- A packet between two of its commands: while the device is inside it, the bits not read yet go back
in front; after a terminator they are padding and are dropped (R280). -/
def continuePacket (rest : List Bool) (t : State) : State :=
  if t.dev.inPacket then { t with inputs := .packet rest :: t.inputs } else t

/-- The outcome of a command of a packet, with the rest of the packet put back (R280). -/
def afterCommand (rest : List Bool) :
    Host.Outcome State Fault Refusal → Host.Outcome State Fault Refusal
  | .next t => .next (continuePacket rest t)
  | .fault f => .fault f
  | .refused r => .refused r

/-- The layer a packet's next bits are read in: its header first, then its commands (R102). -/
def packetLayer (d : Device) : Layer := if d.inPacket then .command else .header

/-- One request (R112): a reserved opcode raises `E_ILLEGAL_OP` before any operand is looked at (R114,
R370). -/
def runRequest (bits : List Bool) (s : State) : Host.Outcome State Fault Refusal :=
  match decode .request bits with
  | .ok (i, _) => exec i s
  | .error .reservedOpcode => .next (s.raise .illegalOp)
  | .error e => .refused (.undecodable e)

/-- The next unit of a change-list packet at the device (R280). -/
def runPacket (bits : List Bool) (s : State) : Host.Outcome State Fault Refusal :=
  match decode (packetLayer s.dev) bits with
  | .ok (i, rest) => afterCommand rest (exec i s)
  | .error .truncated => .fault .packetTruncated
  | .error e => .refused (.undecodable e)

/-- One command payload, which U3 transmits (R111; log 1). -/
def runPayload (bits : List Bool) (s : State) : Host.Outcome State Fault Refusal :=
  match decode .payload bits with
  | .ok (i, _) => exec i s
  | .error e => .refused (.undecodable e)

/-- With nothing at the inputs the machine stays as it is: a stimulus the host does not deliver as a
request does not exist for the CORE (R372). Only a payload that `State.withFetchWord` placed is sent. -/
def idle (s : State) : Host.Outcome State Fault Refusal :=
  match s.outbound with
  | none => .next s
  | some bits => runPayload bits { s with outbound := none }

/-- The first input, run to its end on the state whose inputs are the rest (R84). -/
def takeInput (s : State) : Host.Outcome State Fault Refusal :=
  match s.inputs with
  | [] => idle s
  | .reset :: rest => .next ({ s with inputs := rest }.coreReset)
  | .request bits :: rest => runRequest bits { s with inputs := rest }
  | .packet bits :: rest => runPacket bits { s with inputs := rest }

/-- The inputs with a stream of a layer in front: a packet's bits go to the device, a request to the CORE,
and a message to the CORE inside the `R_DISPATCH` request that carries it (R372). A payload is no input,
and nothing else may wait where one is to be sent. -/
def inputsWith : Layer → List Bool → List Input → List Input
  | .header, bits, waiting => .packet bits :: waiting
  | .command, bits, waiting => .packet bits :: waiting
  | .message, bits, waiting => .request (encode (.rDispatch (inboundBuffer bits))) :: waiting
  | .payload, _, _ => []
  | .request, bits, waiting => .request bits :: waiting

/-- The payload to send, which a stream of the payload layer becomes. -/
def outboundWith : Layer → List Bool → Option (List Bool) → Option (List Bool)
  | .header, _, o => o
  | .command, _, o => o
  | .message, _, o => o
  | .payload, bits, _ => some bits
  | .request, _, o => o

/-- The device ready to read a command next (for `.command`), or a header next (for `.header`). -/
def deviceFor : Layer → Device → Device
  | .header, d => { d with inPacket := false }
  | .command, d => { d with inPacket := true }
  | .message, d => d
  | .payload, d => d
  | .request, d => d

/-- A stream of a layer as the next thing the machine runs (log 1). -/
def State.deliverFirst (s : State) (l : Layer) (bits : List Bool) : State :=
  { s with
    inputs := inputsWith l bits s.inputs
    outbound := outboundWith l bits s.outbound
    dev := deviceFor l s.dev }

end Sys2Proof.Machine
end

