-- ==== Sys2Proof/Machine/Step.lean ====
section
/-! DEFINITION. One step of the machine, and where the host places an instruction's bits. -/

namespace Sys2Proof.Machine

/-- One step: the first input is taken and run to its end (R8, R81, R84). -/
def step (s : State) : Host.Outcome State Fault Refusal := takeInput s

/-- The state with a table word as the next thing the machine runs, in the layer `tableLayer` reads it in
(log 7). -/
def State.withFetchWord (s : State) (nbits w : Nat) : State :=
  s.deliverFirst (tableLayer nbits w) (tableBits nbits w)

end Sys2Proof.Machine
end

