-- ==== Sys2Proof/Safety.lean ====
section
/-! DEFINITION. What counts as a good state and a safe run, in the terms the statements use. -/

namespace Sys2Proof.Machine

/-- R33 for one writer of capacity `wcap`: (a) every byte below 128; (b) every stream bit at or past the
cursor 0, and no byte held past the cursor's; (c) `size` at most `WCAP`; and `WNBIT` in 0..6 (R32). -/
def Writer.wf (wcap : Nat) (wr : Writer) : Bool :=
  sevenBitClean wr.buf
  && decide (wr.buf.length = wr.size)
  && (List.range 7).all (fun k => decide (k < wr.nbit.toNat) || !bitAt wr.buf (7 * wr.nb + k))
  && decide (wr.size ≤ wcap)
  && decide (wr.nbit.toNat ≤ 6)

/-- R343 (a) to (d), with the range of `STEP` that R41 and R320 leave in each state. -/
def State.sessionWf (s : State) : Bool :=
  match s.sstate with
  | .closed => !s.pending && !s.readyF && !s.hbEn && s.queue.isEmpty && decide (s.stepReg.toNat ≤ 8)
  | .opening =>
      s.pending && !s.readyF && (s.hbEn == decide (3 ≤ s.stepReg.toNat)) && s.queue.isEmpty
        && decide (1 ≤ s.stepReg.toNat) && decide (s.stepReg.toNat ≤ 7)
  | .ready => !s.pending && s.readyF && s.hbEn && decide (s.stepReg.toNat = 8)

/-- R48: at most `QCAP` packets, each 7-bit-clean and at most `WCAP` bytes. -/
def State.queueWf (s : State) : Bool :=
  decide (s.queue.length ≤ s.params.qcap)
  && s.queue.all fun p => sevenBitClean p && decide (p.length ≤ s.params.wcap)

/-- Whether an event puts only 7-bit-clean bytes on the wire (R15, R109). -/
def Event.clean : Event → Bool
  | .tx _ payload _ => sevenBitClean payload
  | .stuck _ => true
  | .ready => true
  | .aborted => true
  | .msg _ _ => true

/-- The good states: the parameters in R10's ranges, R33 for every one of the `NW` writers, R343's laws,
R48, `FAULT` a code of R360, the display in canonical form, and only 7-bit-clean bytes sent so far. -/
def State.wf (s : State) : Bool :=
  s.params.wellFormed
  && decide (s.writers.length = s.params.nw)
  && s.writers.all (Writer.wf s.params.wcap)
  && s.sessionWf
  && s.queueWf
  && decide (s.fault.toNat ≤ 0x0A)
  && s.dev.display.wf
  && s.events.all Event.clean

/-- Whether an event is a transmission (R113). -/
def Event.isTx : Event → Bool
  | .tx _ _ _ => true
  | .stuck _ => false
  | .ready => false
  | .aborted => false
  | .msg _ _ => false

/-- The transmissions among the events so far, in order. -/
def State.sent (s : State) : List Event := s.events.filter Event.isTx

/-- Instructions run one after another, stopping at the first fault or refusal (R84). -/
def execAll : List Instr → State → Host.Outcome State Fault Refusal
  | [], s => .next s
  | i :: is, s =>
      match exec i s with
      | .next t => execAll is t
      | .fault f => .fault f
      | .refused r => .refused r

/-- A run of `k` steps that stops at no fault and no refusal. -/
def State.runsSafely (s : State) (k : Nat) : Prop :=
  ∃ t, Host.Core.run Sys2Proof.core k s = .next t

end Sys2Proof.Machine
end

