-- ==== Sys2Proof/Certificates/Slice0/Obligations.lean ====
section
/-! DEFINITION. The statements for the provers. -/

open Sys2Proof Sys2Proof.Machine

/-! ## Encodings, fetch and the whole machine -/

/-- Decode and encode agree: what the encoder writes for a well-formed instruction is decoded back to it,
with nothing left over; and in a packet or on the request interface whatever follows is left unread. -/
def Obligations.EncodedInstructionDecodesBack : Prop :=
  ∀ (i : Instr), i.wellFormed = true →
    decode i.layer (encode i) = .ok (i, []) ∧
      (i.layer = .header ∨ i.layer = .command ∨ i.layer = .request →
        ∀ rest : List Bool, decode i.layer (encode i ++ rest) = .ok (i, rest))

/-- Words written out from the spec's encodings decode to the instructions they stand for: `DELTA_HDR`
with sequence number 1 and `SKIPM 113` (T3's packet), `LIT 0x01` with continuation 0, `VALM 64, 0xFF`
(T2), a packet-ack with counter 5 (T9), `CMD_ENABLE_MPE`, and the 5-bit opcode of `S_STATUS`. -/
def Obligations.WordsOfTheSpecDecode : Prop :=
  decode .header (bitsOf 23 0b00000000000000010000010) = .ok (.deltaHdr 1, []) ∧
  decode .command (bitsOf 11 0b01110001011) = .ok (.skipm 113, []) ∧
  decode .command (bitsOf 12 0b000000001100) = .ok (.lit [0x01], []) ∧
  decode .command (bitsOf 19 0b1111111101000000111) = .ok (.valm 64 0xFF, []) ∧
  decode .message (bitsOf 17 0b00000001010000010) = .ok (.msgAck 5, []) ∧
  decode .payload (byteBits [0x10, 0x02]) = .ok (.cmdEnableMpe, []) ∧
  decode .request (bitsOf 5 0b10111) = .ok (.sStatus, [])

/-- A step runs the decoded instruction: the first input is taken off, and if its bits decode to `i` the
step is `exec i` on what is left; after a command of a packet the bits not read yet go back in front
while the device is inside the packet. An inbound message is run by the `R_DISPATCH` request that carries
it. That a command payload can be sent when nothing waits at the inputs is the model's choice (log 1). -/
def Obligations.StepRunsTheDecodedInstruction : Prop :=
  ∀ (s : State) (i : Instr) (bits left : List Bool) (rest : List Input),
    (s.inputs = .request bits :: rest → decode .request bits = .ok (i, left) →
      step s = exec i { s with inputs := rest }) ∧
    (s.inputs = .packet bits :: rest →
      decode (if s.dev.inPacket then .command else .header) bits = .ok (i, left) →
      step s =
        match exec i { s with inputs := rest } with
        | .next t =>
            .next (if t.dev.inPacket then { t with inputs := .packet left :: t.inputs } else t)
        | .fault f => .fault f
        | .refused r => .refused r) ∧
    (i.layer = .message → (inboundBuffer (encode i)).length < 2 ^ 32 →
      s.inputs = .request (encode (.rDispatch (inboundBuffer (encode i)))) :: rest →
      step s = exec i { s with inputs := rest }) ∧
    (s.inputs = [] → s.outbound = some bits → decode .payload bits = .ok (i, left) →
      step s = exec i { s with outbound := none })

/-- R372: the CORE changes by nothing but its requests and reset. Where a step takes neither, and no
payload was placed for U3 to send (log 1), it changes at most the device and what waits; with nothing at
the inputs it changes nothing; and no step places a payload. -/
def Obligations.OnlyRequestsAndResetChangeTheCore : Prop :=
  ∀ s t : State, step s = .next t → s.outbound = none →
    t.outbound = none ∧
    (s.inputs = [] → t = s) ∧
    ((∀ bits, s.inputs.head? ≠ some (.request bits)) → s.inputs.head? ≠ some .reset →
      t = { s with dev := t.dev, freeCount := t.freeCount, inputs := t.inputs })

/-- R114: a reserved opcode raises `E_ILLEGAL_OP`, writes no other state and emits no event; a writer
handle at or past `NW` raises `E_ARG`. -/
def Obligations.ReservedOpcodesAndBadHandlesAreRefused : Prop :=
  (∀ (s : State) (op : Nat) (bits : List Bool) (rest : List Input),
    s.inputs = .request (bitsOf 5 op ++ bits) :: rest →
    op = 0x00 ∨ op = 0x0E ∨ op = 0x0F ∨ (0x18 ≤ op ∧ op ≤ 0x1F) →
    step s = .next { s with
      inputs := rest
      fault := if s.fault = 0 then 0x01 else s.fault
      response := { status := 0x01, result := .none } }) ∧
  (∀ (s : State) (h g : BitVec 8) (v : BitVec 32) (w : BitVec 6) (n m : BitVec 16)
      (nb : BitVec 32) (nbit : BitVec 3) (i : Instr),
    s.params.nw ≤ h.toNat →
    i ∈ [.wNew h, .wBits h v w, .wSize h, .wHascap h n m, .wSnap h, .wRestore h nb nbit,
      .wClone h g, .wClone g h, .wRead h] →
    exec i s = .next { s with
      fault := if s.fault = 0 then 0x06 else s.fault
      response := { status := 0x06, result := .none } })

/-- R14: the cost of each command, the number of stream bits its encoding occupies. -/
def Obligations.CommandCostsAreTheFormatLengths : Prop :=
  ∀ (n4 : BitVec 4) (n8 : BitVec 8) (v : Byte) (vs : List Byte),
    cost .eop = 3 ∧ cost .eoc = 3 ∧ cost (.skipf n4) = 7 ∧ cost (.skipm n8) = 11 ∧
    cost (.lit vs) = 3 + 9 * vs.length ∧ cost (.valf n4 v) = 15 ∧ cost (.vall n4) = 7 ∧
    cost (.valm n8 v) = 19

/-- Every step keeps the good states (`State.wf`): R33 for every writer, R343 (a) to (d), R48's queue of
7-bit-clean packets within `QCAP` and `WCAP`, `FAULT` a code of R360, the display in canonical form, and
nothing but 7-bit-clean bytes ever transmitted. -/
def Obligations.GoodStatesAreKept : Prop :=
  ∀ s t : State, s.wf = true → step s = .next t → t.wf = true

/-- The state right after reset is a good state, whatever the free bytes of `FW_IMAGE` are. -/
def Obligations.ResetIsAGoodState : Prop := State.reset.wf = true

/-- R390: reset gives every piece of state the value the spec states for it (`DEVIDX` has none) and emits
no event; `State.reset` has these values too. That reset leaves the device and the waiting inputs as they
are is the model's choice (log 16). -/
def Obligations.ResetLeavesTheSpecValues : Prop :=
  (∀ (s : State) (rest : List Input), s.inputs = .reset :: rest →
    ∃ t, step s = .next t ∧
      t.fault = 0x00 ∧ t.writers.length = s.params.nw ∧
      (∀ wr ∈ t.writers, wr.nb = 0 ∧ wr.nbit = 0 ∧ ∀ i, wr.buf.getD i 0 = 0) ∧
      t.sstate = .closed ∧ t.stepReg = 0 ∧ t.pending = false ∧ t.pc = 1 ∧ t.apc = 0 ∧
      t.lastAcked = true ∧ t.readyF = false ∧ t.hbEn = false ∧ t.queue = [] ∧ t.maxPkt = 200 ∧
      t.params = s.params ∧ t.dev = s.dev ∧ t.inputs = rest ∧ t.events = s.events) ∧
  (State.reset.fault = 0x00 ∧ State.reset.writers.length = State.reset.params.nw ∧
    (∀ wr ∈ State.reset.writers, wr.nb = 0 ∧ wr.nbit = 0 ∧ ∀ i, wr.buf.getD i 0 = 0) ∧
    State.reset.sstate = .closed ∧ State.reset.stepReg = 0 ∧ State.reset.pending = false ∧
    State.reset.pc = 1 ∧ State.reset.apc = 0 ∧ State.reset.lastAcked = true ∧
    State.reset.readyF = false ∧ State.reset.hbEn = false ∧ State.reset.queue = [] ∧
    State.reset.maxPkt = 200 ∧ State.reset.events = [])

/-- R31: `FAULT` takes the code of the first request that raises, no later request changes it, and only
reset clears it. -/
def Obligations.FaultRegisterRecordsTheFirstFault : Prop :=
  State.reset.fault = 0x00 ∧
  (∀ (s t : State) (bits : List Bool) (rest : List Input),
    s.inputs = .request bits :: rest → step s = .next t →
    (s.fault = 0x00 → t.fault = t.response.status) ∧ (s.fault ≠ 0x00 → t.fault = s.fault)) ∧
  (∀ s t : State, s.fault ≠ 0x00 → s.inputs.head? ≠ some .reset → step s = .next t →
    t.fault = s.fault) ∧
  (∀ s t : State, s.inputs.head? = some .reset → step s = .next t → t.fault = 0x00)

/-- R362: a request that answers with a fault code has no result, writes nothing but `FAULT` (when that
was 0) and emits no event; its code is one of R360's. -/
def Obligations.FaultingRequestChangesNothingElse : Prop :=
  ∀ (s t : State) (bits : List Bool) (rest : List Input),
    s.inputs = .request bits :: rest → step s = .next t → t.response.status ≠ 0x00 →
    t = { s with
      inputs := rest
      fault := if s.fault = 0x00 then t.response.status else s.fault
      response := { status := t.response.status, result := .none } } ∧
    t.response.status.toNat ≤ 0x0A

/-- R54: no step writes the parameters the CORE was built with. -/
def Obligations.ParametersAreNeverWritten : Prop :=
  ∀ s t : State, step s = .next t → t.params = s.params

/-- The device's commands change nothing of the CORE, and everything else leaves the device alone: the
change-list interpreter is outside the CORE (R7), which reaches the display only through the commands it
emits (R70). -/
def Obligations.DeviceAndCoreAreSeparate : Prop :=
  ∀ (s t : State) (i : Instr), exec i s = .next t →
    (i.layer = .header ∨ i.layer = .command →
      t = { s with dev := t.dev, freeCount := t.freeCount }) ∧
    (i.layer = .message ∨ i.layer = .payload ∨ i.layer = .request →
      t.dev = s.dev ∧ t.freeCount = s.freeCount ∧ t.inputs = s.inputs ∧ t.outbound = s.outbound)

/-- Nothing but R30's state persists: what a request does, or a message it carries, depends neither on the
response before it nor on the events already emitted. -/
def Obligations.ResponsesAndEventsDoNotFeedBack : Prop :=
  ∀ (s : State) (i : Instr) (r : Response) (past : List Event),
    i.layer = .request ∨ i.layer = .message →
    exec i { s with response := r, events := past ++ s.events } =
      match exec i s with
      | .next t => .next { t with events := past ++ t.events }
      | .fault f => .fault f
      | .refused x => .refused x

/-- Events keep their order and none is ever taken back: a step only adds events after those already
emitted (R84). -/
def Obligations.EventsAreOnlyAdded : Prop :=
  ∀ s t : State, step s = .next t → ∃ new : List Event, t.events = s.events ++ new

/-! ## U1: the bit cursor -/

/-- `W_BITS` completes for a handle below `NW`, a width in 1..32, a value that fits it and a writer with
room: the low `w` bits of `v` stand at the old cursor least-significant first, the bits before them stay,
the bits after them are 0, the cursor moves by `w`, and nothing but that writer changes. -/
def Obligations.WriteBitsAppendsTheLowBits : Prop :=
  ∀ (s : State) (h : BitVec 8) (v : BitVec 32) (w : BitVec 6) (wr : Writer),
    h.toNat < s.params.nw → s.writers[h.toNat]? = some wr → wr.wf s.params.wcap = true →
    1 ≤ w.toNat → w.toNat ≤ 32 → v.toNat < 2 ^ w.toNat →
    (wr.bitCount + w.toNat + 6) / 7 ≤ s.params.wcap →
    ∃ wr' : Writer,
      exec (.wBits h v w) s = .next { s with
        writers := s.writers.set h.toNat wr'
        response := { status := 0x00, result := .none } } ∧
      wr'.nb = (wr.bitCount + w.toNat) / 7 ∧ wr'.nbit.toNat = (wr.bitCount + w.toNat) % 7 ∧
      wr'.wf s.params.wcap = true ∧
      (∀ k, k < w.toNat → bitAt wr'.buf (wr.bitCount + k) = v.getLsbD k) ∧
      (∀ j, j < wr.bitCount → bitAt wr'.buf j = bitAt wr.buf j)

/-- `W_BITS` raises `E_WIDTH`, then `E_VALUE`, then `E_WRITER_FULL`, in that order, for a handle below
`NW`, and writes nothing to the writer; at width 32 no value is refused. -/
def Obligations.WriteBitsFaultsInOrder : Prop :=
  ∀ (s : State) (h : BitVec 8) (v : BitVec 32) (w : BitVec 6) (wr : Writer),
    h.toNat < s.params.nw → s.writers[h.toNat]? = some wr →
    (w.toNat < 1 ∨ 32 < w.toNat → exec (.wBits h v w) s = .next (s.raise .width)) ∧
    (1 ≤ w.toNat → w.toNat < 32 → 2 ^ w.toNat ≤ v.toNat →
      exec (.wBits h v w) s = .next (s.raise .value)) ∧
    (1 ≤ w.toNat → w.toNat ≤ 32 → v.toNat < 2 ^ w.toNat →
      s.params.wcap < (wr.bitCount + w.toNat + 6) / 7 →
      exec (.wBits h v w) s = .next (s.raise .writerFull))

/-- `W_NEW` empties the writer it names, `W_CLONE` makes the destination a copy of the source, and both
leave every other writer and the rest of the state alone. -/
def Obligations.NewAndCloneReplaceOneWriter : Prop :=
  ∀ (s : State) (h hs : BitVec 8) (wr : Writer),
    h.toNat < s.params.nw → hs.toNat < s.params.nw → s.writers[hs.toNat]? = some wr →
    exec (.wNew h) s = .next { s with
      writers := s.writers.set h.toNat { buf := [], nb := 0, nbit := 0 }
      response := { status := 0x00, result := .none } } ∧
    exec (.wClone h hs) s = .next { s with
      writers := s.writers.set h.toNat wr
      response := { status := 0x00, result := .none } }

/-- `W_SIZE`, `W_HASCAP` and `W_SNAP` answer from the cursor alone (`WCAP` plays no part) and change
nothing but the response. -/
def Obligations.WriterQueriesAnswerFromTheCursor : Prop :=
  ∀ (s : State) (h : BitVec 8) (n maxBytes : BitVec 16) (wr : Writer),
    h.toNat < s.params.nw → s.writers[h.toNat]? = some wr →
    exec (.wSize h) s = .next { s with
      response := { status := 0x00, result := .size (wr.nb + if 0 < wr.nbit.toNat then 1 else 0) } } ∧
    exec (.wHascap h n maxBytes) s = .next { s with
      response := ⟨0x00,
        .capacity (decide (7 * wr.nb + wr.nbit.toNat + n.toNat ≤ 7 * maxBytes.toNat))⟩ } ∧
    exec (.wSnap h) s = .next { s with
      response := { status := 0x00, result := .snapshot wr.nb wr.nbit } }

/-- `W_READ` answers the `size(h)` bytes of the writer: stream bit `j` of them is the writer's, bit 7 of
each is 0, and the unfilled slots of the last read 0; nothing but the response changes. -/
def Obligations.ReadReturnsTheWritersBytes : Prop :=
  ∀ (s : State) (h : BitVec 8) (wr : Writer),
    h.toNat < s.params.nw → s.writers[h.toNat]? = some wr → wr.wf s.params.wcap = true →
    ∃ bs : List Byte,
      exec (.wRead h) s = .next { s with response := { status := 0x00, result := .bytes bs } } ∧
      bs.length = wr.nb + (if 0 < wr.nbit.toNat then 1 else 0) ∧
      (∀ b ∈ bs, b.toNat < 128) ∧
      (∀ j, j < wr.bitCount → sbit bs j = bitAt wr.buf j) ∧
      (∀ j, wr.bitCount ≤ j → sbit bs j = false)

/-- `W_RESTORE` to a position at or behind the cursor moves the cursor there, keeps the bits before it and
clears every bit after it; a snapshot with `nbit` above 6, or ahead of the cursor, raises `E_RESTORE`. -/
def Obligations.RestoreRollsTheCursorBack : Prop :=
  ∀ (s : State) (h : BitVec 8) (nb : BitVec 32) (nbit : BitVec 3) (wr : Writer),
    h.toNat < s.params.nw → s.writers[h.toNat]? = some wr → wr.wf s.params.wcap = true →
    (6 < nbit.toNat ∨ wr.bitCount < 7 * nb.toNat + nbit.toNat →
      exec (.wRestore h nb nbit) s = .next (s.raise .restore)) ∧
    (nbit.toNat ≤ 6 → 7 * nb.toNat + nbit.toNat ≤ wr.bitCount →
      ∃ wr' : Writer,
        exec (.wRestore h nb nbit) s = .next { s with
          writers := s.writers.set h.toNat wr'
          response := { status := 0x00, result := .none } } ∧
        wr'.nb = nb.toNat ∧ wr'.nbit = nbit ∧ wr'.wf s.params.wcap = true ∧
        (∀ j, j < 7 * nb.toNat + nbit.toNat → bitAt wr'.buf j = bitAt wr.buf j) ∧
        (∀ j, 7 * nb.toNat + nbit.toNat ≤ j → bitAt wr'.buf j = false))

/-- A snapshot, a write and a restore of that snapshot leave the writer exactly as it was. -/
def Obligations.RestoreUndoesAWrite : Prop :=
  ∀ (s t : State) (h : BitVec 8) (v : BitVec 32) (w : BitVec 6) (wr : Writer),
    h.toNat < s.params.nw → s.writers[h.toNat]? = some wr → wr.wf s.params.wcap = true →
    wr.nb < 2 ^ 32 → exec (.wBits h v w) s = .next t → t.response.status = 0x00 →
    exec (.wRestore h (BitVec.ofNat 32 wr.nb) wr.nbit) t =
      .next { s with response := { status := 0x00, result := .none } }

/-- R162: a field written at bit count `q`, the writer read out, and the bytes read at `q` with the same
width, give the field back. -/
def Obligations.WrittenFieldReadsBack : Prop :=
  ∀ (s : State) (h : BitVec 8) (v : BitVec 32) (w : BitVec 6) (wr : Writer),
    h.toNat < s.params.nw → s.writers[h.toNat]? = some wr → wr.wf s.params.wcap = true →
    7 ≤ s.params.readBoundFactor → 1 ≤ w.toNat → w.toNat ≤ 32 → v.toNat < 2 ^ w.toNat →
    (wr.bitCount + w.toNat + 6) / 7 ≤ s.params.wcap → wr.bitCount < 2 ^ 32 →
    ∃ (t u x : State) (bs : List Byte),
      exec (.wBits h v w) s = .next t ∧
      exec (.wRead h) t = .next u ∧ u.response = { status := 0x00, result := .bytes bs } ∧
      exec (.rBits bs (BitVec.ofNat 32 wr.bitCount) w) u = .next x ∧
      x.response = { status := 0x00, result := .read true v }

/-- `R_BITS` answers the field whose bit `k` is stream bit `p + k` when `p + w` is within the bound, and
`ok = 0` with value 0 past it; a width outside 1..32 raises `E_WIDTH`; `R_TYPE` always completes and is
`R_BITS` at width 7. Nothing but the response changes. -/
def Obligations.ReadBitsAnswersTheField : Prop :=
  ∀ (s : State) (data : List Byte) (p : BitVec 32) (w : BitVec 6),
    (w.toNat < 1 ∨ 32 < w.toNat → exec (.rBits data p w) s = .next (s.raise .width)) ∧
    (1 ≤ w.toNat → w.toNat ≤ 32 → s.params.readBoundFactor * data.length < p.toNat + w.toNat →
      exec (.rBits data p w) s =
        .next { s with response := { status := 0x00, result := .read false 0 } }) ∧
    (1 ≤ w.toNat → w.toNat ≤ 32 → p.toNat + w.toNat ≤ s.params.readBoundFactor * data.length →
      ∃ x : BitVec 32,
        exec (.rBits data p w) s =
          .next { s with response := { status := 0x00, result := .read true x } } ∧
        (∀ k, k < w.toNat → x.getLsbD k =
          (decide (p.toNat + k < 7 * data.length) &&
            (data.getD ((p.toNat + k) / 7) 0).getLsbD ((p.toNat + k) % 7))) ∧
        (∀ k, w.toNat ≤ k → x.getLsbD k = false)) ∧
    (∃ r : Result, exec (.rType data p) s = .next { s with response := ⟨0x00, r⟩ }) ∧
    exec (.rType data p) s = exec (.rBits data p 7) s

/-! ## Messages and the dispatch loop -/

/-- A decode that succeeds consumes exactly the sum of its fields' widths. -/
def Obligations.DecodeConsumesTheSchemaWidth : Prop :=
  ∀ (factor : Nat) (data : List Byte) (sc : Schema) (p : Nat) (r : Record) (n : Nat),
    decodeFields factor data sc p = some (r, n) → n = sc.bitWidth

/-- `R_DECODE` answers the decoded message and changes nothing else: 17 bits with their tag and counter for a
packet-ack inside the bound, no fields and 0 bits for an ack past it and for an unknown tag, whatever
`SCHEMAS` is; and no fields and 0 bits for a tag left unconfigured. -/
def Obligations.DecodeAnswersTheMessage : Prop :=
  ∀ (s : State) (data : List Byte) (p : BitVec 32) (tag : BitVec 7),
    (s.params.schemas.wellFormedFor tag = true → ∃ (f : Decoded) (n : Nat),
      exec (.rDecode data p tag) s = .next { s with response := ⟨0x00, .decoded f n⟩ }) ∧
    (p.toNat + 17 ≤ s.params.readBoundFactor * data.length →
      exec (.rDecode data p 0x02) s = .next { s with response := ⟨0x00,
        .decoded (.fields (.num .tag (BitVec.ofNat 32 (readField data p.toNat 7))
          (.num .counter (BitVec.ofNat 32 (readField data (p.toNat + 7) 10)) .nil))) 17⟩ }) ∧
    (s.params.readBoundFactor * data.length < p.toNat + 17 →
      exec (.rDecode data p 0x02) s =
        .next { s with response := ⟨0x00, .decoded (.fields .nil) 0⟩ }) ∧
    (tag ∉ [0x01#7, 0x02#7, 0x11#7, 0x13#7, 0x15#7] ∨
        (s.params.schemas.wellFormedFor tag = true ∧
          ((tag = 0x01 ∧ s.params.schemas.topologyHeader = none) ∨
            (tag = 0x11 ∧ s.params.schemas.touchMove = none) ∨
            (tag = 0x13 ∧ s.params.schemas.touchStartV = none) ∨
            (tag = 0x15 ∧ s.params.schemas.touchEndV = none))) →
      exec (.rDecode data p tag) s =
        .next { s with response := ⟨0x00, .decoded (.fields .nil) 0⟩ })

/-- R201's fields of a schema at bit `p`: a scalar is its stream bits, a composite the record of its
nested schema, a not-present field 0. -/
def FieldsAt (data : List Byte) : Schema → Nat → Record → Prop
  | .nil, _, r => r = .nil
  | .scalar name w rest, p, r => ∃ (v : BitVec 32) (more : Record), r = .num name v more ∧
      (∀ k, v.getLsbD k = (decide (k < w) && sbit data (p + k))) ∧ FieldsAt data rest (p + w) more
  | .composite name _ nested rest, p, r => ∃ g more : Record, r = .sub name g more ∧
      FieldsAt data nested p g ∧ FieldsAt data rest (p + nested.bitWidth) more
  | .absent name rest, p, r => ∃ more : Record, r = .num name 0 more ∧ FieldsAt data rest p more

/-- Whether every composite of a schema has a present field: R201's decode stops at one that consumes
nothing. -/
def compositesConsume : Schema → Bool
  | .nil => true
  | .scalar _ _ rest => compositesConsume rest
  | .composite _ _ nested rest =>
      decide (0 < nested.bitWidth) && compositesConsume nested && compositesConsume rest
  | .absent _ rest => compositesConsume rest

/-- A configured touch message decodes to its schema's fields and the sum of their widths, and to no fields
and 0 bits where the bound cuts it or a composite consumes nothing (R201). A configured topology message
decodes to its header, `deviceCount` device records and `connectionCount` connection records back to
back, with all their widths summed, and to no fields and 0 bits where the bound cuts it (R204). -/
def Obligations.ConfiguredMessagesDecodeByTheirSchemas : Prop :=
  (∀ (s : State) (data : List Byte) (p : BitVec 32) (tag : BitVec 7) (sc : Schema),
    s.params.schemas.wellFormedFor tag = true →
    (tag = 0x11 ∧ s.params.schemas.touchMove = some sc) ∨
      (tag = 0x13 ∧ s.params.schemas.touchStartV = some sc) ∨
      (tag = 0x15 ∧ s.params.schemas.touchEndV = some sc) →
    (compositesConsume sc = true →
      p.toNat + sc.bitWidth ≤ s.params.readBoundFactor * data.length →
      ∃ r : Record, FieldsAt data sc p.toNat r ∧
        exec (.rDecode data p tag) s =
          .next { s with response := ⟨0x00, .decoded (.fields r) sc.bitWidth⟩ }) ∧
    (compositesConsume sc = false ∨
        s.params.readBoundFactor * data.length < p.toNat + sc.bitWidth →
      exec (.rDecode data p tag) s =
        .next { s with response := ⟨0x00, .decoded (.fields .nil) 0⟩ })) ∧
  (∀ (s : State) (data : List Byte) (p : BitVec 32) (header device connection : Schema)
      (h : Record) (nd nc total : Nat),
    s.params.schemas.wellFormedFor 0x01 = true →
    s.params.schemas.topologyHeader = some header →
    s.params.schemas.topologyDeviceInfo = some device →
    s.params.schemas.topologyConnectionInfo = some connection →
    compositesConsume header = true → compositesConsume device = true →
    compositesConsume connection = true → 0 < device.bitWidth → 0 < connection.bitWidth →
    FieldsAt data header p.toNat h →
    nd = (h.field .deviceCount).toNat → nc = (h.field .connectionCount).toNat →
    total = header.bitWidth + nd * device.bitWidth + nc * connection.bitWidth →
    (p.toNat + total ≤ s.params.readBoundFactor * data.length →
      ∃ devs cons : List Record,
        exec (.rDecode data p 0x01) s =
          .next { s with response := ⟨0x00, .decoded (.topology h devs cons) total⟩ } ∧
        devs.length = nd ∧ cons.length = nc ∧
        (∀ k d, devs[k]? = some d →
          FieldsAt data device (p.toNat + header.bitWidth + k * device.bitWidth) d) ∧
        (∀ k c, cons[k]? = some c →
          FieldsAt data connection
            (p.toNat + header.bitWidth + nd * device.bitWidth + k * connection.bitWidth) c)) ∧
    (s.params.readBoundFactor * data.length < p.toNat + total →
      exec (.rDecode data p 0x01) s =
        .next { s with response := ⟨0x00, .decoded (.fields .nil) 0⟩ }))

/-- A message whose entries of `SCHEMAS` are ill-formed is refused, by `R_DECODE`, by the dispatch that
comes to it and as a message. R200 says that a model refuses such a configuration; that it does so at the
messages those entries decode, and that an entry is ill-formed too without R203's leading tag, R204's
count fields or R200's unique names, is the model's choice (log 20). -/
def Obligations.IllFormedSchemasAreRefused : Prop :=
  ∀ (s : State) (data : List Byte) (p : BitVec 32) (tag : BitVec 7) (body : List Septet) (i : Instr),
    s.params.schemas.wellFormedFor tag = false →
    exec (.rDecode data p tag) s = .refused .illFormedSchemas ∧
    (39 + 7 ≤ s.params.readBoundFactor * data.length → readField data 39 7 = tag.toNat →
      exec (.rDispatch data) s = .refused .illFormedSchemas) ∧
    (7 ≤ s.params.readBoundFactor →
      (i, tag) ∈ [(.msgTopology body, 0x01#7), (.msgTouchMove body, 0x11#7),
        (.msgTouchStartV body, 0x13#7), (.msgTouchEndV body, 0x15#7)] →
      exec i s = .refused .illFormedSchemas)

/-- R206's list of messages from bit `p`: it is empty where the tag there is unreadable or unknown or its
decode consumes nothing (R207); otherwise it starts with that tag and what its decode gives, and goes on
behind the bits consumed. -/
def ListedFrom (pm : Params) (data : List Byte) : Nat → List (BitVec 7 × Decoded) → Prop
  | p, [] =>
      pm.readBoundFactor * data.length < p + 7 ∨
        readField data p 7 ∉ [0x01, 0x02, 0x11, 0x13, 0x15] ∨
        (decodeMessage pm (BitVec.ofNat 7 (readField data p 7)) data p).2 = 0
  | p, (tag, f) :: ms =>
      p + 7 ≤ pm.readBoundFactor * data.length ∧
        tag.toNat = readField data p 7 ∧ tag ∈ [0x01#7, 0x02#7, 0x11#7, 0x13#7, 0x15#7] ∧
        ∃ n : Nat, 0 < n ∧ decodeMessage pm tag data p = (f, n) ∧ ListedFrom pm data (p + n) ms

/-- `R_DISPATCH` completes in every state that keeps R343's laws, under a well-formed `SCHEMAS`: it
answers R206's list of messages from bit 39, all of it and no more, and leaves the writers, `FAULT`, the
configuration, the device and the parameters alone. -/
def Obligations.DispatchCompletes : Prop :=
  ∀ (s : State) (data : List Byte), s.params.schemas.wellFormed = true → s.sessionWf = true →
    ∃ (t : State) (ms : List (BitVec 7 × Decoded)),
      exec (.rDispatch data) s = .next t ∧ ListedFrom s.params data 39 ms ∧
      t = { s with
        sstate := t.sstate
        stepReg := t.stepReg
        pending := t.pending
        pc := t.pc
        apc := t.apc
        readyF := t.readyF
        hbEn := t.hbEn
        queue := t.queue
        events := t.events
        response := { status := 0x00, result := .messages ms } }

/-- Messages delivered one after another: an ack as the request `S_ACK` of its counter, any other message
as its `EV_MSG`. -/
def deliverInTurn : List (BitVec 7 × Decoded) → State → Host.Outcome State Fault Refusal
  | [], s => .next s
  | (tag, f) :: ms, s =>
      if tag = 0x02 then
        match exec (.sAck f.ackCounter) s with
        | .next t => deliverInTurn ms t
        | .fault x => .fault x
        | .refused x => .refused x
      else deliverInTurn ms { s with events := s.events ++ [.msg tag f] }

/-- R209 and R210: a dispatch does to the state exactly what one `S_ACK` for each ack it delivers and one
`EV_MSG` for each other message do, each to its end and in buffer order; only the response differs. -/
def Obligations.DispatchDeliversInBufferOrder : Prop :=
  ∀ (s t : State) (data : List Byte) (ms : List (BitVec 7 × Decoded)),
    exec (.rDispatch data) s = .next t →
    t.response = { status := 0x00, result := .messages ms } →
    ∃ u, deliverInTurn ms s = .next u ∧ t = { u with response := t.response }

/-- R208's bound: at most `floor((F·len(data) − 39) / 7) + 1` messages are delivered. -/
def Obligations.DispatchDeliversBoundedlyMany : Prop :=
  ∀ (s t : State) (data : List Byte) (ms : List (BitVec 7 × Decoded)),
    exec (.rDispatch data) s = .next t →
    t.response = { status := 0x00, result := .messages ms } →
    ms.length ≤ (s.params.readBoundFactor * data.length - 39) / 7 + 1

/-- A buffer whose first tag cannot be read, is none of R108's, or begins a message whose decode consumes
nothing, delivers nothing and changes nothing: the loop stops without error. -/
def Obligations.UnrecognisedTagStopsTheLoop : Prop :=
  ∀ (s : State) (data : List Byte) (tag : BitVec 7),
    s.params.readBoundFactor * data.length < 39 + 7 ∨
      readField data 39 7 ∉ [0x01, 0x02, 0x11, 0x13, 0x15] ∨
      (readField data 39 7 = tag.toNat ∧ s.params.schemas.wellFormedFor tag = true ∧
        (decodeMessage s.params tag data 39).2 = 0) →
    exec (.rDispatch data) s =
      .next { s with response := { status := 0x00, result := .messages [] } }

/-- An inbound message is the dispatch of the buffer that holds it. A topology or touch message whose decode
consumes bits is listed first and put on the event interface with its tag and fields, and where the
buffer holds nothing more, nothing else happens; one that consumes no bits has no effect. -/
def Obligations.MessagesBecomeEvents : Prop :=
  (∀ (s : State) (i : Instr), i.layer = .message →
    exec i s = exec (.rDispatch (inboundBuffer (encode i))) s) ∧
  (∀ (s : State) (body : List Septet) (i : Instr) (tag : BitVec 7) (f : Decoded) (n : Nat),
    s.params.schemas.wellFormed = true → s.sessionWf = true →
    (i, tag) ∈ [(.msgTopology body, 0x01#7), (.msgTouchMove body, 0x11#7),
      (.msgTouchStartV body, 0x13#7), (.msgTouchEndV body, 0x15#7)] →
    decodeMessage s.params tag (inboundBuffer (encode i)) 39 = (f, n) →
    (0 < n → ∃ (t : State) (more : List (BitVec 7 × Decoded)) (new : List Event),
      exec i s = .next t ∧ t.response = { status := 0x00, result := .messages ((tag, f) :: more) } ∧
      t.events = s.events ++ .msg tag f :: new ∧
      (more = [] → t = { s with
        events := s.events ++ [.msg tag f]
        response := { status := 0x00, result := .messages [(tag, f)] } })) ∧
    (n = 0 → exec i s =
      .next { s with response := { status := 0x00, result := .messages [] } }))

/-- An inbound packet-ack completes in every state that keeps R343's laws, does to the state exactly what
`S_ACK` of its counter does, and answers with the one message. -/
def Obligations.AckMessageIsAnAcknowledgement : Prop :=
  ∀ (s : State) (c : BitVec 10), 7 ≤ s.params.readBoundFactor → s.sessionWf = true →
    ∃ t, exec (.sAck c) s = .next t ∧
      exec (.msgAck c) s = .next { t with response := ⟨0x00, .messages
        [(0x02, .fields (.num .tag 0x02 (.num .counter (c.setWidth 32) .nil)))]⟩ }

/-! ## U2: the delta encoder -/

/-- R282: the packets of a `D_COMPUTE`, read in order by a device whose display holds the old bytes over
`[baseOffset, baseOffset + length)`, leave the new bytes there. On the way no other offset changes, and
every byte there is the old one or the new one. The device reads every packet to its terminator. -/
def Obligations.PacketsReproduceTheNewFrame : Prop :=
  ∀ (s u : State) (newData oldData : List Byte) (baseOffset length startIndex maxBytes : BitVec 16)
    (pk : List (List Byte)),
    exec (.dCompute newData oldData baseOffset length startIndex maxBytes) s = .next u →
    u.response = { status := 0x00, result := .packets pk } →
    ∀ d : State, d.dev.display.wf = true → d.dev.inPacket = false →
      d.inputs = pk.map (fun p => .packet (streamBits p)) →
      (∀ q, q < length.toNat → d.dev.display.read (baseOffset.toNat + q) = oldData.getD q 0) →
      ∃ (k : Nat) (t : State), Host.Core.run Sys2Proof.core k d = .next t ∧
        t = { d with inputs := [], dev := t.dev } ∧
        (∀ q, q < length.toNat → t.dev.display.read (baseOffset.toNat + q) = newData.getD q 0) ∧
        (∀ (j : Nat) (x : State), j ≤ k → Host.Core.run Sys2Proof.core j d = .next x →
          (∀ a, a < baseOffset.toNat ∨ baseOffset.toNat + length.toNat ≤ a →
            x.dev.display.read a = d.dev.display.read a) ∧
          (∀ q, q < length.toNat →
            x.dev.display.read (baseOffset.toNat + q) = oldData.getD q 0 ∨
            x.dev.display.read (baseOffset.toNat + q) = newData.getD q 0))

/-- Every packet of a `D_COMPUTE` fits the budget and the working writer and is 7-bit-clean; there is at
least one, and exactly one when `maxBytes` is 0. -/
def Obligations.PacketsFitTheBudget : Prop :=
  ∀ (s u : State) (newData oldData : List Byte) (baseOffset length startIndex maxBytes : BitVec 16)
    (pk : List (List Byte)),
    exec (.dCompute newData oldData baseOffset length startIndex maxBytes) s = .next u →
    u.response = { status := 0x00, result := .packets pk } →
    pk ≠ [] ∧ (maxBytes = 0 → pk.length = 1) ∧
      ∀ p ∈ pk, (maxBytes ≠ 0 → p.length ≤ maxBytes.toNat) ∧ p.length ≤ s.params.wcap ∧
        ∀ b ∈ p, b.toNat < 128

/-- R252 and R253: packet `k` of a `D_COMPUTE` is its header with the sequence number `startIndex + k` modulo
65536, commands, one terminator and zero padding; the terminator is `EOC` in the last packet and `EOP` in
every earlier one. The commands are the canonical ones of R104, value commands among them only with
`VALUE_RUNS` on (R260). -/
def Obligations.PacketsAreNumberedAndTerminated : Prop :=
  ∀ (s u : State) (newData oldData : List Byte) (baseOffset length startIndex maxBytes : BitVec 16)
    (pk : List (List Byte)),
    exec (.dCompute newData oldData baseOffset length startIndex maxBytes) s = .next u →
    u.response = { status := 0x00, result := .packets pk } →
    pk ≠ [] ∧ ∀ (k : Nat) (p : List Byte), pk[k]? = some p →
      ∃ (cmds : List Instr) (pad : List Bool),
        streamBits p = encode (.deltaHdr (BitVec.ofNat 16 (startIndex.toNat + k))) ++
          cmds.flatMap encode ++ encode (if k + 1 = pk.length then Instr.eoc else Instr.eop) ++ pad ∧
        pad.length < 7 ∧ (∀ b ∈ pad, b = false) ∧
        ∀ c ∈ cmds,
          (∃ n : BitVec 4, c = .skipf n ∧ 1 ≤ n.toNat) ∨
          (∃ n : BitVec 8, c = .skipm n ∧ 16 ≤ n.toNat) ∨
          (∃ vs : List Byte, c = .lit vs ∧ vs ≠ []) ∨
          (s.params.valueRuns = true ∧
            ((∃ (n : BitVec 4) (v : Byte), c = .valf n v ∧ 1 ≤ n.toNat) ∨
              (∃ n : BitVec 4, c = .vall n ∧ 1 ≤ n.toNat) ∨
              (∃ (n : BitVec 8) (v : Byte), c = .valm n v ∧ 16 ≤ n.toNat)))

/-- `D_COMPUTE` completes on frames of equal length within it whenever the budget and `WCAP` hold a
header, a terminator and 12 bits for every device offset up to the end: it answers one packet and changes
nothing but the response. -/
def Obligations.RoomyFrameGivesOnePacket : Prop :=
  ∀ (s : State) (newData oldData : List Byte) (baseOffset length startIndex maxBytes : BitVec 16),
    newData.length = oldData.length → length.toNat ≤ newData.length →
    26 + 12 * (baseOffset.toNat + length.toNat) ≤ 7 * s.params.wcap →
    maxBytes = 0 ∨ 26 + 12 * (baseOffset.toNat + length.toNat) ≤ 7 * maxBytes.toNat →
    ∃ p : List Byte,
      exec (.dCompute newData oldData baseOffset length startIndex maxBytes) s =
        .next { s with response := { status := 0x00, result := .packets [p] } }

/-- Equal frames give one packet that holds only canonical skips up to `baseOffset + length` and then
`EOC`, whenever the skips fit as R254 (c) bounds them. -/
def Obligations.EqualFramesGiveOnlySkips : Prop :=
  ∀ (s : State) (data : List Byte) (baseOffset length startIndex maxBytes : BitVec 16),
    length.toNat ≤ data.length →
    26 + (11 * ((baseOffset.toNat + length.toNat + 254) / 255) + 7) ≤ 7 * s.params.wcap →
    maxBytes = 0 ∨
      26 + (11 * ((baseOffset.toNat + length.toNat + 254) / 255) + 7) ≤ 7 * maxBytes.toNat →
    ∃ (skips : List (Instr × Nat)) (p : List Byte),
      exec (.dCompute data data baseOffset length startIndex maxBytes) s =
        .next { s with response := { status := 0x00, result := .packets [p] } } ∧
      (∀ c ∈ skips, (∃ n : BitVec 4, c = (.skipf n, n.toNat) ∧ 1 ≤ n.toNat) ∨
        (∃ n : BitVec 8, c = (.skipm n, n.toNat) ∧ 16 ≤ n.toNat)) ∧
      (skips.map Prod.snd).sum = baseOffset.toNat + length.toNat ∧
      (∃ pad : List Bool, streamBits p =
        encode (.deltaHdr startIndex) ++ (skips.map Prod.fst).flatMap encode ++ encode .eoc ++ pad ∧
        pad.length < 7 ∧ ∀ b ∈ pad, b = false)

/-- R241: frame buffers of unequal length, or a `length` beyond them, raise `E_ARG`; and for buffers that
pass, a `maxBytes` of 1..3 raises `E_BUDGET`. -/
def Obligations.EncoderRefusesBadOperands : Prop :=
  ∀ (s : State) (newData oldData : List Byte) (baseOffset length startIndex maxBytes : BitVec 16),
    (newData.length ≠ oldData.length ∨ newData.length < length.toNat →
      exec (.dCompute newData oldData baseOffset length startIndex maxBytes) s =
        .next (s.raise .arg)) ∧
    (newData.length = oldData.length → length.toNat ≤ newData.length →
      1 ≤ maxBytes.toNat → maxBytes.toNat ≤ 3 →
      exec (.dCompute newData oldData baseOffset length startIndex maxBytes) s =
        .next (s.raise .budget))

/-- `D_COMPUTE` always answers: with at least one packet, or with `E_ARG`, `E_BUDGET` or
`E_WRITER_FULL`. -/
def Obligations.EncoderAlwaysAnswers : Prop :=
  ∀ (s : State) (newData oldData : List Byte) (baseOffset length startIndex maxBytes : BitVec 16),
    ∃ t, exec (.dCompute newData oldData baseOffset length startIndex maxBytes) s = .next t ∧
      ((∃ pk : List (List Byte), pk ≠ [] ∧
          t = { s with response := { status := 0x00, result := .packets pk } }) ∨
        t = s.raise .arg ∨ t = s.raise .budget ∨ t = s.raise .writerFull)

/-! ## The device side -/

/-- The header starts a packet at cursor 0 with no established value, the terminators end it, and the
skips move the cursor by their count; none of them writes the display or anything of the CORE. That the
sequence number has no effect and that the two terminators act alike is the model's choice (log 11). -/
def Obligations.HeaderSkipsAndTerminatorsWriteNothing : Prop :=
  ∀ (s : State) (seq : BitVec 16) (n4 : BitVec 4) (n8 : BitVec 8),
    exec (.deltaHdr seq) s =
      .next { s with dev := { s.dev with cur := 0, last := none, inPacket := true } } ∧
    exec .eop s = .next { s with dev := { s.dev with inPacket := false } } ∧
    exec .eoc s = .next { s with dev := { s.dev with inPacket := false } } ∧
    exec (.skipf n4) s = .next { s with dev := { s.dev with cur := s.dev.cur + n4.toNat } } ∧
    exec (.skipm n8) s = .next { s with dev := { s.dev with cur := s.dev.cur + n8.toNat } }

/-- `LIT` writes its bytes at the cursor and on, moves the cursor past them, and changes no other byte of
the display and nothing else. -/
def Obligations.LiteralWritesItsBytes : Prop :=
  ∀ (s : State) (vs : List Byte), s.dev.display.wf = true →
    ∃ m : Memory,
      exec (.lit vs) s =
        .next { s with dev := { s.dev with display := m, cur := s.dev.cur + vs.length } } ∧
      (∀ k, k < vs.length → m.read (s.dev.cur + k) = vs.getD k 0) ∧
      (∀ a, a < s.dev.cur ∨ s.dev.cur + vs.length ≤ a → m.read a = s.dev.display.read a)

/-- `VALF` and `VALM` establish their value and write it `n` times at the cursor and on, `VALL` writes the
established value `n` times; each moves the cursor by `n` and changes no other byte and nothing else. That
`VALF` and `VALM` establish their value with a count of 0 too is the model's choice (log 21). -/
def Obligations.ValueCommandsWriteCopies : Prop :=
  ∀ (s : State) (n4 : BitVec 4) (n8 : BitVec 8) (v : Byte) (i : Instr) (n : Nat),
    s.dev.display.wf = true →
    (i = .valf n4 v ∧ n = n4.toNat) ∨ (i = .valm n8 v ∧ n = n8.toNat) ∨
      (i = .vall n4 ∧ n = n4.toNat ∧ s.dev.last = some v) →
    ∃ m : Memory,
      exec i s = .next { s with
        dev := { s.dev with display := m, cur := s.dev.cur + n, last := some v } } ∧
      (∀ k, k < n → m.read (s.dev.cur + k) = v) ∧
      (∀ a, a < s.dev.cur ∨ s.dev.cur + n ≤ a → m.read a = s.dev.display.read a)

/-- The model's choices for a `VALL` with no established value: one of a count above 0, which R281 calls
undefined, goes on with a free effect on the device and none on the CORE, and keeps the display's
canonical form (log 12); one of a count of 0 is a no-op, as R106 has it, in every state (log 21). -/
def Obligations.VallWithoutValueGoesOn : Prop :=
  ∀ (s : State) (n : BitVec 4),
    (s.dev.last = none → n ≠ 0 → ∃ d : Device,
      exec (.vall n) s = .next { s with dev := d, freeCount := s.freeCount + 1 } ∧
      (s.dev.display.wf = true → d.display.wf = true)) ∧
    (n = 0 → exec (.vall n) s = .next s)

/-! ## U3: the session -/

/-- `S_CONFIG` writes `DEVIDX` and `MAXPKT` in `CLOSED` and raises `E_STATE` in any other state. -/
def Obligations.ConfigOnlyInClosed : Prop :=
  ∀ (s : State) (devIdx : BitVec 7) (maxPkt : BitVec 16),
    (s.sstate = .closed →
      exec (.sConfig devIdx maxPkt) s = .next { s with
        devIdx := devIdx
        maxPkt := maxPkt
        response := { status := 0x00, result := .none } }) ∧
    (s.sstate ≠ .closed → exec (.sConfig devIdx maxPkt) s = .next (s.raise .badState))

/-- What each handshake step emits to device `d` (R321 to R328). -/
def handshakeEvents (p : Params) (d : BitVec 7) : Nat → List Event
  | 1 => [.tx d [0x01, 0x02, 0x00] (some 0x60), .tx d [0x01, 0x00, 0x00] (some 0x5A)]
  | 2 => [.tx d [0x01, 0x00, 0x00] (some 0x5A)]
  | 3 => [.tx d [0x01, 0x03, 0x00] (some 0x63)]
  | 4 => [.tx d [0x10, 0x02] (some 0x44)]
  | 5 => [.tx d [0x01, 0x03, 0x00] (some 0x63)]
  | 6 => [.tx d p.fwImage0 none, .tx d p.fwImage1 none]
  | 7 => [.tx d [0x01, 0x05, 0x00] (some 0x69)]
  | 8 => [.ready]
  | _ => []

/-- `S_OPEN` in `CLOSED` enters `OPENING`, runs step 1 and awaits an ack; in any other state it raises
`E_STATE`. -/
def Obligations.OpenRunsStepOne : Prop :=
  ∀ s : State,
    (s.sstate = .closed →
      exec .sOpen s = .next { s with
        sstate := .opening
        stepReg := 1
        pending := true
        events := s.events ++ handshakeEvents s.params s.devIdx 1
        response := { status := 0x00, result := .none } }) ∧
    (s.sstate ≠ .closed → exec .sOpen s = .next (s.raise .badState))

/-- `S_ACK` is ignored in `CLOSED`. In any other state a repeated counter is a stall (`PC` becomes `APC` + 1,
`EV_STUCK`) and any other counter becomes `APC`; then a queued packet is sent to `DEVIDX` and counted by
`PC`, or with an empty queue and no pending wait nothing more happens. -/
def Obligations.AckUpdatesCountersAndDrains : Prop :=
  ∀ (s : State) (c : BitVec 10),
    (s.sstate = .closed →
      exec (.sAck c) s = .next { s with response := { status := 0x00, result := .none } }) ∧
    (s.sstate ≠ .closed → ∀ (p : List Byte) (rest : List (List Byte)), s.queue = p :: rest →
      exec (.sAck c) s = .next { s with
        apc := c
        pc := (if c = s.apc then s.apc + 1 else s.pc) + 1
        queue := rest
        events := s.events ++ (if c = s.apc then [.stuck s.apc] else []) ++ [.tx s.devIdx p none]
        response := { status := 0x00, result := .none } }) ∧
    (s.sstate ≠ .closed → s.queue = [] → s.pending = false →
      exec (.sAck c) s = .next { s with
        apc := c
        pc := if c = s.apc then s.apc + 1 else s.pc
        events := s.events ++ (if c = s.apc then [.stuck s.apc] else [])
        response := { status := 0x00, result := .none } })

/-- An ack in `OPENING`, whatever its counter, fires the pending continuation: step `STEP` + 1 runs with its
sends, step 3 enables the heartbeat, step 6 makes `PC` 3, steps up to 7 await an ack, and step 8 enters
`READY`. -/
def Obligations.AckAdvancesTheHandshake : Prop :=
  ∀ (s : State) (c : BitVec 10), s.sstate = .opening → s.pending = true → s.queue = [] →
    1 ≤ s.stepReg.toNat → s.stepReg.toNat ≤ 7 →
    exec (.sAck c) s = .next { s with
      apc := c
      pc := if s.stepReg = 5 then 3 else if c = s.apc then s.apc + 1 else s.pc
      stepReg := s.stepReg + 1
      pending := decide (s.stepReg.toNat < 7)
      hbEn := if s.stepReg = 2 then true else s.hbEn
      readyF := if s.stepReg = 7 then true else s.readyF
      sstate := if s.stepReg = 7 then .ready else .opening
      events := s.events ++ (if c = s.apc then [.stuck s.apc] else []) ++
        handshakeEvents s.params s.devIdx (s.stepReg.toNat + 1)
      response := { status := 0x00, result := .none } }

/-- From `CLOSED`, `S_OPEN` and any seven acks reach `READY`: the heartbeat is on, no wait is pending, the
nine packets of steps 1 to 7 were sent in order, and `EV_READY` is the last event. -/
def Obligations.SevenAcksReachReady : Prop :=
  ∀ (s : State) (cs : List (BitVec 10)), s.sstate = .closed → s.queue = [] → cs.length = 7 →
    ∃ t, execAll (.sOpen :: cs.map .sAck) s = .next t ∧
      t.sstate = .ready ∧ t.stepReg = 8 ∧ t.pending = false ∧ t.readyF = true ∧ t.hbEn = true ∧
      t.queue = [] ∧ some t.apc = cs.getLast? ∧ t.events.getLast? = some .ready ∧
      t.sent = s.sent ++ (List.range 7).flatMap (fun k => handshakeEvents s.params s.devIdx (k + 1)) ∧
      t = { s with
        sstate := t.sstate
        stepReg := t.stepReg
        pending := t.pending
        pc := t.pc
        apc := t.apc
        readyF := t.readyF
        hbEn := t.hbEn
        events := t.events
        response := t.response }

/-- `S_CLOSE` outside `CLOSED` rejects a pending wait with `EV_ABORTED`, stops the heartbeat, discards the
queue and keeps the counters, `STEP` and the configuration; in `CLOSED` it changes and emits nothing. -/
def Obligations.CloseEndsTheSession : Prop :=
  ∀ s : State,
    (s.sstate = .closed →
      exec .sClose s = .next { s with response := { status := 0x00, result := .none } }) ∧
    (s.sstate ≠ .closed →
      exec .sClose s = .next { s with
        sstate := .closed
        pending := false
        hbEn := false
        readyF := false
        queue := []
        events := s.events ++ (if s.pending then [.aborted] else [])
        response := { status := 0x00, result := .none } })

/-- R341: a frame offered outside `READY`, or while `LASTACKED` is 0, is dropped whatever it holds: no state
changes and no event is emitted. -/
def Obligations.FrameOutsideTheGateIsDropped : Prop :=
  ∀ (s : State) (newData oldData : List Byte) (baseOffset length : BitVec 16),
    s.sstate ≠ .ready ∨ s.pc ≠ s.apc + 1 →
    exec (.sFrame newData oldData baseOffset length) s =
      .next { s with response := { status := 0x00, result := .dropped } }

/-- A frame inside the gate whose packets (those `D_COMPUTE` gives from `zext16(PC)` with budget `MAXPKT`)
fit the queue is committed: they are appended, and if the queue was empty the first is sent to `DEVIDX`
and counted by `PC`. -/
def Obligations.FrameIsCommittedAndItsHeadSent : Prop :=
  ∀ (s u : State) (newData oldData : List Byte) (baseOffset length : BitVec 16)
    (pk : List (List Byte)),
    s.sstate = .ready → s.pc = s.apc + 1 →
    exec (.dCompute newData oldData baseOffset length (s.pc.setWidth 16) s.maxPkt) s = .next u →
    u.response = { status := 0x00, result := .packets pk } →
    s.queue.length + pk.length ≤ s.params.qcap →
    (s.queue ≠ [] →
      exec (.sFrame newData oldData baseOffset length) s = .next { s with
        queue := s.queue ++ pk
        response := { status := 0x00, result := .committed } }) ∧
    (s.queue = [] → ∃ (p : List Byte) (rest : List (List Byte)), pk = p :: rest ∧
      exec (.sFrame newData oldData baseOffset length) s = .next { s with
        queue := rest
        pc := s.pc + 1
        events := s.events ++ [.tx s.devIdx p none]
        response := { status := 0x00, result := .committed } })

/-- A frame inside the gate completes, with the queue empty, whenever `MAXPKT` and `WCAP` hold a header, a
terminator and 12 bits for every device offset up to the frame's end: its one packet, the one `D_COMPUTE`
gives from `zext16(PC)`, is sent to `DEVIDX` and counted by `PC`. -/
def Obligations.RoomyFrameIsCommitted : Prop :=
  ∀ (s : State) (newData oldData : List Byte) (baseOffset length : BitVec 16),
    s.sstate = .ready → s.pc = s.apc + 1 → s.queue = [] → 1 ≤ s.params.qcap →
    newData.length = oldData.length → length.toNat ≤ newData.length →
    26 + 12 * (baseOffset.toNat + length.toNat) ≤ 7 * s.params.wcap →
    s.maxPkt = 0 ∨ 26 + 12 * (baseOffset.toNat + length.toNat) ≤ 7 * s.maxPkt.toNat →
    ∃ p : List Byte,
      exec (.dCompute newData oldData baseOffset length (s.pc.setWidth 16) s.maxPkt) s =
        .next { s with response := ⟨0x00, .packets [p]⟩ } ∧
      exec (.sFrame newData oldData baseOffset length) s = .next { s with
        pc := s.pc + 1
        events := s.events ++ [.tx s.devIdx p none]
        response := { status := 0x00, result := .committed } }

/-- A frame inside the gate whose encoding raises a fault raises the same, and one whose packets do not fit
the queue raises `E_QUEUE_FULL`. -/
def Obligations.FrameFaultsAreTheEncodersOrQueueFull : Prop :=
  ∀ (s u : State) (newData oldData : List Byte) (baseOffset length : BitVec 16),
    s.sstate = .ready → s.pc = s.apc + 1 →
    exec (.dCompute newData oldData baseOffset length (s.pc.setWidth 16) s.maxPkt) s = .next u →
    (∀ pk : List (List Byte), u.response = { status := 0x00, result := .packets pk } →
      s.params.qcap < s.queue.length + pk.length →
      exec (.sFrame newData oldData baseOffset length) s = .next (s.raise .queueFull)) ∧
    (∀ c : ErrCode, u = s.raise c →
      exec (.sFrame newData oldData baseOffset length) s = .next (s.raise c))

/-- A committed frame's `k` packets are transmitted in order, one at the commit and one for each further ack
whatever its counter, and all of them after `k` - 1 acks. -/
def Obligations.CommittedFrameDrainsByAcks : Prop :=
  ∀ (s u : State) (newData oldData : List Byte) (baseOffset length : BitVec 16)
    (pk : List (List Byte)) (cs : List (BitVec 10)),
    s.sstate = .ready → s.pc = s.apc + 1 → s.queue = [] →
    exec (.dCompute newData oldData baseOffset length (s.pc.setWidth 16) s.maxPkt) s = .next u →
    u.response = { status := 0x00, result := .packets pk } →
    pk.length ≤ s.params.qcap → cs.length < pk.length →
    ∃ t, execAll (.sFrame newData oldData baseOffset length :: cs.map .sAck) s = .next t ∧
      t.queue = pk.drop (cs.length + 1) ∧
      t.sent = s.sent ++ (pk.take (cs.length + 1)).map (fun p => .tx s.devIdx p none)

/-- `S_HB_TICK` sends one heartbeat to `DEVIDX` when `HBEN` is 1 and does nothing when it is 0, and
`S_REQ_TOPO` asks device index 0 for the topology in every state; neither counts in `PC`. -/
def Obligations.HeartbeatAndTopologyRequests : Prop :=
  ∀ s : State,
    exec .sHbTick s = .next { s with
      events := s.events ++ (if s.hbEn then [.tx s.devIdx [0x01, 0x03, 0x00] (some 0x63)] else [])
      response := { status := 0x00, result := .none } } ∧
    exec .sReqTopo s = .next { s with
      events := s.events ++ [.tx 0 [0x01, 0x01, 0x00] (some 0x5D)]
      response := { status := 0x00, result := .none } }

/-- R52: `S_STATUS` answers the two status words, each field at its bits, the reserved bits 0; it changes
nothing but the response. -/
def Obligations.StatusWordsHoldTheirFields : Prop :=
  ∀ s : State, ∃ a b : BitVec 32,
    exec .sStatus s = .next { s with response := { status := 0x00, result := .status a b } } ∧
    a.extractLsb' 0 2 = (match s.sstate with | .closed => 0 | .opening => 1 | .ready => 2) ∧
    a.extractLsb' 2 4 = s.stepReg ∧ a.getLsbD 6 = s.pending ∧ a.getLsbD 7 = s.readyF ∧
    a.getLsbD 8 = s.hbEn ∧ a.getLsbD 9 = decide (s.pc = s.apc + 1) ∧
    a.extractLsb' 10 10 = s.pc ∧ a.extractLsb' 20 10 = s.apc ∧ a.extractLsb' 30 2 = 0 ∧
    b.extractLsb' 0 16 = BitVec.ofNat 16 s.queue.length ∧ b.extractLsb' 16 8 = s.fault ∧
    b.extractLsb' 24 7 = s.devIdx ∧ b.getLsbD 31 = false

/-- Each command payload is transmitted with its checksum of R111's table, which is the checksum R110
computes, and is framed for device 3 (0) as the table shows; nothing else changes. That a payload of its
own is an `EV_TX` to `DEVIDX`, and to device index 0 for the topology request, is the model's choice
(log 1). -/
def Obligations.CommandPayloadsAreTransmitted : Prop :=
  ∀ s : State,
    (exec .cmdEndApi s =
        .next { s with events := s.events ++ [.tx s.devIdx [0x01, 0x02, 0x00] (some 0x60)] } ∧
      frame 3 [0x01, 0x02, 0x00] =
        [0xF0, 0x00, 0x21, 0x10, 0x77, 0x03, 0x01, 0x02, 0x00, 0x60, 0xF7]) ∧
    (exec .cmdBeginApi s =
        .next { s with events := s.events ++ [.tx s.devIdx [0x01, 0x00, 0x00] (some 0x5A)] } ∧
      frame 3 [0x01, 0x00, 0x00] =
        [0xF0, 0x00, 0x21, 0x10, 0x77, 0x03, 0x01, 0x00, 0x00, 0x5A, 0xF7]) ∧
    (exec .cmdHeartbeat s =
        .next { s with events := s.events ++ [.tx s.devIdx [0x01, 0x03, 0x00] (some 0x63)] } ∧
      frame 3 [0x01, 0x03, 0x00] =
        [0xF0, 0x00, 0x21, 0x10, 0x77, 0x03, 0x01, 0x03, 0x00, 0x63, 0xF7]) ∧
    (exec .cmdEnableMpe s =
        .next { s with events := s.events ++ [.tx s.devIdx [0x10, 0x02] (some 0x44)] } ∧
      frame 3 [0x10, 0x02] = [0xF0, 0x00, 0x21, 0x10, 0x77, 0x03, 0x10, 0x02, 0x44, 0xF7]) ∧
    (exec .cmdSaveDefault s =
        .next { s with events := s.events ++ [.tx s.devIdx [0x01, 0x05, 0x00] (some 0x69)] } ∧
      frame 3 [0x01, 0x05, 0x00] =
        [0xF0, 0x00, 0x21, 0x10, 0x77, 0x03, 0x01, 0x05, 0x00, 0x69, 0xF7]) ∧
    (exec .cmdReqTopology s =
        .next { s with events := s.events ++ [.tx 0 [0x01, 0x01, 0x00] (some 0x5D)] } ∧
      frame 0 [0x01, 0x01, 0x00] =
        [0xF0, 0x00, 0x21, 0x10, 0x77, 0x00, 0x01, 0x01, 0x00, 0x5D, 0xF7])

/-- R45: `LASTACKED` is 1 exactly when `PC` equals `APC` + 1 modulo 1024, across the wrap too; it is 1 at
reset. -/
def Obligations.LastAckedIsTestedModulo1024 : Prop :=
  (∀ s : State, s.lastAcked = true ↔ s.pc.toNat = (s.apc.toNat + 1) % 1024) ∧
  State.reset.lastAcked = true
end

