-- ==== Sys2Proof/Laws/Decode.lean ====
section
/-! SUPPORT. Fields and bit streams: a field written is the field read back. -/

namespace Sys2Proof

@[simp] theorem bitsOf_length (n v : Nat) : (bitsOf n v).length = n := by simp [bitsOf]

@[simp] theorem putField_length {w : Nat} (x : BitVec w) : (putField x).length = w := by
  simp [putField]

/-- Bit `k` of a field. -/
theorem bitsOf_getElem {n v k : Nat} (h : k < (bitsOf n v).length) :
    (bitsOf n v)[k] = v.testBit k := by simp [bitsOf]

theorem bitsOf_succ (n v : Nat) : bitsOf (n + 1) v = v.testBit 0 :: bitsOf n (v / 2) := by
  simp only [bitsOf, List.range_succ_eq_map, List.map_cons, List.map_map]
  congr 1
  exact List.map_congr_left fun k _ => by simp [Nat.testBit_succ]

/-- The number of a field's bits. -/
theorem ofBits_bitsOf (n v : Nat) : ofBits (bitsOf n v) = v % 2 ^ n := by
  induction n generalizing v with
  | zero => simp [bitsOf, ofBits, Nat.mod_one]
  | succ n ih =>
    rw [bitsOf_succ, ofBits, ih, Nat.pow_succ, Nat.mul_comm (2 ^ n) 2, Nat.mod_mul,
      Nat.testBit_zero]
    rcases Nat.mod_two_eq_zero_or_one v with h | h <;> simp [h]

@[simp] theorem ofBits_putField {w : Nat} (x : BitVec w) : ofBits (putField x) = x.toNat := by
  rw [putField, ofBits_bitsOf, Nat.mod_eq_of_lt x.isLt]

/-- A list of bits is below two to its length. -/
theorem ofBits_lt (bs : List Bool) : ofBits bs < 2 ^ bs.length := by
  induction bs with
  | nil => simp [ofBits]
  | cons b bs ih =>
    simp only [ofBits, List.length_cons, Nat.pow_succ]
    have := b.toNat_le
    omega

/-- Writing the number of a list of bits gives the list back. -/
theorem bitsOf_ofBits (bs : List Bool) : bitsOf bs.length (ofBits bs) = bs := by
  induction bs with
  | nil => rfl
  | cons b bs ih =>
    have h1 : (ofBits (b :: bs)).testBit 0 = b := by
      rw [Nat.testBit_zero, ofBits]; cases b <;> simp
    have h2 : ofBits (b :: bs) / 2 = ofBits bs := by
      have := b.toNat_le
      simp only [ofBits]; omega
    rw [List.length_cons, bitsOf_succ, h1, h2, ih]

/-- A field at the head of a stream is read back, and nothing of the stream after it is. -/
theorem getField_append {w n : Nat} (hn : n = w) (v : Nat) (rest : List Bool) :
    getField w (bitsOf n v ++ rest) = .ok (BitVec.ofNat w v, rest) := by
  subst hn
  rw [getField, if_neg (by simp), List.take_left' (bitsOf_length n v),
    List.drop_left' (bitsOf_length n v), ofBits_bitsOf]
  congr 2
  exact BitVec.eq_of_toNat_eq (by simp)

@[simp] theorem getField_putField {w : Nat} (x : BitVec w) (rest : List Bool) :
    getField w (putField x ++ rest) = .ok (x, rest) := by
  rw [putField, getField_append rfl]; simp

@[simp] theorem getField_bitsOf (w v : Nat) (rest : List Bool) :
    getField w (bitsOf w v ++ rest) = .ok (BitVec.ofNat w v, rest) := getField_append rfl v rest

/-- Whole bytes are read back. -/
@[simp] theorem getBytes_flatMap (data : List Byte) (rest : List Bool) :
    getBytes data.length (data.flatMap putField ++ rest) = .ok (data, rest) := by
  induction data with
  | nil => rfl
  | cons b data ih =>
    simp only [List.flatMap_cons, List.length_cons, getBytes, List.append_assoc,
      getField_putField]
    show (do let (rest, bs) ← getBytes data.length _; Except.ok (b :: rest, bs)) = _
    rw [ih]; rfl

/-- What one field read can do. -/
theorem getField_ok {w : Nat} {bs rest : List Bool} {x : BitVec w}
    (h : getField w bs = .ok (x, rest)) : bs = putField x ++ rest := by
  unfold getField at h
  split at h
  · cases h
  · rename_i hlen
    have hl : (bs.take w).length = w := by simp; omega
    cases h
    have : (BitVec.ofNat w (ofBits (bs.take w))).toNat = ofBits (bs.take w) := by
      have := ofBits_lt (bs.take w)
      rw [hl] at this
      simpa using Nat.mod_eq_of_lt this
    rw [putField, this]
    conv_lhs => rw [← List.take_append_drop w bs]
    congr 1
    conv_rhs => rw [← hl]
    rw [hl]
    have := bitsOf_ofBits (bs.take w)
    rw [hl] at this
    exact this.symm

end Sys2Proof
end

