-- ==== Sys2Proof/Laws/State.lean ====
section
/-! SUPPORT. One lemma per field per named update of the state, so that no proof unfolds an update. -/

namespace Sys2Proof.Machine

@[simp] theorem State.raise_params (s : State) (c : ErrCode) : (s.raise c).params = s.params := rfl
@[simp] theorem State.raise_fault (s : State) (c : ErrCode) : (s.raise c).fault = if s.fault = 0 then c.code else s.fault := rfl
@[simp] theorem State.raise_writers (s : State) (c : ErrCode) : (s.raise c).writers = s.writers := rfl
@[simp] theorem State.raise_sstate (s : State) (c : ErrCode) : (s.raise c).sstate = s.sstate := rfl
@[simp] theorem State.raise_stepReg (s : State) (c : ErrCode) : (s.raise c).stepReg = s.stepReg := rfl
@[simp] theorem State.raise_pending (s : State) (c : ErrCode) : (s.raise c).pending = s.pending := rfl
@[simp] theorem State.raise_pc (s : State) (c : ErrCode) : (s.raise c).pc = s.pc := rfl
@[simp] theorem State.raise_apc (s : State) (c : ErrCode) : (s.raise c).apc = s.apc := rfl
@[simp] theorem State.raise_readyF (s : State) (c : ErrCode) : (s.raise c).readyF = s.readyF := rfl
@[simp] theorem State.raise_hbEn (s : State) (c : ErrCode) : (s.raise c).hbEn = s.hbEn := rfl
@[simp] theorem State.raise_queue (s : State) (c : ErrCode) : (s.raise c).queue = s.queue := rfl
@[simp] theorem State.raise_devIdx (s : State) (c : ErrCode) : (s.raise c).devIdx = s.devIdx := rfl
@[simp] theorem State.raise_maxPkt (s : State) (c : ErrCode) : (s.raise c).maxPkt = s.maxPkt := rfl
@[simp] theorem State.raise_dev (s : State) (c : ErrCode) : (s.raise c).dev = s.dev := rfl
@[simp] theorem State.raise_inputs (s : State) (c : ErrCode) : (s.raise c).inputs = s.inputs := rfl
@[simp] theorem State.raise_outbound (s : State) (c : ErrCode) : (s.raise c).outbound = s.outbound := rfl
@[simp] theorem State.raise_response (s : State) (c : ErrCode) : (s.raise c).response = { status := c.code, result := .none } := rfl
@[simp] theorem State.raise_events (s : State) (c : ErrCode) : (s.raise c).events = s.events := rfl
@[simp] theorem State.raise_freeCount (s : State) (c : ErrCode) : (s.raise c).freeCount = s.freeCount := rfl

@[simp] theorem State.respondOk_params (s : State) (r : Result) : (s.respondOk r).params = s.params := rfl
@[simp] theorem State.respondOk_fault (s : State) (r : Result) : (s.respondOk r).fault = s.fault := rfl
@[simp] theorem State.respondOk_writers (s : State) (r : Result) : (s.respondOk r).writers = s.writers := rfl
@[simp] theorem State.respondOk_sstate (s : State) (r : Result) : (s.respondOk r).sstate = s.sstate := rfl
@[simp] theorem State.respondOk_stepReg (s : State) (r : Result) : (s.respondOk r).stepReg = s.stepReg := rfl
@[simp] theorem State.respondOk_pending (s : State) (r : Result) : (s.respondOk r).pending = s.pending := rfl
@[simp] theorem State.respondOk_pc (s : State) (r : Result) : (s.respondOk r).pc = s.pc := rfl
@[simp] theorem State.respondOk_apc (s : State) (r : Result) : (s.respondOk r).apc = s.apc := rfl
@[simp] theorem State.respondOk_readyF (s : State) (r : Result) : (s.respondOk r).readyF = s.readyF := rfl
@[simp] theorem State.respondOk_hbEn (s : State) (r : Result) : (s.respondOk r).hbEn = s.hbEn := rfl
@[simp] theorem State.respondOk_queue (s : State) (r : Result) : (s.respondOk r).queue = s.queue := rfl
@[simp] theorem State.respondOk_devIdx (s : State) (r : Result) : (s.respondOk r).devIdx = s.devIdx := rfl
@[simp] theorem State.respondOk_maxPkt (s : State) (r : Result) : (s.respondOk r).maxPkt = s.maxPkt := rfl
@[simp] theorem State.respondOk_dev (s : State) (r : Result) : (s.respondOk r).dev = s.dev := rfl
@[simp] theorem State.respondOk_inputs (s : State) (r : Result) : (s.respondOk r).inputs = s.inputs := rfl
@[simp] theorem State.respondOk_outbound (s : State) (r : Result) : (s.respondOk r).outbound = s.outbound := rfl
@[simp] theorem State.respondOk_response (s : State) (r : Result) : (s.respondOk r).response = { status := 0x00, result := r } := rfl
@[simp] theorem State.respondOk_events (s : State) (r : Result) : (s.respondOk r).events = s.events := rfl
@[simp] theorem State.respondOk_freeCount (s : State) (r : Result) : (s.respondOk r).freeCount = s.freeCount := rfl

@[simp] theorem State.emit_params (s : State) (e : Event) : (s.emit e).params = s.params := rfl
@[simp] theorem State.emit_fault (s : State) (e : Event) : (s.emit e).fault = s.fault := rfl
@[simp] theorem State.emit_writers (s : State) (e : Event) : (s.emit e).writers = s.writers := rfl
@[simp] theorem State.emit_sstate (s : State) (e : Event) : (s.emit e).sstate = s.sstate := rfl
@[simp] theorem State.emit_stepReg (s : State) (e : Event) : (s.emit e).stepReg = s.stepReg := rfl
@[simp] theorem State.emit_pending (s : State) (e : Event) : (s.emit e).pending = s.pending := rfl
@[simp] theorem State.emit_pc (s : State) (e : Event) : (s.emit e).pc = s.pc := rfl
@[simp] theorem State.emit_apc (s : State) (e : Event) : (s.emit e).apc = s.apc := rfl
@[simp] theorem State.emit_readyF (s : State) (e : Event) : (s.emit e).readyF = s.readyF := rfl
@[simp] theorem State.emit_hbEn (s : State) (e : Event) : (s.emit e).hbEn = s.hbEn := rfl
@[simp] theorem State.emit_queue (s : State) (e : Event) : (s.emit e).queue = s.queue := rfl
@[simp] theorem State.emit_devIdx (s : State) (e : Event) : (s.emit e).devIdx = s.devIdx := rfl
@[simp] theorem State.emit_maxPkt (s : State) (e : Event) : (s.emit e).maxPkt = s.maxPkt := rfl
@[simp] theorem State.emit_dev (s : State) (e : Event) : (s.emit e).dev = s.dev := rfl
@[simp] theorem State.emit_inputs (s : State) (e : Event) : (s.emit e).inputs = s.inputs := rfl
@[simp] theorem State.emit_outbound (s : State) (e : Event) : (s.emit e).outbound = s.outbound := rfl
@[simp] theorem State.emit_response (s : State) (e : Event) : (s.emit e).response = s.response := rfl
@[simp] theorem State.emit_events (s : State) (e : Event) : (s.emit e).events = s.events ++ [e] := rfl
@[simp] theorem State.emit_freeCount (s : State) (e : Event) : (s.emit e).freeCount = s.freeCount := rfl

@[simp] theorem State.setWriter_params (s : State) (h : BitVec 8) (wr : Writer) : (s.setWriter h wr).params = s.params := rfl
@[simp] theorem State.setWriter_fault (s : State) (h : BitVec 8) (wr : Writer) : (s.setWriter h wr).fault = s.fault := rfl
@[simp] theorem State.setWriter_writers (s : State) (h : BitVec 8) (wr : Writer) : (s.setWriter h wr).writers = s.writers.set h.toNat wr := rfl
@[simp] theorem State.setWriter_sstate (s : State) (h : BitVec 8) (wr : Writer) : (s.setWriter h wr).sstate = s.sstate := rfl
@[simp] theorem State.setWriter_stepReg (s : State) (h : BitVec 8) (wr : Writer) : (s.setWriter h wr).stepReg = s.stepReg := rfl
@[simp] theorem State.setWriter_pending (s : State) (h : BitVec 8) (wr : Writer) : (s.setWriter h wr).pending = s.pending := rfl
@[simp] theorem State.setWriter_pc (s : State) (h : BitVec 8) (wr : Writer) : (s.setWriter h wr).pc = s.pc := rfl
@[simp] theorem State.setWriter_apc (s : State) (h : BitVec 8) (wr : Writer) : (s.setWriter h wr).apc = s.apc := rfl
@[simp] theorem State.setWriter_readyF (s : State) (h : BitVec 8) (wr : Writer) : (s.setWriter h wr).readyF = s.readyF := rfl
@[simp] theorem State.setWriter_hbEn (s : State) (h : BitVec 8) (wr : Writer) : (s.setWriter h wr).hbEn = s.hbEn := rfl
@[simp] theorem State.setWriter_queue (s : State) (h : BitVec 8) (wr : Writer) : (s.setWriter h wr).queue = s.queue := rfl
@[simp] theorem State.setWriter_devIdx (s : State) (h : BitVec 8) (wr : Writer) : (s.setWriter h wr).devIdx = s.devIdx := rfl
@[simp] theorem State.setWriter_maxPkt (s : State) (h : BitVec 8) (wr : Writer) : (s.setWriter h wr).maxPkt = s.maxPkt := rfl
@[simp] theorem State.setWriter_dev (s : State) (h : BitVec 8) (wr : Writer) : (s.setWriter h wr).dev = s.dev := rfl
@[simp] theorem State.setWriter_inputs (s : State) (h : BitVec 8) (wr : Writer) : (s.setWriter h wr).inputs = s.inputs := rfl
@[simp] theorem State.setWriter_outbound (s : State) (h : BitVec 8) (wr : Writer) : (s.setWriter h wr).outbound = s.outbound := rfl
@[simp] theorem State.setWriter_response (s : State) (h : BitVec 8) (wr : Writer) : (s.setWriter h wr).response = s.response := rfl
@[simp] theorem State.setWriter_events (s : State) (h : BitVec 8) (wr : Writer) : (s.setWriter h wr).events = s.events := rfl
@[simp] theorem State.setWriter_freeCount (s : State) (h : BitVec 8) (wr : Writer) : (s.setWriter h wr).freeCount = s.freeCount := rfl

@[simp] theorem State.coreReset_params (s : State) : (s.coreReset).params = s.params := rfl
@[simp] theorem State.coreReset_fault (s : State) : (s.coreReset).fault = 0x00 := rfl
@[simp] theorem State.coreReset_writers (s : State) : (s.coreReset).writers = List.replicate s.params.nw Writer.empty := rfl
@[simp] theorem State.coreReset_sstate (s : State) : (s.coreReset).sstate = .closed := rfl
@[simp] theorem State.coreReset_stepReg (s : State) : (s.coreReset).stepReg = 0 := rfl
@[simp] theorem State.coreReset_pending (s : State) : (s.coreReset).pending = false := rfl
@[simp] theorem State.coreReset_pc (s : State) : (s.coreReset).pc = 1 := rfl
@[simp] theorem State.coreReset_apc (s : State) : (s.coreReset).apc = 0 := rfl
@[simp] theorem State.coreReset_readyF (s : State) : (s.coreReset).readyF = false := rfl
@[simp] theorem State.coreReset_hbEn (s : State) : (s.coreReset).hbEn = false := rfl
@[simp] theorem State.coreReset_queue (s : State) : (s.coreReset).queue = [] := rfl
@[simp] theorem State.coreReset_devIdx (s : State) : (s.coreReset).devIdx = Config.resetDevIdx := rfl
@[simp] theorem State.coreReset_maxPkt (s : State) : (s.coreReset).maxPkt = Config.maxPacketBytesDefault := rfl
@[simp] theorem State.coreReset_dev (s : State) : (s.coreReset).dev = s.dev := rfl
@[simp] theorem State.coreReset_inputs (s : State) : (s.coreReset).inputs = s.inputs := rfl
@[simp] theorem State.coreReset_outbound (s : State) : (s.coreReset).outbound = s.outbound := rfl
@[simp] theorem State.coreReset_response (s : State) : (s.coreReset).response = Response.initial := rfl
@[simp] theorem State.coreReset_events (s : State) : (s.coreReset).events = s.events := rfl
@[simp] theorem State.coreReset_freeCount (s : State) : (s.coreReset).freeCount = s.freeCount := rfl

@[simp] theorem State.deliverFirst_params (s : State) (l : Layer) (bits : List Bool) : (s.deliverFirst l bits).params = s.params := rfl
@[simp] theorem State.deliverFirst_fault (s : State) (l : Layer) (bits : List Bool) : (s.deliverFirst l bits).fault = s.fault := rfl
@[simp] theorem State.deliverFirst_writers (s : State) (l : Layer) (bits : List Bool) : (s.deliverFirst l bits).writers = s.writers := rfl
@[simp] theorem State.deliverFirst_sstate (s : State) (l : Layer) (bits : List Bool) : (s.deliverFirst l bits).sstate = s.sstate := rfl
@[simp] theorem State.deliverFirst_stepReg (s : State) (l : Layer) (bits : List Bool) : (s.deliverFirst l bits).stepReg = s.stepReg := rfl
@[simp] theorem State.deliverFirst_pending (s : State) (l : Layer) (bits : List Bool) : (s.deliverFirst l bits).pending = s.pending := rfl
@[simp] theorem State.deliverFirst_pc (s : State) (l : Layer) (bits : List Bool) : (s.deliverFirst l bits).pc = s.pc := rfl
@[simp] theorem State.deliverFirst_apc (s : State) (l : Layer) (bits : List Bool) : (s.deliverFirst l bits).apc = s.apc := rfl
@[simp] theorem State.deliverFirst_readyF (s : State) (l : Layer) (bits : List Bool) : (s.deliverFirst l bits).readyF = s.readyF := rfl
@[simp] theorem State.deliverFirst_hbEn (s : State) (l : Layer) (bits : List Bool) : (s.deliverFirst l bits).hbEn = s.hbEn := rfl
@[simp] theorem State.deliverFirst_queue (s : State) (l : Layer) (bits : List Bool) : (s.deliverFirst l bits).queue = s.queue := rfl
@[simp] theorem State.deliverFirst_devIdx (s : State) (l : Layer) (bits : List Bool) : (s.deliverFirst l bits).devIdx = s.devIdx := rfl
@[simp] theorem State.deliverFirst_maxPkt (s : State) (l : Layer) (bits : List Bool) : (s.deliverFirst l bits).maxPkt = s.maxPkt := rfl
@[simp] theorem State.deliverFirst_dev (s : State) (l : Layer) (bits : List Bool) : (s.deliverFirst l bits).dev = deviceFor l s.dev := rfl
@[simp] theorem State.deliverFirst_inputs (s : State) (l : Layer) (bits : List Bool) : (s.deliverFirst l bits).inputs = inputsWith l bits s.inputs := rfl
@[simp] theorem State.deliverFirst_outbound (s : State) (l : Layer) (bits : List Bool) : (s.deliverFirst l bits).outbound = outboundWith l bits s.outbound := rfl
@[simp] theorem State.deliverFirst_response (s : State) (l : Layer) (bits : List Bool) : (s.deliverFirst l bits).response = s.response := rfl
@[simp] theorem State.deliverFirst_events (s : State) (l : Layer) (bits : List Bool) : (s.deliverFirst l bits).events = s.events := rfl
@[simp] theorem State.deliverFirst_freeCount (s : State) (l : Layer) (bits : List Bool) : (s.deliverFirst l bits).freeCount = s.freeCount := rfl

@[simp] theorem awaitAck_params (s : State) : (awaitAck s).params = s.params := rfl
@[simp] theorem awaitAck_fault (s : State) : (awaitAck s).fault = s.fault := rfl
@[simp] theorem awaitAck_writers (s : State) : (awaitAck s).writers = s.writers := rfl
@[simp] theorem awaitAck_sstate (s : State) : (awaitAck s).sstate = s.sstate := rfl
@[simp] theorem awaitAck_stepReg (s : State) : (awaitAck s).stepReg = s.stepReg := rfl
@[simp] theorem awaitAck_pending (s : State) : (awaitAck s).pending = true := rfl
@[simp] theorem awaitAck_pc (s : State) : (awaitAck s).pc = s.pc := rfl
@[simp] theorem awaitAck_apc (s : State) : (awaitAck s).apc = s.apc := rfl
@[simp] theorem awaitAck_readyF (s : State) : (awaitAck s).readyF = s.readyF := rfl
@[simp] theorem awaitAck_hbEn (s : State) : (awaitAck s).hbEn = s.hbEn := rfl
@[simp] theorem awaitAck_queue (s : State) : (awaitAck s).queue = s.queue := rfl
@[simp] theorem awaitAck_devIdx (s : State) : (awaitAck s).devIdx = s.devIdx := rfl
@[simp] theorem awaitAck_maxPkt (s : State) : (awaitAck s).maxPkt = s.maxPkt := rfl
@[simp] theorem awaitAck_dev (s : State) : (awaitAck s).dev = s.dev := rfl
@[simp] theorem awaitAck_inputs (s : State) : (awaitAck s).inputs = s.inputs := rfl
@[simp] theorem awaitAck_outbound (s : State) : (awaitAck s).outbound = s.outbound := rfl
@[simp] theorem awaitAck_response (s : State) : (awaitAck s).response = s.response := rfl
@[simp] theorem awaitAck_events (s : State) : (awaitAck s).events = s.events := rfl
@[simp] theorem awaitAck_freeCount (s : State) : (awaitAck s).freeCount = s.freeCount := rfl

@[simp] theorem stall_params (s : State) : (stall s).params = s.params := rfl
@[simp] theorem stall_fault (s : State) : (stall s).fault = s.fault := rfl
@[simp] theorem stall_writers (s : State) : (stall s).writers = s.writers := rfl
@[simp] theorem stall_sstate (s : State) : (stall s).sstate = s.sstate := rfl
@[simp] theorem stall_stepReg (s : State) : (stall s).stepReg = s.stepReg := rfl
@[simp] theorem stall_pending (s : State) : (stall s).pending = s.pending := rfl
@[simp] theorem stall_pc (s : State) : (stall s).pc = s.apc + 1 := rfl
@[simp] theorem stall_apc (s : State) : (stall s).apc = s.apc := rfl
@[simp] theorem stall_readyF (s : State) : (stall s).readyF = s.readyF := rfl
@[simp] theorem stall_hbEn (s : State) : (stall s).hbEn = s.hbEn := rfl
@[simp] theorem stall_queue (s : State) : (stall s).queue = s.queue := rfl
@[simp] theorem stall_devIdx (s : State) : (stall s).devIdx = s.devIdx := rfl
@[simp] theorem stall_maxPkt (s : State) : (stall s).maxPkt = s.maxPkt := rfl
@[simp] theorem stall_dev (s : State) : (stall s).dev = s.dev := rfl
@[simp] theorem stall_inputs (s : State) : (stall s).inputs = s.inputs := rfl
@[simp] theorem stall_outbound (s : State) : (stall s).outbound = s.outbound := rfl
@[simp] theorem stall_response (s : State) : (stall s).response = s.response := rfl
@[simp] theorem stall_events (s : State) : (stall s).events = s.events ++ [.stuck s.apc] := rfl
@[simp] theorem stall_freeCount (s : State) : (stall s).freeCount = s.freeCount := rfl

@[simp] theorem Device.write_display (d : Device) (vs : List Byte) : (d.write vs).display = d.display.writeRun d.cur vs := rfl
@[simp] theorem Device.write_cur (d : Device) (vs : List Byte) : (d.write vs).cur = d.cur + vs.length := rfl
@[simp] theorem Device.write_last (d : Device) (vs : List Byte) : (d.write vs).last = d.last := rfl
@[simp] theorem Device.write_inPacket (d : Device) (vs : List Byte) : (d.write vs).inPacket = d.inPacket := rfl

@[simp] theorem Device.skip_display (d : Device) (n : Nat) : (d.skip n).display = d.display := rfl
@[simp] theorem Device.skip_cur (d : Device) (n : Nat) : (d.skip n).cur = d.cur + n := rfl
@[simp] theorem Device.skip_last (d : Device) (n : Nat) : (d.skip n).last = d.last := rfl
@[simp] theorem Device.skip_inPacket (d : Device) (n : Nat) : (d.skip n).inPacket = d.inPacket := rfl

@[simp] theorem Device.startPacket_display (d : Device) : (d.startPacket).display = d.display := rfl
@[simp] theorem Device.startPacket_cur (d : Device) : (d.startPacket).cur = 0 := rfl
@[simp] theorem Device.startPacket_last (d : Device) : (d.startPacket).last = none := rfl
@[simp] theorem Device.startPacket_inPacket (d : Device) : (d.startPacket).inPacket = true := rfl

@[simp] theorem Device.endPacket_display (d : Device) : (d.endPacket).display = d.display := rfl
@[simp] theorem Device.endPacket_cur (d : Device) : (d.endPacket).cur = d.cur := rfl
@[simp] theorem Device.endPacket_last (d : Device) : (d.endPacket).last = d.last := rfl
@[simp] theorem Device.endPacket_inPacket (d : Device) : (d.endPacket).inPacket = false := rfl

end Sys2Proof.Machine
end

