-- ==== Sys2Proof/Laws/Ops.lean ====
section
/-! SUPPORT. What each shared operation can do, said once. -/

namespace Sys2Proof.Machine

/-- Work in two parts ends well when both do. -/
theorem bind_ok {α β : Type} {x : Except Stop α} {f : α → Except Stop β} {b : β} :
    (x >>= f) = .ok b ↔ ∃ a, x = .ok a ∧ f a = .ok b := by
  rcases x with e | a <;> simp [bind, Except.bind]

/-- How work that is finished goes on: it is committed, or its fault is raised on the state before. -/
theorem finish_next {s t : State} {r : Except Stop State} :
    finish s r = .next t ↔ r = .ok t ∨ ∃ c, r = .error (.raise c) ∧ t = s.raise c := by
  rcases r with (c | f | x) | u <;> simp [finish, eq_comm]

/-- A request ends in a next state with its result, or with a fault raised on the state before. -/
theorem answer_next {s t : State} {r : Except Stop (State × Result)} :
    answer s r = .next t ↔
      (∃ u res, r = .ok (u, res) ∧ t = u.respondOk res) ∨
        ∃ c, r = .error (.raise c) ∧ t = s.raise c := by
  rcases r with (c | f | x) | ⟨u, res⟩ <;> simp [answer, finish, Except.map, eq_comm]

@[simp] theorem answer_ok (s u : State) (res : Result) :
    answer s (.ok (u, res)) = .next (u.respondOk res) := rfl

@[simp] theorem answer_raise (s : State) (c : ErrCode) :
    answer s (.error (.raise c)) = .next (s.raise c) := rfl

@[simp] theorem answer_stuck (s : State) (f : Fault) : answer s (.error (.stuck f)) = .fault f := rfl

@[simp] theorem answer_refuse (s : State) (x : Refusal) :
    answer s (.error (.refuse x)) = .refused x := rfl

/-- A request is refused exactly where its work is. -/
theorem answer_refused (s : State) (r : Except Stop (State × Result)) (x : Refusal) :
    answer s r = .refused x ↔ r = .error (.refuse x) := by
  rcases r with (c | f | y) | ⟨u, res⟩ <;> simp [answer, finish, Except.map]

/-- A handle below `NW` names its writer. -/
theorem getWriter_ok {s : State} {h : BitVec 8} (hh : h.toNat < s.params.nw) :
    getWriter s h = .ok (s.writers.getD h.toNat Writer.empty) := if_pos hh

/-- A handle at or past `NW` raises `E_ARG` (R150). -/
theorem getWriter_error {s : State} {h : BitVec 8} (hh : s.params.nw ≤ h.toNat) :
    getWriter s h = .error (.raise .arg) := if_neg (by omega)

/-- What a handle check can do. -/
theorem getWriter_cases (s : State) (h : BitVec 8) :
    (h.toNat < s.params.nw ∧ getWriter s h = .ok (s.writers.getD h.toNat Writer.empty)) ∨
      (s.params.nw ≤ h.toNat ∧ getWriter s h = .error (.raise .arg)) := by
  rcases Nat.lt_or_ge h.toNat s.params.nw with hh | hh
  · exact .inl ⟨hh, getWriter_ok hh⟩
  · exact .inr ⟨hh, getWriter_error hh⟩

/-- A transmit with no expected checksum always sends (R301). -/
@[simp] theorem transmit_none (s : State) (d : BitVec 7) (p : List Byte) :
    transmit s d p none = .ok (s.emit (.tx d p none)) := rfl

/-- What a transmit can do: send exactly one event, or raise `E_CHECKSUM` (R301). -/
theorem transmit_cases (s : State) (d : BitVec 7) (p : List Byte) (e : Option (BitVec 7)) :
    transmit s d p e = .ok (s.emit (.tx d p e)) ∨ transmit s d p e = .error (.raise .checksum) := by
  rcases e with _ | e
  · exact .inl rfl
  · by_cases h : checksum p = e <;> simp [transmit, h]

/-- A queued head is sent to `DEVIDX` and counted by `PC` (R302). -/
theorem sendQueuedHead_cons {s : State} {p : List Byte} {rest : List (List Byte)}
    (h : s.queue = p :: rest) :
    sendQueuedHead s =
      .ok { s with
        queue := rest
        pc := s.pc + 1
        events := s.events ++ [.tx s.devIdx p none] } := by
  unfold sendQueuedHead
  rw [h]
  rfl

@[simp] theorem sendQueuedHead_nil {s : State} (h : s.queue = []) : sendQueuedHead s = .ok s := by
  unfold sendQueuedHead
  rw [h]

/-- A read inside the bound answers the field (R160). -/
theorem readBits_some {f : Nat} {data : List Byte} {p w : Nat} (h : p + w ≤ f * data.length) :
    readBits f data p w = some (BitVec.ofNat 32 (readField data p w)) := if_neg (by omega)

/-- A read past the bound answers nothing (R160). -/
theorem readBits_none {f : Nat} {data : List Byte} {p w : Nat} (h : f * data.length < p + w) :
    readBits f data p w = none := if_pos h

/-- The fault codes are distinct from `OK` and from one another (R360). -/
theorem ErrCode.code_inj {a b : ErrCode} : a.code = b.code ↔ a = b := by
  cases a <;> cases b <;> decide

theorem ErrCode.code_ne_zero (c : ErrCode) : c.code ≠ 0x00 := by cases c <;> decide

end Sys2Proof.Machine
end

