-- ==== Sys2Proof/Laws/Writer.lean ====
section
/-! SUPPORT. The writer's bit store: what each stream bit is after an append or a roll back, and that
both keep R33. -/

namespace Sys2Proof.Machine

/-! ### Bytes -/

theorem getD_setByte (buf : List Byte) (i j : Nat) (x : Byte) :
    (setByte buf i x).getD j 0 = if j = i then x else buf.getD j 0 := by
  induction buf generalizing i j with
  | nil =>
    induction i generalizing j with
    | zero => cases j <;> simp [setByte]
    | succ i ih =>
      cases j with
      | zero => simp [setByte]
      | succ j => simpa [setByte] using ih j
  | cons b bs ih =>
    cases i with
    | zero => cases j <;> simp [setByte]
    | succ i =>
      cases j with
      | zero => simp [setByte]
      | succ j => simpa [setByte] using ih i j

theorem length_setByte (buf : List Byte) (i : Nat) (x : Byte) :
    (setByte buf i x).length = max buf.length (i + 1) := by
  induction buf generalizing i with
  | nil =>
    induction i with
    | zero => simp [setByte]
    | succ i ih => simp [setByte, ih]
  | cons b bs ih =>
    cases i with
    | zero => simp [setByte]
    | succ i => simp [setByte, ih]

theorem mem_setByte {buf : List Byte} {i : Nat} {x y : Byte} (h : y ∈ setByte buf i x) :
    y = x ∨ y = 0 ∨ y ∈ buf := by
  induction buf generalizing i with
  | nil =>
    induction i with
    | zero => simp_all [setByte]
    | succ i ih =>
      rcases List.mem_cons.1 h with h | h
      · exact .inr (.inl h)
      · exact ih h
  | cons b bs ih =>
    cases i with
    | zero => rcases List.mem_cons.1 h with h | h <;> simp [h]
    | succ i =>
      rcases List.mem_cons.1 h with h | h
      · simp [h]
      · rcases ih h with h | h | h <;> simp [h]

/-- A byte with one bit written: that bit is the new one and no other changes. -/
theorem getLsbD_putBit (b : Byte) (k i : Nat) (v : Bool) (hk : k < 8) :
    (putBit b k v).getLsbD i = if i = k then v else b.getLsbD i := by
  rcases Nat.lt_or_ge i 8 with hi | hi
  · cases v <;> interval_cases k <;> interval_cases i <;> simp [putBit]
  · have : i ≠ k := by omega
    simp [this, BitVec.getLsbD_of_ge _ i hi]

theorem putBit_clean {b : Byte} {k : Nat} {v : Bool} (hb : b.toNat < 128) (hk : k < 7) :
    (putBit b k v).toNat < 128 := by
  have h7 : (putBit b k v).getLsbD 7 = false := by
    rw [getLsbD_putBit b k 7 v (by omega), if_neg (by omega), BitVec.getLsbD,
      Nat.testBit_lt_two_pow hb]
  by_contra hge
  have := (putBit b k v).isLt
  have : (putBit b k v).toNat.testBit 7 = true := by
    rw [Nat.testBit_eq_decide_div_mod_eq]
    exact decide_eq_true (by omega)
  rw [BitVec.getLsbD] at h7
  simp_all

/-! ### Stream bits -/

/-- One stream bit written: it is the new one and no other changes (R152). -/
theorem bitAt_setStreamBit (buf : List Byte) (i j : Nat) (v : Bool) :
    bitAt (setStreamBit buf i v) j = if j = i then v else bitAt buf j := by
  unfold bitAt setStreamBit
  rw [getD_setByte]
  by_cases hd : j / 7 = i / 7
  · rw [if_pos hd, getLsbD_putBit _ _ _ _ (by omega), hd]
    by_cases hm : j % 7 = i % 7
    · rw [if_pos hm, if_pos (by omega)]
    · rw [if_neg hm, if_neg (by rintro rfl; exact hm rfl)]
  · rw [if_neg hd, if_neg (by rintro rfl; exact hd rfl)]

/-- A run of stream bits written: those bits are the new ones and no other changes (R152). -/
theorem bitAt_storeBits (buf : List Byte) (q : Nat) (bs : List Bool) (j : Nat) :
    bitAt (storeBits buf q bs) j =
      if q ≤ j ∧ j < q + bs.length then bs.getD (j - q) false else bitAt buf j := by
  induction bs generalizing buf q with
  | nil => simp only [storeBits, List.length_nil]; rw [if_neg (by omega)]
  | cons b bs ih =>
    simp only [storeBits, ih, bitAt_setStreamBit, List.length_cons]
    by_cases h1 : q + 1 ≤ j ∧ j < q + 1 + bs.length
    · rw [if_pos h1, if_pos (by omega), show j - q = (j - (q + 1)) + 1 by omega,
        List.getD_cons_succ]
    · rw [if_neg h1]
      by_cases h2 : j = q
      · subst h2; simp
      · rw [if_neg h2, if_neg (by omega)]

theorem length_storeBits {buf : List Byte} {q : Nat} (bs : List Bool)
    (h : buf.length = bytesFor q) : (storeBits buf q bs).length = bytesFor (q + bs.length) := by
  induction bs generalizing buf q with
  | nil => exact h
  | cons b bs ih =>
    rw [storeBits, ih, List.length_cons, show q + 1 + bs.length = q + (bs.length + 1) by omega]
    rw [setStreamBit, length_setByte, h]
    simp only [bytesFor]
    omega

theorem storeBits_clean {buf : List Byte} (q : Nat) (bs : List Bool)
    (h : ∀ b ∈ buf, b.toNat < 128) : ∀ b ∈ storeBits buf q bs, b.toNat < 128 := by
  induction bs generalizing buf q with
  | nil => exact h
  | cons v bs ih =>
    refine ih (q + 1) fun b hb => ?_
    have hg : (buf.getD (q / 7) 0).toNat < 128 := by
      rcases Nat.lt_or_ge (q / 7) buf.length with hlt | hge
      · rw [List.getD_eq_getElem _ _ hlt]; exact h _ (List.getElem_mem hlt)
      · rw [List.getD_eq_default _ _ hge]; decide
    rcases mem_setByte hb with rfl | rfl | hb
    · exact putBit_clean hg (by omega)
    · decide
    · exact h b hb

/-! ### Writers -/

/-- R33 as propositions: clean bytes, exactly the occupied ones held, zero past the cursor, within
`WCAP`, and `WNBIT` in 0..6. -/
theorem Writer.wf_iff {wcap : Nat} {wr : Writer} :
    wr.wf wcap = true ↔
      (∀ b ∈ wr.buf, b.toNat < 128) ∧ wr.buf.length = bytesFor wr.bitCount ∧
        (∀ j, wr.bitCount ≤ j → bitAt wr.buf j = false) ∧ bytesFor wr.bitCount ≤ wcap ∧
        wr.nbit.toNat ≤ 6 := by
  have hsz : wr.nbit.toNat ≤ 6 → wr.size = bytesFor wr.bitCount := by
    intro h
    simp only [Writer.size, bytesFor, Writer.bitCount]
    split <;> omega
  simp only [Writer.wf, Bool.and_eq_true, sevenBitClean, List.all_eq_true, decide_eq_true_eq,
    List.mem_range, Bool.or_eq_true, Bool.not_eq_true']
  constructor
  · rintro ⟨⟨⟨⟨h1, h2⟩, h3⟩, h4⟩, h5⟩
    rw [hsz h5] at h2 h4
    refine ⟨h1, h2, fun j hj => ?_, h4, h5⟩
    rcases Nat.lt_or_ge j (7 * wr.nb + 7) with hlt | hge
    · have hb : 7 * wr.nb + wr.nbit.toNat ≤ j := hj
      rcases h3 (j - 7 * wr.nb) (by omega) with h | h
      · omega
      · rwa [show 7 * wr.nb + (j - 7 * wr.nb) = j by omega] at h
    · rw [bitAt, List.getD_eq_default]
      · simp
      · rw [h2, bytesFor, Writer.bitCount]; omega
  · rintro ⟨h1, h2, h3, h4, h5⟩
    rw [hsz h5]
    refine ⟨⟨⟨⟨h1, h2⟩, fun k hk => ?_⟩, h4⟩, h5⟩
    rcases Nat.lt_or_ge k wr.nbit.toNat with hlt | hge
    · exact .inl hlt
    · exact .inr (h3 _ (by rw [Writer.bitCount]; omega))

@[simp] theorem Writer.append_bitCount (wr : Writer) (bs : List Bool) :
    (wr.append bs).bitCount = wr.bitCount + bs.length := by
  simp only [Writer.append, Writer.bitCount, BitVec.toNat_ofNat]
  omega

/-- Every stream bit after an append (R152). -/
theorem Writer.append_bit (wr : Writer) (bs : List Bool) (j : Nat) :
    bitAt (wr.append bs).buf j =
      if wr.bitCount ≤ j ∧ j < wr.bitCount + bs.length then bs.getD (j - wr.bitCount) false
      else bitAt wr.buf j := bitAt_storeBits _ _ _ _

/-- An append that does not overflow keeps R33. -/
theorem Writer.append_wf {wcap : Nat} {wr : Writer} {bs : List Bool} (h : wr.wf wcap = true)
    (ho : wr.overflows bs.length wcap = false) : (wr.append bs).wf wcap = true := by
  obtain ⟨h1, h2, h3, _, _⟩ := Writer.wf_iff.1 h
  refine Writer.wf_iff.2 ⟨storeBits_clean _ _ h1, ?_, fun j hj => ?_, ?_, ?_⟩
  · rw [Writer.append_bitCount]; exact length_storeBits bs h2
  · rw [Writer.append_bitCount] at hj
    rw [Writer.append_bit, if_neg (by omega)]
    exact h3 j (by omega)
  · rw [Writer.append_bitCount]
    simpa [Writer.overflows] using ho
  · simp only [Writer.append, BitVec.toNat_ofNat]; omega

/-- The empty writer keeps R33. -/
theorem Writer.empty_wf (wcap : Nat) : Writer.empty.wf wcap = true :=
  Writer.wf_iff.2 ⟨by simp [Writer.empty], rfl, by simp [Writer.empty, bitAt], by
    simp [Writer.empty, Writer.bitCount, bytesFor], by simp [Writer.empty]⟩

/-- Two buffers that hold the same stream bits, of the same length and 7-bit-clean, are equal. -/
theorem buf_ext {a b : List Byte} (hl : a.length = b.length) (ha : ∀ x ∈ a, x.toNat < 128)
    (hb : ∀ x ∈ b, x.toNat < 128) (h : ∀ j, bitAt a j = bitAt b j) : a = b := by
  refine List.ext_getElem hl fun i h1 h2 => ?_
  refine BitVec.eq_of_getLsbD_eq fun k hk => ?_
  have hk' : k < 7 ∨ k = 7 := by omega
  rcases hk' with hk' | rfl
  · have := h (7 * i + k)
    rw [bitAt, bitAt, show (7 * i + k) / 7 = i by omega, show (7 * i + k) % 7 = k by omega,
      List.getD_eq_getElem _ _ h1, List.getD_eq_getElem _ _ h2] at this
    exact this
  · rw [BitVec.getLsbD, BitVec.getLsbD, Nat.testBit_lt_two_pow (ha _ (List.getElem_mem h1)),
      Nat.testBit_lt_two_pow (hb _ (List.getElem_mem h2))]

/-- What a roll back's buffer holds: the bits before `t`, and 0 from there on (R157). -/
theorem bitAt_clearFrom (buf : List Byte) (t j : Nat) :
    bitAt (clearFrom buf t) j = if j < t then bitAt buf j else false := by
  unfold clearFrom
  split
  · rename_i ht
    unfold bitAt
    rcases Nat.lt_or_ge (j / 7) (t / 7) with hlt | hge
    · rw [if_pos (by omega)]
      simp only [List.getD_eq_getElem?_getD, List.getElem?_take, if_pos hlt]
    · rw [if_neg (by omega)]
      rw [List.getD_eq_default _ _ (by rw [List.length_take]; omega)]; simp
  · rename_i ht
    have hlen : (buf.take (t / 7)).length ≤ t / 7 := by rw [List.length_take]; omega
    unfold bitAt
    rcases Nat.lt_or_ge (j / 7) (t / 7) with hlt | hge
    · rw [if_pos (by omega)]
      by_cases hb : j / 7 < buf.length
      · rw [List.getD_append _ _ _ _ (by rw [List.length_take]; omega)]
        simp only [List.getD_eq_getElem?_getD, List.getElem?_take, if_pos hlt]
      · have hz : buf.getD (t / 7) 0 = 0 := List.getD_eq_default _ _ (by omega)
        rw [hz, List.getD_append_right _ _ _ _ (by rw [List.length_take]; omega),
          List.getD_eq_default buf _ (by omega)]
        rcases Nat.eq_zero_or_pos (j / 7 - (buf.take (t / 7)).length) with h | h
        · rw [h]; simp
        · rw [List.getD_eq_default _ _ (by rw [List.length_singleton]; exact h)]
    · rcases Nat.eq_or_lt_of_le hge with heq | hgt
      · by_cases hb : t / 7 < buf.length
        · rw [List.getD_append_right _ _ _ _ (by rw [List.length_take]; omega),
            List.length_take, show j / 7 - min (t / 7) buf.length = 0 by omega, ← heq]
          simp only [List.getD_cons_zero, BitVec.getLsbD_and, BitVec.getLsbD_ofNat,
            Nat.testBit_two_pow_sub_one]
          by_cases hm : j % 7 < t % 7
          · rw [if_pos (by omega)]; simp [hm]; omega
          · rw [if_neg (by omega)]; simp [hm]
        · have hz : buf.getD (t / 7) 0 = 0 := List.getD_eq_default _ _ (by omega)
          have hz' : buf.getD (j / 7) 0 = 0 := List.getD_eq_default _ _ (by omega)
          rw [hz, hz', List.getD_append_right _ _ _ _ (by rw [List.length_take]; omega)]
          rcases Nat.eq_zero_or_pos (j / 7 - (buf.take (t / 7)).length) with h | h
          · rw [h]; simp
          · rw [List.getD_eq_default _ _ (by rw [List.length_singleton]; exact h)]; simp
      · rw [if_neg (by omega), List.getD_eq_default]
        · simp
        · rw [List.length_append, List.length_singleton, List.length_take]; omega

@[simp] theorem Writer.rollBack_bitCount (wr : Writer) (nb : Nat) (nbit : BitVec 3) :
    (wr.rollBack nb nbit).bitCount = 7 * nb + nbit.toNat := rfl

theorem length_clearFrom {buf : List Byte} {t : Nat} (h : bytesFor t ≤ buf.length) :
    (clearFrom buf t).length = bytesFor t := by
  unfold clearFrom
  unfold bytesFor at h ⊢
  split
  · rw [List.length_take]; omega
  · rw [List.length_append, List.length_singleton, List.length_take]; omega

theorem clearFrom_clean {buf : List Byte} (t : Nat) (h : ∀ b ∈ buf, b.toNat < 128) :
    ∀ b ∈ clearFrom buf t, b.toNat < 128 := by
  unfold clearFrom
  split
  · exact fun b hb => h b (List.mem_of_mem_take hb)
  · intro b hb
    rcases List.mem_append.1 hb with hb | hb
    · exact h b (List.mem_of_mem_take hb)
    · rw [List.mem_singleton.1 hb, BitVec.toNat_and, BitVec.toNat_ofNat]
      refine Nat.lt_of_le_of_lt Nat.and_le_right (Nat.lt_of_le_of_lt (Nat.mod_le _ _) ?_)
      have : 2 ^ (t % 7) ≤ 2 ^ 7 := Nat.pow_le_pow_right (by omega) (by omega)
      omega

/-- A roll back to a position at or behind the cursor keeps R33. -/
theorem Writer.rollBack_wf {wcap : Nat} {wr : Writer} {nb : Nat} {nbit : BitVec 3}
    (h : wr.wf wcap = true) (h6 : nbit.toNat ≤ 6) (ht : 7 * nb + nbit.toNat ≤ wr.bitCount) :
    (wr.rollBack nb nbit).wf wcap = true := by
  obtain ⟨h1, h2, h3, h4, _⟩ := Writer.wf_iff.1 h
  have hle : bytesFor (7 * nb + nbit.toNat) ≤ bytesFor wr.bitCount := by
    unfold bytesFor; omega
  refine Writer.wf_iff.2 ⟨clearFrom_clean _ h1, ?_, fun j hj => ?_, ?_, h6⟩
  · exact length_clearFrom (by omega)
  · rw [Writer.rollBack_bitCount] at hj
    exact (bitAt_clearFrom _ _ _).trans (if_neg (by omega))
  · rw [Writer.rollBack_bitCount]; omega

/-- The bytes of a writer that keeps R33 are its buffer. -/
theorem Writer.bytes_eq {wcap : Nat} {wr : Writer} (h : wr.wf wcap = true) : wr.bytes = wr.buf := by
  have hl : wr.buf.length = wr.size := by
    simp only [Writer.wf, Bool.and_eq_true, decide_eq_true_eq] at h
    exact h.1.1.1.2
  refine List.ext_getElem (by simp [Writer.bytes, hl]) fun i h1 h2 => ?_
  simp [Writer.bytes, h2]

end Sys2Proof.Machine
end

