-- ==== Sys2Proof/Laws/DeltaEncoder.lean ====
section
/-! SUPPORT. What U2's shared operations can do. -/

namespace Sys2Proof.Machine

/-- Writing a command: the packet has its bits after those it had, nothing else changes, and the packet
stays within `WCAP` (R257). -/
theorem Encoder.put_ok {j : EncodeJob} {e f : Encoder} {i : Instr} (h : e.put j i = .ok f) :
    f = { e with wk := e.wk.append (encode i) } ∧ e.wk.overflows (cost i) j.wcap = false := by
  unfold Encoder.put at h
  split at h
  · cases h
  · rename_i ho
    exact ⟨(Except.ok.inj h).symm, by simpa using ho⟩

/-- Writing a command keeps R33 for the working writer. -/
theorem Encoder.put_wf {j : EncodeJob} {e f : Encoder} {i : Instr} (h : e.put j i = .ok f)
    (hw : e.wk.wf j.wcap = true) : f.wk.wf j.wcap = true := by
  obtain ⟨rfl, ho⟩ := Encoder.put_ok h
  exact Writer.append_wf hw ho

/-- Writing a command adds its cost to the packet (R14). -/
theorem Encoder.put_bitCount {j : EncodeJob} {e f : Encoder} {i : Instr} (h : e.put j i = .ok f) :
    f.wk.bitCount = e.wk.bitCount + cost i := by
  obtain ⟨rfl, _⟩ := Encoder.put_ok h
  exact Writer.append_bitCount _ _

/-- Writing commands in order: one of them, then the others. -/
theorem Encoder.putAll_cons {j : EncodeJob} {e g : Encoder} {i : Instr} {is : List Instr} :
    e.putAll j (i :: is) = .ok g ↔ ∃ f, e.put j i = .ok f ∧ f.putAll j is = .ok g :=
  bind_ok

/-- A fresh packet: empty but for its header, at device offset 0, with no established value (R242). -/
theorem Encoder.startPacket_ok {j : EncodeJob} {e f : Encoder} (h : e.startPacket j = .ok f) :
    f.dev = 0 ∧ f.lastValue = none ∧ f.seq = e.seq ∧ f.out = e.out ∧
      f.wk = Writer.empty.append (encode (.deltaHdr e.seq)) := by
  obtain ⟨rfl, _⟩ := Encoder.put_ok h
  exact ⟨rfl, rfl, rfl, rfl, rfl⟩

/-- A split: the packet ended with `EOP` is out, the next has the next sequence number and starts with
its re-skip, and the budget holds that re-skip, what is needed after it and a terminator (R251). -/
theorem Encoder.split_ok {j : EncodeJob} {e g : Encoder} {x need : Nat}
    (h : e.split j x need = .ok g) :
    ∃ c f g', e.put j .eop = .ok c ∧
      Encoder.startPacket j { c with out := c.out ++ [c.wk.bytes], seq := c.seq + 1 } = .ok f ∧
      f.fits j (skipCost x + need + 3) = true ∧ f.putAll j (skipCommands x) = .ok g' ∧
      g = { g' with dev := x } := by
  unfold Encoder.split at h
  obtain ⟨c, hc, h⟩ := bind_ok.1 h
  obtain ⟨f, hf, h⟩ := bind_ok.1 h
  split at h
  · rename_i hfit
    obtain ⟨g', hg, h⟩ := bind_ok.1 h
    exact ⟨c, f, g', hc, hf, hfit, hg, (Except.ok.inj h).symm⟩
  · cases h

/-- The chunks of a run add up to it, whenever there are turns enough (R246). -/
theorem runChunks_sum {fuel c : Nat} (h : c ≤ fuel) : (runChunks fuel c).sum = c := by
  induction fuel generalizing c with
  | zero => simp [runChunks]; omega
  | succ fuel ih =>
    unfold runChunks
    split
    · rw [List.sum_cons, ih (by omega)]; omega
    · split <;> (simp; try omega)

/-- Every chunk is in the range of its command: 1..255 (R104). -/
theorem runChunks_range {fuel c n : Nat} (h : n ∈ runChunks fuel c) : 1 ≤ n ∧ n ≤ 255 := by
  induction fuel generalizing c with
  | zero => simp [runChunks] at h
  | succ fuel ih =>
    unfold runChunks at h
    split at h
    · rcases List.mem_cons.1 h with rfl | h
      · omega
      · exact ih h
    · split at h <;> simp at h
      omega

end Sys2Proof.Machine
end

