-- ==== Sys2Proof/Laws/MessageDecode.lean ====
section
/-! SUPPORT. What the decode of a message, a delivery and a turn of the dispatch loop can do. -/

namespace Sys2Proof.Machine

/-- A decode that is not empty succeeded field by field (R201). -/
theorem decodeSchema_some {f : Nat} {data : List Byte} {sc : Schema} {p : Nat} {r : Record} {n : Nat}
    (h : decodeFields f data sc p = some (r, n)) : decodeSchema f data (some sc) p = (r, n) := by
  simp [decodeSchema, h]

/-- A decode that fails anywhere gives no fields and 0 bits (R201). -/
theorem decodeSchema_none {f : Nat} {data : List Byte} {sc : Schema} {p : Nat}
    (h : decodeFields f data sc p = none) : decodeSchema f data (some sc) p = (.nil, 0) := by
  simp [decodeSchema, h]

/-- What a delivery can do: an ack is acknowledged, any other message is put on the event interface (R209,
R210). -/
theorem deliver_cases (t : BitVec 7) (f : Decoded) (s : State) :
    (t = 0x02#7 ∧ deliver t f s = acknowledge f.ackCounter s) ∨
      (t ≠ 0x02#7 ∧ deliver t f s = .ok (s.emit (.msg t f))) := by
  by_cases h : t = 0x02#7 <;> simp [deliver, h]

/-- What a turn of the dispatch loop that completes can do: stop with nothing delivered, or deliver the
message at `p` and go on behind it (R206, R207). -/
theorem dispatchLoop_succ {data : List Byte} {fuel p : Nat} {s t : State}
    {ms : List (BitVec 7 × Decoded)} (h : dispatchLoop data (fuel + 1) p s = .ok (t, ms)) :
    (t = s ∧ ms = []) ∨
      ∃ (v : BitVec 32) (f : Decoded) (n : Nat) (u : State) (rest : List (BitVec 7 × Decoded)),
        readBits s.params.readBoundFactor data p 7 = some v ∧ knownTag (v.setWidth 7) = true ∧
        s.params.schemas.wellFormedFor (v.setWidth 7) = true ∧
        decodeMessage s.params (v.setWidth 7) data p = (f, n) ∧ n ≠ 0 ∧
        deliver (v.setWidth 7) f s = .ok u ∧
        dispatchLoop data fuel (p + n) u = .ok (t, rest) ∧ ms = (v.setWidth 7, f) :: rest := by
  simp only [dispatchLoop] at h
  split at h
  · cases h; exact .inl ⟨rfl, rfl⟩
  · rename_i v hv
    split at h
    · rename_i hk
      split at h
      · rename_i hw
        split at h
        · cases h; exact .inl ⟨rfl, rfl⟩
        · rename_i hn
          obtain ⟨u, hu, h⟩ := bind_ok.1 h
          obtain ⟨⟨u', rest⟩, hl, h⟩ := bind_ok.1 h
          cases h
          exact .inr ⟨v, _, _, u, rest, hv, hk, hw, rfl, hn, hu, hl, rfl⟩
      · cases h
    · cases h; exact .inl ⟨rfl, rfl⟩

/-- What a dispatch that answers can do: its loop completed with the messages it lists, or a fault raised
in it undid all of it (R206, R364). -/
theorem dispatch_next {data : List Byte} {s t : State} :
    dispatch data s = .next t ↔
      (∃ u ms, dispatchLoop data (s.params.readBoundFactor * data.length + 1) Config.inboundStartBit s =
          .ok (u, ms) ∧ t = u.respondOk (.messages ms)) ∨
        ∃ c, dispatchLoop data (s.params.readBoundFactor * data.length + 1) Config.inboundStartBit s =
          .error (.raise c) ∧ t = s.raise c := by
  unfold dispatch
  rcases h : dispatchLoop data (s.params.readBoundFactor * data.length + 1) Config.inboundStartBit s
    with (c | f | x) | ⟨u, ms⟩ <;> simp [bind, Except.bind, eq_comm, answer, finish, Except.map]

end Sys2Proof.Machine
end

