-- ==== Sys2Proof/Laws/PerInstr.lean ====
section
/-! SUPPORT. Per-instruction family TableBits: every encoding begins with the fixed bits that
spec/opcode_table.json gives its row, whatever its operands are. -/

namespace Sys2Proof.Laws

/-- A row's fixed bits: how many, and their value as the table's "fixed" entry numbers it. -/
def tableRow : Instr → Nat × Nat
  | .deltaHdr _ => (7, 0x2)
  | .eop => (3, 0x0)
  | .eoc => (3, 0x1)
  | .skipf _ => (3, 0x2)
  | .skipm _ => (3, 0x3)
  | .lit _ => (3, 0x4)
  | .valf _ _ => (3, 0x5)
  | .vall _ => (3, 0x6)
  | .valm _ _ => (3, 0x7)
  | .msgTopology _ => (7, 0x1)
  | .msgAck _ => (7, 0x2)
  | .msgTouchMove _ => (7, 0x11)
  | .msgTouchStartV _ => (7, 0x13)
  | .msgTouchEndV _ => (7, 0x15)
  | .cmdEndApi => (24, 0x10200)
  | .cmdBeginApi => (24, 0x10000)
  | .cmdHeartbeat => (24, 0x10300)
  | .cmdEnableMpe => (16, 0x1002)
  | .cmdSaveDefault => (24, 0x10500)
  | .cmdReqTopology => (24, 0x10100)
  | .wNew _ => (5, 0x1)
  | .wBits _ _ _ => (5, 0x2)
  | .wSize _ => (5, 0x3)
  | .wHascap _ _ _ => (5, 0x4)
  | .wSnap _ => (5, 0x5)
  | .wRestore _ _ _ => (5, 0x6)
  | .wClone _ _ => (5, 0x7)
  | .wRead _ => (5, 0x8)
  | .rBits _ _ _ => (5, 0x9)
  | .rType _ _ => (5, 0xa)
  | .rDispatch _ => (5, 0xb)
  | .rDecode _ _ _ => (5, 0xc)
  | .dCompute _ _ _ _ _ _ => (5, 0xd)
  | .sConfig _ _ => (5, 0x10)
  | .sOpen => (5, 0x11)
  | .sClose => (5, 0x12)
  | .sAck _ => (5, 0x13)
  | .sFrame _ _ _ _ => (5, 0x14)
  | .sHbTick => (5, 0x15)
  | .sReqTopo => (5, 0x16)
  | .sStatus => (5, 0x17)

/-- Those bits in stream order: a payload row is one number with its first byte most significant. -/
def rowBits (i : Instr) : List Bool :=
  match tableRow i with
  | (n, v) => if 8 < n then byteBits (wordBytes n v) else bitsOf n v

/-- The encoding of a well-formed instruction begins with its row's fixed bits. -/
def TableBits.Statement (i : Instr) : Prop := i.wellFormed = true → rowBits i <+: encode i

theorem TableBits.deltaHdr (seq : BitVec 16) : TableBits.Statement (.deltaHdr seq) :=
  fun _ => ⟨_, rfl⟩

theorem TableBits.eop : TableBits.Statement .eop :=
  fun _ => ⟨[], rfl⟩

theorem TableBits.eoc : TableBits.Statement .eoc :=
  fun _ => ⟨[], rfl⟩

theorem TableBits.skipf (n : BitVec 4) : TableBits.Statement (.skipf n) :=
  fun _ => ⟨_, rfl⟩

theorem TableBits.skipm (n : BitVec 8) : TableBits.Statement (.skipm n) :=
  fun _ => ⟨_, rfl⟩

theorem TableBits.lit (vs : List Byte) : TableBits.Statement (.lit vs) :=
  fun _ => ⟨_, rfl⟩

theorem TableBits.valf (n : BitVec 4) (v : Byte) : TableBits.Statement (.valf n v) :=
  fun _ => ⟨_, by simp only [encode, List.append_assoc]; rfl⟩

theorem TableBits.vall (n : BitVec 4) : TableBits.Statement (.vall n) :=
  fun _ => ⟨_, rfl⟩

theorem TableBits.valm (n : BitVec 8) (v : Byte) : TableBits.Statement (.valm n v) :=
  fun _ => ⟨_, by simp only [encode, List.append_assoc]; rfl⟩

theorem TableBits.msgTopology (body : List Septet) : TableBits.Statement (.msgTopology body) :=
  fun _ => ⟨_, rfl⟩

theorem TableBits.msgAck (counter : BitVec 10) : TableBits.Statement (.msgAck counter) :=
  fun _ => ⟨_, rfl⟩

theorem TableBits.msgTouchMove (body : List Septet) : TableBits.Statement (.msgTouchMove body) :=
  fun _ => ⟨_, rfl⟩

theorem TableBits.msgTouchStartV (body : List Septet) : TableBits.Statement (.msgTouchStartV body) :=
  fun _ => ⟨_, rfl⟩

theorem TableBits.msgTouchEndV (body : List Septet) : TableBits.Statement (.msgTouchEndV body) :=
  fun _ => ⟨_, rfl⟩

theorem TableBits.cmdEndApi : TableBits.Statement .cmdEndApi :=
  fun _ => ⟨[], by decide⟩

theorem TableBits.cmdBeginApi : TableBits.Statement .cmdBeginApi :=
  fun _ => ⟨[], by decide⟩

theorem TableBits.cmdHeartbeat : TableBits.Statement .cmdHeartbeat :=
  fun _ => ⟨[], by decide⟩

theorem TableBits.cmdEnableMpe : TableBits.Statement .cmdEnableMpe :=
  fun _ => ⟨[], by decide⟩

theorem TableBits.cmdSaveDefault : TableBits.Statement .cmdSaveDefault :=
  fun _ => ⟨[], by decide⟩

theorem TableBits.cmdReqTopology : TableBits.Statement .cmdReqTopology :=
  fun _ => ⟨[], by decide⟩

theorem TableBits.wNew (h : BitVec 8) : TableBits.Statement (.wNew h) :=
  fun _ => ⟨_, rfl⟩

theorem TableBits.wBits (h : BitVec 8) (v : BitVec 32) (w : BitVec 6) : TableBits.Statement (.wBits h v w) :=
  fun _ => ⟨_, by simp only [encode, List.append_assoc]; rfl⟩

theorem TableBits.wSize (h : BitVec 8) : TableBits.Statement (.wSize h) :=
  fun _ => ⟨_, rfl⟩

theorem TableBits.wHascap (h : BitVec 8) (n : BitVec 16) (maxBytes : BitVec 16) : TableBits.Statement (.wHascap h n maxBytes) :=
  fun _ => ⟨_, by simp only [encode, List.append_assoc]; rfl⟩

theorem TableBits.wSnap (h : BitVec 8) : TableBits.Statement (.wSnap h) :=
  fun _ => ⟨_, rfl⟩

theorem TableBits.wRestore (h : BitVec 8) (nb : BitVec 32) (nbit : BitVec 3) : TableBits.Statement (.wRestore h nb nbit) :=
  fun _ => ⟨_, by simp only [encode, List.append_assoc]; rfl⟩

theorem TableBits.wClone (hd : BitVec 8) (hs : BitVec 8) : TableBits.Statement (.wClone hd hs) :=
  fun _ => ⟨_, by simp only [encode, List.append_assoc]; rfl⟩

theorem TableBits.wRead (h : BitVec 8) : TableBits.Statement (.wRead h) :=
  fun _ => ⟨_, rfl⟩

theorem TableBits.rBits (data : List Byte) (p : BitVec 32) (w : BitVec 6) : TableBits.Statement (.rBits data p w) :=
  fun _ => ⟨_, by simp only [encode, List.append_assoc]; rfl⟩

theorem TableBits.rType (data : List Byte) (p : BitVec 32) : TableBits.Statement (.rType data p) :=
  fun _ => ⟨_, by simp only [encode, List.append_assoc]; rfl⟩

theorem TableBits.rDispatch (data : List Byte) : TableBits.Statement (.rDispatch data) :=
  fun _ => ⟨_, rfl⟩

theorem TableBits.rDecode (data : List Byte) (p : BitVec 32) (tag : BitVec 7) : TableBits.Statement (.rDecode data p tag) :=
  fun _ => ⟨_, by simp only [encode, List.append_assoc]; rfl⟩

theorem TableBits.dCompute (newData oldData : List Byte) (baseOffset length startIndex maxBytes : BitVec 16) : TableBits.Statement (.dCompute newData oldData baseOffset length startIndex maxBytes) :=
  fun _ => ⟨_, by simp only [encode, List.append_assoc]; rfl⟩

theorem TableBits.sConfig (devIdx : BitVec 7) (maxPkt : BitVec 16) : TableBits.Statement (.sConfig devIdx maxPkt) :=
  fun _ => ⟨_, by simp only [encode, List.append_assoc]; rfl⟩

theorem TableBits.sOpen : TableBits.Statement .sOpen :=
  fun _ => ⟨[], rfl⟩

theorem TableBits.sClose : TableBits.Statement .sClose :=
  fun _ => ⟨[], rfl⟩

theorem TableBits.sAck (counter : BitVec 10) : TableBits.Statement (.sAck counter) :=
  fun _ => ⟨_, rfl⟩

theorem TableBits.sFrame (newData oldData : List Byte) (baseOffset length : BitVec 16) : TableBits.Statement (.sFrame newData oldData baseOffset length) :=
  fun _ => ⟨_, by simp only [encode, List.append_assoc]; rfl⟩

theorem TableBits.sHbTick : TableBits.Statement .sHbTick :=
  fun _ => ⟨[], rfl⟩

theorem TableBits.sReqTopo : TableBits.Statement .sReqTopo :=
  fun _ => ⟨[], rfl⟩

theorem TableBits.sStatus : TableBits.Statement .sStatus :=
  fun _ => ⟨[], rfl⟩

end Sys2Proof.Laws
end

