-- ==== Sys2Proof/Laws/Session.lean ====
section
/-! SUPPORT. What U3's shared operations can do: a command transmitted, a handshake step, an ack. -/

namespace Sys2Proof.Machine

/-- The payloads of R111's table. -/
theorem payload_rows (cmd : Instr) (h : cmd.layer = .payload) :
    cmd = .cmdEndApi ∨ cmd = .cmdBeginApi ∨ cmd = .cmdHeartbeat ∨ cmd = .cmdEnableMpe ∨
      cmd = .cmdSaveDefault ∨ cmd = .cmdReqTopology := by
  cases cmd <;> simp_all [Instr.layer]

/-- A row of R111's table passes its own check, so transmitting it always sends (R301). -/
theorem transmitCommand_ok (s : State) (d : BitVec 7) {cmd : Instr} (h : cmd.layer = .payload) :
    transmitCommand s d cmd =
      .ok (s.emit (.tx d (payloadBytes cmd) (some (expectedChecksum cmd)))) := by
  have hc : checksum (payloadBytes cmd) = expectedChecksum cmd := by
    rcases payload_rows cmd h with rfl | rfl | rfl | rfl | rfl | rfl <;> decide
  simp [transmitCommand, transmit, hc]

/-- What the counter update of an ack leaves alone (R310, R311). -/
theorem ackCounter_cases (c : BitVec 10) (s : State) :
    (c = s.apc ∧ ackCounter c s = stall s) ∨ (c ≠ s.apc ∧ ackCounter c s = { s with apc := c }) := by
  by_cases h : c = s.apc <;> simp [ackCounter, h]

/-- What an ack does after the counters (R312, R313). -/
theorem ackContinue_cases (s : State) :
    (∃ p rest, s.queue = p :: rest ∧
        ackContinue s = .ok { s with
          queue := rest
          pc := s.pc + 1
          events := s.events ++ [.tx s.devIdx p none] }) ∨
      (s.queue = [] ∧ s.pending = true ∧
        ackContinue s = runStep (s.stepReg + 1) { s with pending := false }) ∨
      (s.queue = [] ∧ s.pending = false ∧ ackContinue s = .ok s) := by
  unfold ackContinue
  rcases hq : s.queue with _ | ⟨p, rest⟩
  · cases hp : s.pending <;> simp
  · exact .inl ⟨p, rest, rfl, by rw [if_pos (by simp)]; exact sendQueuedHead_cons hq⟩

/-- An ack in `CLOSED` does nothing; in any other state its counter is taken first (R309). -/
theorem acknowledge_cases (c : BitVec 10) (s : State) :
    (s.sstate = .closed ∧ acknowledge c s = .ok s) ∨
      (s.sstate ≠ .closed ∧ acknowledge c s = ackContinue (ackCounter c s)) := by
  by_cases h : s.sstate = .closed <;> simp [acknowledge, h]

end Sys2Proof.Machine
end

