-- ==== Sys2Proof/Tests/Slice0.lean ====
section
/-! SUPPORT. Tests: each check of well-formedness refuses an ill-formed term, a word written out from the
spec's encoding for every constructor, the spec's worked examples one step at a time, and for every
statement with hypotheses a state and operands that meet them. -/

open Sys2Proof Sys2Proof.Machine

namespace Sys2Proof.Tests

/- Elaborated one after another: each kernel evaluation would otherwise hold a thread of its own. -/
set_option Elab.async false

/-! ## Benches -/

/-- Parameters with the example `FW_IMAGE` of 95_test_vectors.md. -/
def benchParams : Params where
  wcap := 16
  nw := 2
  readBoundFactor := 8
  valueRuns := false
  qcap := 4
  schemas := Schemas.unconfigured
  fwImage0 := [0x55, 0x2A]
  fwImage1 := [0x2A, 0x55]

/-- The reset state with those parameters. -/
def bench : State := { State.reset with params := benchParams }

/-- The end of program P1, with `MAXPKT` = 7 as at the start of P2. -/
def benchReady : State :=
  { bench with
    sstate := .ready, stepReg := 8, readyF := true, hbEn := true, pc := 3, apc := 2, devIdx := 3,
    maxPkt := 7 }

/-- P1 after the line that entered handshake step `n`. -/
def benchOpening (n : BitVec 4) (pc apc : BitVec 10) : State :=
  { bench with
    sstate := .opening, stepReg := n, pending := true, hbEn := decide (3 ≤ n.toNat), pc := pc,
    apc := apc, devIdx := 3 }

/-- The writer of W2: the value 5 in 3 bits. -/
def benchW2 : Writer := ⟨[0x05], 0, 3⟩

/-- Writer 0 as in W2. -/
def benchWriter : State := { bench with writers := [benchW2, Writer.empty] }

/-- A device inside a packet, at offset 5 with 9 established. -/
def benchDevice : State := { bench with dev := ⟨[(6, 0x11)], 5, some 9, true⟩ }

/-- The topology header: a count of devices in 3 bits and of connections in 4. -/
def benchHeader : Schema := .scalar .tag 7 (.scalar .deviceCount 3 (.scalar .connectionCount 4 .nil))

/-- One device: 7 bits. -/
def benchDeviceInfo : Schema := .scalar (.other 0) 7 .nil

/-- One connection: 3 bits and 4 bits. -/
def benchConnectionInfo : Schema := .scalar (.other 1) 3 (.scalar (.other 2) 4 .nil)

/-- A touch message with a composite. -/
def benchTouchSchema : Schema :=
  .scalar .tag 7 (.composite (.other 1) 7 (.scalar (.other 0) 7 .nil) .nil)

/-- A touch message with a composite that consumes nothing. -/
def benchEmptyComposite : Schema := .scalar .tag 7 (.composite (.other 1) 0 (.absent (.other 0) .nil) .nil)

/-- Schemas for every message. -/
def benchSchemas : Schemas where
  topologyHeader := some benchHeader
  topologyDeviceInfo := some benchDeviceInfo
  topologyConnectionInfo := some benchConnectionInfo
  touchMove := some (.scalar .tag 7 (.scalar (.other 0) 7 .nil))
  touchStartV := some benchTouchSchema
  touchEndV := some (.scalar .tag 7 (.absent (.other 0) (.scalar (.other 1) 7 .nil)))

/-- The bench with those schemas. -/
def benchTouch : State := { bench with params := { benchParams with schemas := benchSchemas } }

/-- The next state, where there is one. -/
def nextOf : Host.Outcome State Fault Refusal → Option State
  | .next t => some t
  | .fault _ => none
  | .refused _ => none

/-- The state after an instruction, where there is one. -/
def after (i : Instr) (s : State) : Option State := nextOf (exec i s)

/-- A check that holds of the state after an outcome. -/
def holdsAfter (o : Host.Outcome State Fault Refusal) (check : State → Bool) : Bool :=
  (nextOf o).any check

/-- An outcome is a next state, and the check holds of it. -/
def Reaches (o : Host.Outcome State Fault Refusal) (check : State → Bool) : Prop :=
  ∃ t, o = .next t ∧ check t = true

/-- From a check evaluated on the next state to the form the statements use. -/
theorem reaches_of_holdsAfter (o : Host.Outcome State Fault Refusal) (check : State → Bool)
    (h : holdsAfter o check = true) : Reaches o check := by
  cases o with
  | next t => exact ⟨t, rfl, h⟩
  | fault f => cases h
  | refused r => cases h

/-! ## Well-formedness refuses -/

theorem test_wf_lit_empty :
    (Instr.lit []).wellFormed = false := by decide

/-- A byte list longer than the model's length field can say. -/
def tooLong : List Byte := List.replicate (2 ^ 32) 0

theorem tooLong_does_not_fit : dataFits tooLong = false :=
  decide_eq_false (by rw [tooLong, List.length_replicate]; exact Nat.lt_irrefl _)

theorem test_wf_rBits_too_long :
    (Instr.rBits tooLong 0 1).wellFormed = false := by
  simp [Instr.wellFormed, tooLong_does_not_fit]

theorem test_wf_rType_too_long :
    (Instr.rType tooLong 0).wellFormed = false := by
  simp [Instr.wellFormed, tooLong_does_not_fit]

theorem test_wf_rDispatch_too_long :
    (Instr.rDispatch tooLong).wellFormed = false := by
  simp [Instr.wellFormed, tooLong_does_not_fit]

theorem test_wf_rDecode_too_long :
    (Instr.rDecode tooLong 0 1).wellFormed = false := by
  simp [Instr.wellFormed, tooLong_does_not_fit]

theorem test_wf_dCompute_new_too_long :
    (Instr.dCompute tooLong [] 0 0 0 0).wellFormed = false := by
  simp [Instr.wellFormed, tooLong_does_not_fit]

theorem test_wf_dCompute_old_too_long :
    (Instr.dCompute [] tooLong 0 0 0 0).wellFormed = false := by
  simp [Instr.wellFormed, tooLong_does_not_fit]

theorem test_wf_sFrame_new_too_long :
    (Instr.sFrame tooLong [] 0 0).wellFormed = false := by
  simp [Instr.wellFormed, tooLong_does_not_fit]

theorem test_wf_sFrame_old_too_long :
    (Instr.sFrame [] tooLong 0 0).wellFormed = false := by
  simp [Instr.wellFormed, tooLong_does_not_fit]

theorem test_wf_schema_width_zero :
    (Schema.scalar .tag 0 .nil).wellFormed = false := by decide

theorem test_wf_schema_width_33 :
    (Schema.scalar .tag 33 .nil).wellFormed = false := by decide

theorem test_wf_schema_scalar_name_twice :
    (Schema.scalar .tag 7 (.absent .tag .nil)).wellFormed = false := by decide

theorem test_wf_schema_absent_name_twice :
    (Schema.absent .tag (.scalar .tag 7 .nil)).wellFormed = false := by decide

theorem test_wf_schema_composite_name_twice :
    (Schema.composite .tag 3 (.scalar .counter 3 .nil) (.scalar .tag 7 .nil)).wellFormed = false := by decide

theorem test_wf_schema_composite_width :
    (Schema.composite .tag 4 (.scalar .counter 3 .nil) .nil).wellFormed = false := by decide

theorem test_wf_schema_composite_nested :
    (Schema.composite .tag 0 (.scalar .counter 0 .nil) .nil).wellFormed = false := by decide

theorem test_wf_schema_width_32 :
    (Schema.scalar .tag 32 (.scalar .counter 1 .nil)).wellFormed = true := by decide

theorem test_wf_schemas_topology_without_deviceCount :
    Schemas.wellFormed { Schemas.unconfigured with
      topologyHeader := some (.scalar .tag 7 (.scalar .connectionCount 4 .nil)) } = false := by decide

theorem test_wf_schemas_topology_without_connectionCount :
    Schemas.wellFormed { Schemas.unconfigured with
      topologyHeader := some (.scalar .tag 7 (.scalar .deviceCount 4 .nil)) } = false := by decide

theorem test_wf_schemas_topology_without_tag :
    Schemas.wellFormed { Schemas.unconfigured with
      topologyHeader := some (.scalar .deviceCount 4 (.scalar .connectionCount 4 .nil)) } = false := by decide

theorem test_wf_schemas_topology_count_as_composite :
    Schemas.wellFormed { Schemas.unconfigured with
      topologyHeader := some (.scalar .tag 7 (.scalar .deviceCount 3
        (.composite .connectionCount 3 (.scalar (.other 0) 3 .nil) .nil))) } = false := by decide

theorem test_wf_schemas_device_info :
    Schemas.wellFormed { Schemas.unconfigured with
      topologyDeviceInfo := some (.scalar .tag 33 .nil) } = false := by decide

theorem test_wf_schemas_connection_info :
    Schemas.wellFormed { Schemas.unconfigured with
      topologyConnectionInfo := some (.scalar .tag 0 .nil) } = false := by decide

theorem test_wf_schemas_touchMove_without_tag :
    Schemas.wellFormed { Schemas.unconfigured with
      touchMove := some (.absent .tag (.scalar .counter 7 .nil)) } = false := by decide

theorem test_wf_schemas_touchStartV_tag_width :
    Schemas.wellFormed { Schemas.unconfigured with
      touchStartV := some (.scalar .tag 8 .nil) } = false := by decide

theorem test_wf_schemas_touchEndV_tag_not_first :
    Schemas.wellFormed { Schemas.unconfigured with
      touchEndV := some (.scalar .counter 1 (.scalar .tag 7 .nil)) } = false := by decide

theorem test_wf_params_wcap :
    Params.wellFormed { benchParams with wcap := 7 } = false := by decide

theorem test_wf_params_nw :
    Params.wellFormed { benchParams with nw := 0 } = false := by decide

theorem test_wf_params_readBoundFactor :
    Params.wellFormed { benchParams with readBoundFactor := 9 } = false := by decide

theorem test_wf_params_qcap :
    Params.wellFormed { benchParams with qcap := 0 } = false := by decide

theorem test_wf_params_qcap_high :
    Params.wellFormed { benchParams with qcap := 65536 } = false := by decide

theorem test_wf_params_schemas :
    Params.wellFormed { benchParams with schemas := { Schemas.unconfigured with touchMove := some .nil } } = false := by decide

theorem test_wf_params_fwImage0 :
    Params.wellFormed { benchParams with fwImage0 := [0x80] } = false := by decide

theorem test_wf_params_fwImage1 :
    Params.wellFormed { benchParams with fwImage1 := [0x7F, 0xFF] } = false := by decide

theorem test_wf_bench :
    benchParams.wellFormed = true ∧ benchTouch.wf = true ∧ benchReady.wf = true := by decide +kernel

theorem test_wf_schemas_any_tag_name_and_absent_count :
    Schemas.wellFormed { Schemas.unconfigured with
      touchMove := some (.scalar (.other 5) 7 .nil)
      topologyHeader :=
        some (.scalar (.other 0) 7 (.absent .deviceCount (.absent .connectionCount .nil))) } = true := by decide

theorem test_wf_schemas_for_a_tag :
    Schemas.wellFormedFor { Schemas.unconfigured with touchMove := some .nil } 0x11 = false ∧
      Schemas.wellFormedFor { Schemas.unconfigured with touchMove := some .nil } 0x13 = true ∧
      Schemas.wellFormedFor { Schemas.unconfigured with touchMove := some .nil } 0x02 = true := by decide

/-! ## Words written out from the spec's encodings

In a stream word the first field is the rightmost, each field most-significant bit first (R100, R112). -/

theorem test_decode_deltaHdr :
    decode .header (bitsOf 23
      0b1010010100000001_0000010) =
      .ok (.deltaHdr 0xA501, []) := by decide +kernel

theorem test_decode_eop :
    decode .command (bitsOf 3
      0b000) =
      .ok (.eop, []) := by decide +kernel

theorem test_decode_eoc :
    decode .command (bitsOf 3
      0b001) =
      .ok (.eoc, []) := by decide +kernel

theorem test_decode_skipf :
    decode .command (bitsOf 7
      0b1001_010) =
      .ok (.skipf 9, []) := by decide +kernel

theorem test_decode_skipm :
    decode .command (bitsOf 11
      0b01110001_011) =
      .ok (.skipm 113, []) := by decide +kernel

theorem test_decode_lit :
    decode .command (bitsOf 21
      0b0_00000001_1_11111111_100) =
      .ok (.lit [0xFF, 0x01], []) := by decide +kernel

theorem test_decode_valf :
    decode .command (bitsOf 15
      0b10101010_0011_101) =
      .ok (.valf 3 0xAA, []) := by decide +kernel

theorem test_decode_vall :
    decode .command (bitsOf 7
      0b0010_110) =
      .ok (.vall 2, []) := by decide +kernel

theorem test_decode_valm :
    decode .command (bitsOf 19
      0b11111111_01000000_111) =
      .ok (.valm 64 0xFF, []) := by decide +kernel

theorem test_decode_msgTopology :
    decode .message (bitsOf 14
      0b0100011_0000001) =
      .ok (.msgTopology [0x23], []) := by decide +kernel

theorem test_decode_msgAck :
    decode .message (bitsOf 17
      0b1111111110_0000010) =
      .ok (.msgAck 1022, []) := by decide +kernel

theorem test_decode_msgTouchMove :
    decode .message (bitsOf 21
      0b0000110_0000101_0010001) =
      .ok (.msgTouchMove [5, 6], []) := by decide +kernel

theorem test_decode_msgTouchStartV :
    decode .message (bitsOf 14
      0b1000001_0010011) =
      .ok (.msgTouchStartV [0x41], []) := by decide +kernel

theorem test_decode_msgTouchEndV :
    decode .message (bitsOf 7
      0b0010101) =
      .ok (.msgTouchEndV [], []) := by decide +kernel

theorem test_decode_cmdEndApi :
    decode .payload (bitsOf 24
      0b00000000_00000010_00000001) =
      .ok (.cmdEndApi, []) := by decide +kernel

theorem test_decode_cmdBeginApi :
    decode .payload (bitsOf 24
      0b00000000_00000000_00000001) =
      .ok (.cmdBeginApi, []) := by decide +kernel

theorem test_decode_cmdHeartbeat :
    decode .payload (bitsOf 24
      0b00000000_00000011_00000001) =
      .ok (.cmdHeartbeat, []) := by decide +kernel

theorem test_decode_cmdEnableMpe :
    decode .payload (bitsOf 16
      0b00000010_00010000) =
      .ok (.cmdEnableMpe, []) := by decide +kernel

theorem test_decode_cmdSaveDefault :
    decode .payload (bitsOf 24
      0b00000000_00000101_00000001) =
      .ok (.cmdSaveDefault, []) := by decide +kernel

theorem test_decode_cmdReqTopology :
    decode .payload (bitsOf 24
      0b00000000_00000001_00000001) =
      .ok (.cmdReqTopology, []) := by decide +kernel

theorem test_decode_wNew :
    decode .request (bitsOf 13
      0b00000001_00001) =
      .ok (.wNew 1, []) := by decide +kernel

theorem test_decode_wBits :
    decode .request (bitsOf 51
      0b100000_00010010001101000101011001111000_00000001_00010) =
      .ok (.wBits 1 0x12345678 32, []) := by decide +kernel

theorem test_decode_wSize :
    decode .request (bitsOf 13
      0b10000001_00011) =
      .ok (.wSize 0x81, []) := by decide +kernel

theorem test_decode_wHascap :
    decode .request (bitsOf 45
      0b0000000000000111_0000000000101110_00000001_00100) =
      .ok (.wHascap 1 46 7, []) := by decide +kernel

theorem test_decode_wSnap :
    decode .request (bitsOf 13
      0b00000001_00101) =
      .ok (.wSnap 1, []) := by decide +kernel

theorem test_decode_wRestore :
    decode .request (bitsOf 48
      0b011_00000000000000010001000101110000_00000001_00110) =
      .ok (.wRestore 1 70000 3, []) := by decide +kernel

theorem test_decode_wClone :
    decode .request (bitsOf 21
      0b00000010_00000001_00111) =
      .ok (.wClone 1 2, []) := by decide +kernel

theorem test_decode_wRead :
    decode .request (bitsOf 13
      0b00000001_01000) =
      .ok (.wRead 1, []) := by decide +kernel

theorem test_decode_rBits :
    decode .request (bitsOf 91
      0b000111_00000000000000000000000000000100_00000010_00110000_00000000000000000000000000000010_01001) =
      .ok (.rBits [0x30, 0x02] 4 7, []) := by decide +kernel

theorem test_decode_rType :
    decode .request (bitsOf 77
      0b00000000000000000000000000100111_00000011_00000000000000000000000000000001_01010) =
      .ok (.rType [0x03] 39, []) := by decide +kernel

theorem test_decode_rDispatch :
    decode .request (bitsOf 53
      0b00100000_00000011_00000000000000000000000000000010_01011) =
      .ok (.rDispatch [0x03, 0x20], []) := by decide +kernel

theorem test_decode_rDecode :
    decode .request (bitsOf 84
      0b0010001_00000000000000000000000000100111_00000011_00000000000000000000000000000001_01100) =
      .ok (.rDecode [0x03] 39 0x11, []) := by decide +kernel

theorem test_decode_dCompute :
    decode .request (bitsOf 149
      0b0000000000000111_1111111111111111_0000000000000001_0000000001110001_00000000_00000000000000000000000000000001_00001001_00000000000000000000000000000001_01101) =
      .ok (.dCompute [9] [0] 113 1 0xFFFF 7, []) := by decide +kernel

theorem test_decode_sConfig :
    decode .request (bitsOf 28
      0b0000000011001000_0000011_10000) =
      .ok (.sConfig 3 200, []) := by decide +kernel

theorem test_decode_sOpen :
    decode .request (bitsOf 5
      0b10001) =
      .ok (.sOpen, []) := by decide +kernel

theorem test_decode_sClose :
    decode .request (bitsOf 5
      0b10010) =
      .ok (.sClose, []) := by decide +kernel

theorem test_decode_sAck :
    decode .request (bitsOf 15
      0b1111111111_10011) =
      .ok (.sAck 1023, []) := by decide +kernel

theorem test_decode_sFrame :
    decode .request (bitsOf 117
      0b0000000000000001_0000000001110001_00000000_00000000000000000000000000000001_00001001_00000000000000000000000000000001_10100) =
      .ok (.sFrame [9] [0] 113 1, []) := by decide +kernel

theorem test_decode_sHbTick :
    decode .request (bitsOf 5
      0b10101) =
      .ok (.sHbTick, []) := by decide +kernel

theorem test_decode_sReqTopo :
    decode .request (bitsOf 5
      0b10110) =
      .ok (.sReqTopo, []) := by decide +kernel

theorem test_decode_sStatus :
    decode .request (bitsOf 5
      0b10111) =
      .ok (.sStatus, []) := by decide +kernel

/-- T2: the packed-writer example read as a packet. -/
theorem test_decode_packet_of_the_source :
    (decode .header (streamBits [0x02, 0x01, 0x00, 0x2C, 0x5C, 0x03, 0x7A, 0x1F])).toOption =
      some (.deltaHdr 1, bitsOf 33 0b001_11111111_01000000_111_01110001_011) := by decide +kernel

theorem test_table_word_of_a_request :
    decodeTableWord 8 0x17 = some .sStatus ∧ decodeTableWord 8 0x01 = some (.wNew 0) := by decide +kernel

theorem test_table_word_of_a_payload :
    decodeTableWord 24 0x010200 = some .cmdEndApi := by decide +kernel

theorem test_table_word_runs_first :
    ((nextOf (step (State.reset.withFetchWord 8 0x11))).map fun t => (t.sstate, t.stepReg, t.inputs)) =
      some (.opening, 1, []) := by decide +kernel

/-! ## Steps of the spec's examples -/

theorem test_deltaHdr_starts_the_packet :
    after (.deltaHdr 7) benchDevice =
      some { benchDevice with dev := ⟨[(6, 0x11)], 0, none, true⟩ } := by decide +kernel

theorem test_eop_ends_the_packet :
    (after .eop benchDevice).map (·.dev) = some ⟨[(6, 0x11)], 5, some 9, false⟩ := by decide +kernel

theorem test_eoc_ends_the_packet :
    (after .eoc benchDevice).map (·.dev) = some ⟨[(6, 0x11)], 5, some 9, false⟩ := by decide +kernel

theorem test_skipf_moves_the_cursor :
    (after (.skipf 15) benchDevice).map (·.dev) = some ⟨[(6, 0x11)], 20, some 9, true⟩ := by decide +kernel

theorem test_skipm_moves_the_cursor :
    (after (.skipm 255) benchDevice).map (·.dev) = some ⟨[(6, 0x11)], 260, some 9, true⟩ := by decide +kernel

theorem test_lit_writes_its_bytes :
    (after (.lit [0x07, 0x00, 0x08]) benchDevice).map (·.dev) =
      some ⟨[(5, 0x07), (7, 0x08)], 8, some 9, true⟩ := by decide +kernel

theorem test_valf_writes_copies :
    (after (.valf 3 0xAA) benchDevice).map (·.dev) =
      some ⟨[(5, 0xAA), (6, 0xAA), (7, 0xAA)], 8, some 0xAA, true⟩ := by decide +kernel

theorem test_valf_zero_only_establishes :
    (after (.valf 0 0xAA) benchDevice).map (·.dev) =
      some ⟨[(6, 0x11)], 5, some 0xAA, true⟩ := by decide +kernel

/-- R106 (b). -/
theorem test_vall_zero_is_a_no_op :
    after (.vall 0) bench = some bench := by decide +kernel

theorem test_vall_writes_the_established_value :
    (after (.vall 2) benchDevice).map (·.dev) =
      some ⟨[(5, 9), (6, 9)], 7, some 9, true⟩ := by decide +kernel

/-- T2. -/
theorem test_valm_writes_64_copies :
    ((after (.valm 64 0xFF) { benchDevice with dev := ⟨[], 113, none, true⟩ }).map fun t =>
      (t.dev.display.length, t.dev.display.read 112, t.dev.display.read 113, t.dev.display.read 176,
        t.dev.display.read 177, t.dev.cur)) = some (64, 0, 0xFF, 0xFF, 0, 177) := by decide +kernel

/-- R204: two device groups and one connection group follow the header. -/
theorem test_msgTopology_is_delivered :
    (after (.msgTopology [0x0A, 0x05, 0x06, 0x41]) benchTouch).map (·.events) =
      some [.msg 0x01 (.topology
        (.num .tag 1 (.num .deviceCount 2 (.num .connectionCount 1 .nil)))
        [.num (.other 0) 5 .nil, .num (.other 0) 6 .nil]
        [.num (.other 1) 1 (.num (.other 2) 8 .nil)])] := by decide +kernel

/-- R203, R207, T16. -/
theorem test_msgTopology_unconfigured_is_passed_over :
    after (.msgTopology [0x0A]) bench = some (bench.respondOk (.messages [])) := by decide +kernel

/-- S9. -/
theorem test_msgAck_is_an_acknowledgement :
    (after (.msgAck 3) { benchReady with pc := 4 }).map (fun t => (t.pc, t.apc, t.events)) =
      some (4, 3, []) := by decide +kernel

theorem test_msgTouchMove_is_delivered :
    (after (.msgTouchMove [0x05]) benchTouch).map (·.events) =
      some [.msg 0x11 (.fields (.num .tag 0x11 (.num (.other 0) 5 .nil)))] := by decide +kernel

theorem test_msgTouchStartV_is_delivered :
    (after (.msgTouchStartV [0x05]) benchTouch).map (·.events) =
      some [.msg 0x13 (.fields (.num .tag 0x13 (.sub (.other 1) (.num (.other 0) 5 .nil) .nil)))] := by decide +kernel

theorem test_msgTouchEndV_is_delivered :
    (after (.msgTouchEndV [0x05]) benchTouch).map (·.events) =
      some [.msg 0x15 (.fields (.num .tag 0x15 (.num (.other 0) 0 (.num (.other 1) 5 .nil))))] := by decide +kernel

theorem test_cmdEndApi_is_transmitted :
    (after .cmdEndApi benchReady).map (·.events) = some [.tx 3 [0x01, 0x02, 0x00] (some 0x60)] := by decide +kernel

theorem test_cmdBeginApi_is_transmitted :
    (after .cmdBeginApi benchReady).map (·.events) = some [.tx 3 [0x01, 0x00, 0x00] (some 0x5A)] := by decide +kernel

theorem test_cmdHeartbeat_is_transmitted :
    (after .cmdHeartbeat benchReady).map (·.events) = some [.tx 3 [0x01, 0x03, 0x00] (some 0x63)] := by decide +kernel

theorem test_cmdEnableMpe_is_transmitted :
    (after .cmdEnableMpe benchReady).map (·.events) = some [.tx 3 [0x10, 0x02] (some 0x44)] := by decide +kernel

theorem test_cmdSaveDefault_is_transmitted :
    (after .cmdSaveDefault benchReady).map (·.events) = some [.tx 3 [0x01, 0x05, 0x00] (some 0x69)] := by decide +kernel

theorem test_cmdReqTopology_is_transmitted :
    (after .cmdReqTopology benchReady).map (·.events) = some [.tx 0 [0x01, 0x01, 0x00] (some 0x5D)] := by decide +kernel

/-- T12. -/
theorem test_checksum_of_a_delta_packet :
    checksum [0x02, 0x01, 0x00, 0x2C, 0x1C, 0x7E, 0x7F, 0x5F, 0x00] = 0x46 := by decide +kernel

theorem test_wNew_empties :
    (after (.wNew 0) benchWriter).map (·.writers) = some [Writer.empty, Writer.empty] := by decide +kernel

/-- W3. -/
theorem test_wBits_w3 :
    (after (.wBits 0 0x3FF 10) benchWriter).map (·.writers) =
      some [⟨[0x7D, 0x3F], 1, 6⟩, Writer.empty] := by decide +kernel

/-- W5. -/
theorem test_wBits_w5 :
    after (.wBits 0 8 3) bench = some (bench.raise .value) := by decide +kernel

/-- W2. -/
theorem test_wSize_w2 :
    (after (.wSize 0) benchWriter).map (·.response) = some ⟨0x00, .size 1⟩ := by decide +kernel

/-- W2. -/
theorem test_wHascap_46 :
    (after (.wHascap 0 46 7) benchWriter).map (·.response) = some ⟨0x00, .capacity true⟩ := by decide +kernel

/-- W2. -/
theorem test_wHascap_47 :
    (after (.wHascap 0 47 7) benchWriter).map (·.response) = some ⟨0x00, .capacity false⟩ := by decide +kernel

/-- W2. -/
theorem test_wSnap_w2 :
    (after (.wSnap 0) benchWriter).map (·.response) = some ⟨0x00, .snapshot 0 3⟩ := by decide +kernel

/-- W3. -/
theorem test_wRestore_w3 :
    (after (.wRestore 0 0 3) { bench with writers := [⟨[0x7D, 0x3F], 1, 6⟩, Writer.empty] }).map
      (·.writers) = some [⟨[0x05], 0, 3⟩, Writer.empty] := by decide +kernel

/-- W7. -/
theorem test_wRestore_w7 :
    after (.wRestore 0 1 0) benchWriter = some (benchWriter.raise .restore) := by decide +kernel

/-- W4. -/
theorem test_wClone_w4 :
    (after (.wClone 1 0) benchWriter).map (·.writers) =
      some [⟨[0x05], 0, 3⟩, ⟨[0x05], 0, 3⟩] := by decide +kernel

/-- W2. -/
theorem test_wRead_w2 :
    (after (.wRead 0) benchWriter).map (·.response) = some ⟨0x00, .bytes [0x05]⟩ := by decide +kernel

/-- RD3. -/
theorem test_rBits_rd3 :
    (after (.rBits [0x30, 0x02] 3 8) bench).map (·.response) = some ⟨0x00, .read true 0x26⟩ := by decide +kernel

/-- RD6. -/
theorem test_rBits_rd6 :
    (after (.rBits [0x30, 0x02] 12 5) bench).map (·.response) = some ⟨0x00, .read false 0⟩ := by decide +kernel

/-- RD13. -/
theorem test_rType_rd13 :
    (after (.rType [0x03, 0x00, 0x00, 0x00, 0x00, 0x20, 0x50, 0x00] 39) bench).map (·.response) = some ⟨0x00, .read true 0x02⟩ := by decide +kernel

/-- P6. -/
theorem test_rDispatch_p6 :
    (after (.rDispatch [0x03, 0x00, 0x00, 0x00, 0x00, 0x20, 0x30, 0x00, 0x02, 0x04, 0x00])
        { benchReady with
          pc := 4
          queue := [[0x02, 0x04, 0x00, 0x4C, 0x1C, 0x0A, 0x00],
            [0x02, 0x05, 0x00, 0x6C, 0x1C, 0x0E, 0x10]] }).map
      (fun t => (t.pc, t.apc, t.queue, t.events)) =
      some (6, 4, [],
        [.tx 3 [0x02, 0x04, 0x00, 0x4C, 0x1C, 0x0A, 0x00] none,
         .tx 3 [0x02, 0x05, 0x00, 0x6C, 0x1C, 0x0E, 0x10] none]) := by decide +kernel

/-- T14. -/
theorem test_rDispatch_t14 :
    (after (.rDispatch [0x03, 0x00, 0x00, 0x00, 0x00, 0x20, 0x70]) bench).map (·.response) = some ⟨0x00, .messages
      [(0x02, .fields (.num .tag 2 (.num .counter 7 .nil)))]⟩ := by decide +kernel

/-- T9. -/
theorem test_rDecode_t9 :
    (after (.rDecode [0x03, 0x00, 0x00, 0x00, 0x00, 0x20, 0x50, 0x00] 39 0x02) bench).map (·.response) = some ⟨0x00, .decoded
      (.fields (.num .tag 2 (.num .counter 5 .nil))) 17⟩ := by decide +kernel

/-- T5. -/
theorem test_dCompute_t5 :
    (after (.dCompute [1, 2, 3] [0, 0, 0] 113 3 1 7) bench).map (·.response) = some ⟨0x00, .packets
      [[0x02, 0x01, 0x00, 0x2C, 0x1C, 0x06, 0x00], [0x02, 0x02, 0x00, 0x4C, 0x1C, 0x0A, 0x00],
       [0x02, 0x03, 0x00, 0x6C, 0x1C, 0x0E, 0x10]]⟩ := by decide +kernel

/-- V16. -/
theorem test_dCompute_v16 :
    (after (.dCompute [0xAA, 0xAA, 0xAA, 1, 0xAA, 0xAA, 0xAA] [0, 0, 0, 0, 0, 0, 0] 0 7 0 8)
      { bench with params := { benchParams with valueRuns := true } }).map (·.response) = some ⟨0x00, .packets
      [[0x02, 0x00, 0x00, 0x74, 0x28, 0x65, 0x00, 0x00], [0x02, 0x01, 0x00, 0x08, 0x75, 0x28, 0x0D]]⟩ := by decide +kernel

/-- P1 line 1. -/
theorem test_sConfig_p1 :
    after (.sConfig 3 7) bench = some ({ bench with devIdx := 3, maxPkt := 7 }.respondOk .none) := by decide +kernel

/-- S8. -/
theorem test_sConfig_s8 :
    after (.sConfig 3 7) benchReady = some (benchReady.raise .badState) := by decide +kernel

/-- P1 line 2. -/
theorem test_sOpen_p1 :
    (after .sOpen { bench with devIdx := 3 }).map (fun t => (t.sstate, t.stepReg, t.pending, t.pc, t.events)) =
      some (.opening, 1, true, 1,
        [.tx 3 [0x01, 0x02, 0x00] (some 0x60), .tx 3 [0x01, 0x00, 0x00] (some 0x5A)]) := by decide +kernel

/-- P4 line 1. -/
theorem test_sClose_p4 :
    after .sClose (benchOpening 4 1 3) =
      some ({ benchOpening 4 1 3 with
        sstate := .closed, pending := false, hbEn := false, events := [.aborted] }.respondOk .none) := by decide +kernel

/-- P1 line 7. -/
theorem test_sAck_p1_line_7 :
    (after (.sAck 5) (benchOpening 5 1 4)).map (fun t => (t.stepReg, t.pc, t.apc, t.events)) =
      some (6, 3, 5, [.tx 3 [0x55, 0x2A] none, .tx 3 [0x2A, 0x55] none]) := by decide +kernel

/-- P1 line 9. -/
theorem test_sAck_p1_line_9 :
    (after (.sAck 2) (benchOpening 7 3 2)).map (fun t => (t.sstate, t.stepReg, t.pc, t.events)) =
      some (.ready, 8, 3, [.stuck 2, .ready]) := by decide +kernel

/-- P2 line 1. -/
theorem test_sFrame_p2_line_1 :
    (after (.sFrame [1, 2, 3] [0, 0, 0] 113 3) benchReady).map (fun t => (t.pc, t.queue.length, t.events)) =
      some (4, 2, [.tx 3 [0x02, 0x03, 0x00, 0x2C, 0x1C, 0x06, 0x00] none]) := by decide +kernel

/-- S12. -/
theorem test_sFrame_s12 :
    after (.sFrame [1, 2, 3] [0, 0, 0] 113 3)
        { benchReady with params := { benchParams with qcap := 2 } } =
      some (State.raise { benchReady with params := { benchParams with qcap := 2 } } .queueFull) := by decide +kernel

/-- P1 line 10. -/
theorem test_sHbTick_p1 :
    (after .sHbTick benchReady).map (·.events) = some [.tx 3 [0x01, 0x03, 0x00] (some 0x63)] := by decide +kernel

/-- S4. -/
theorem test_sHbTick_s4 :
    (after .sHbTick bench).map (·.events) = some [] := by decide +kernel

/-- S5. -/
theorem test_sReqTopo_s5 :
    (after .sReqTopo benchReady).map (·.events) = some [.tx 0 [0x01, 0x01, 0x00] (some 0x5D)] := by decide +kernel

/-- P1 line 11. -/
theorem test_sStatus_p1 :
    (after (.sStatus) { benchReady with maxPkt := 200 }).map (·.response) = some ⟨0x00, .status 0x00200FA2 0x03000000⟩ := by decide +kernel

/-- P3. -/
theorem test_sStatus_p3 :
    (after (.sStatus) { benchReady with pc := 1023, apc := 1022 }).map (·.response) = some ⟨0x00, .status 0x3FEFFFA2 0x03000000⟩ := by decide +kernel

/-! ## Witnesses: a state and operands that meet the hypotheses of each statement that has some -/

theorem witness_EncodedInstructionDecodesBack :
    (Instr.lit [0xFF]).wellFormed = true ∧ (Instr.lit [0xFF]).layer = .command ∧
      (Instr.deltaHdr 0).layer = .header ∧ (Instr.rType [0x03] 39).wellFormed = true ∧
      (Instr.rType [0x03] 39).layer = .request := by decide +kernel

theorem witness_StepRunsTheDecodedInstruction_request :
    decode .request (encode (.sAck 1023)) = .ok (.sAck 1023, []) ∧
      (bench.deliverFirst .request (encode (.sAck 1023))).inputs =
        .request (encode (.sAck 1023)) :: bench.inputs := by decide +kernel

theorem witness_StepRunsTheDecodedInstruction_message :
    (Instr.msgAck 5).layer = .message ∧ (inboundBuffer (encode (.msgAck 5))).length < 2 ^ 32 ∧
      (bench.deliverFirst .message (encode (.msgAck 5))).inputs =
        .request (encode (.rDispatch (inboundBuffer (encode (.msgAck 5))))) :: bench.inputs := by decide +kernel

theorem witness_StepRunsTheDecodedInstruction_payload :
    decode .payload (encode .cmdEnableMpe) = .ok (.cmdEnableMpe, []) ∧
      (bench.deliverFirst .payload (encode .cmdEnableMpe)).inputs = [] ∧
      (bench.deliverFirst .payload (encode .cmdEnableMpe)).outbound = some (encode .cmdEnableMpe) := by decide +kernel

theorem witness_OnlyRequestsAndResetChangeTheCore :
    bench.outbound = none ∧ bench.inputs = [] ∧ Reaches (step bench) (fun t => decide (t = bench)) :=
    ⟨by decide +kernel, by decide +kernel, reaches_of_holdsAfter _ _ (by decide +kernel)⟩

theorem witness_OnlyRequestsAndResetChangeTheCore_packet :
    (benchDevice.deliverFirst .command (encode .eoc)).outbound = none ∧
      (benchDevice.deliverFirst .command (encode .eoc)).inputs.head? = some (.packet (encode .eoc)) ∧
      Reaches (step (benchDevice.deliverFirst .command (encode .eoc))) (fun t => !t.dev.inPacket) :=
    ⟨by decide +kernel, by decide +kernel, reaches_of_holdsAfter _ _ (by decide +kernel)⟩

theorem witness_StepRunsTheDecodedInstruction_packet :
    decode (if benchDevice.dev.inPacket then .command else .header) (encode .eoc ++ [false]) =
        .ok (.eoc, [false]) ∧
      (benchDevice.deliverFirst .command (encode .eoc ++ [false])).inputs =
        .packet (encode .eoc ++ [false]) :: benchDevice.inputs := by decide +kernel

theorem witness_StepRunsTheDecodedInstruction_header :
    decode (if bench.dev.inPacket then .command else .header) (encode (.deltaHdr 1) ++ [true]) =
        .ok (.deltaHdr 1, [true]) := by decide +kernel

theorem witness_ReservedOpcodesAndBadHandlesAreRefused_opcodes :
    ([0x00, 0x0E, 0x0F, 0x18, 0x1F] : List Nat).all (fun op =>
      decide ((bench.deliverFirst .request (bitsOf 5 op ++ [true])).inputs =
        .request (bitsOf 5 op ++ [true]) :: []) &&
      (decide (op = 0x00) || decide (op = 0x0E) || decide (op = 0x0F) ||
        (decide (0x18 ≤ op) && decide (op ≤ 0x1F)))) = true := by decide +kernel

theorem witness_ReservedOpcodesAndBadHandlesAreRefused_handles :
    bench.params.nw ≤ (2 : BitVec 8).toNat ∧ bench.params.nw ≤ (0xFF : BitVec 8).toNat ∧
      Instr.wClone 0 2 ∈ [Instr.wNew 2, .wBits 2 0 1, .wSize 2, .wHascap 2 0 0, .wSnap 2,
        .wRestore 2 0 0, .wClone 2 0, .wClone 0 2, .wRead 2] := by decide +kernel

theorem witness_GoodStatesAreKept :
    (benchReady.deliverFirst .request (encode (.sAck 2))).wf = true ∧
      Reaches (step (benchReady.deliverFirst .request (encode (.sAck 2)))) (fun t => decide (t.pc = 3)) :=
    ⟨by decide +kernel, reaches_of_holdsAfter _ _ (by decide +kernel)⟩

theorem witness_ResetLeavesTheSpecValues :
    State.inputs { benchReady with inputs := [.reset] } = .reset :: [] := by decide +kernel

theorem witness_FaultRegisterRecordsTheFirstFault_first :
    (bench.deliverFirst .request (encode (.wBits 0 8 3))).inputs =
        .request (encode (.wBits 0 8 3)) :: [] ∧ bench.fault = 0x00 ∧
      Reaches (step (bench.deliverFirst .request (encode (.wBits 0 8 3))))
        (fun t => decide (t.fault = 0x03)) :=
    ⟨by decide +kernel, by decide +kernel, reaches_of_holdsAfter _ _ (by decide +kernel)⟩

/-- S16. -/
theorem witness_FaultRegisterRecordsTheFirstFault_later :
    Reaches (step ({ bench with fault := 0x01 }.deliverFirst .request (encode (.wBits 0 8 3))))
        (fun t => decide (t.fault = 0x01)) :=
    reaches_of_holdsAfter _ _ (by decide +kernel)

theorem witness_FaultRegisterRecordsTheFirstFault_reset :
    Reaches (step { bench with fault := 0x01, inputs := [.reset] }) (fun t => decide (t.fault = 0x00)) :=
    reaches_of_holdsAfter _ _ (by decide +kernel)

theorem witness_FaultRegisterRecordsTheFirstFault_step :
    (State.inputs { bench with fault := 0x01 }).head? ≠ some .reset ∧
      Reaches (step { bench with fault := 0x01 }) (fun t => decide (t.fault = 0x01)) :=
    ⟨by decide +kernel, reaches_of_holdsAfter _ _ (by decide +kernel)⟩

/-- S7. -/
theorem witness_FaultingRequestChangesNothingElse :
    (benchReady.deliverFirst .request (encode .sOpen)).inputs = .request (encode .sOpen) :: [] ∧
      Reaches (step (benchReady.deliverFirst .request (encode .sOpen)))
        (fun t => decide (t.response.status ≠ 0x00)) :=
    ⟨by decide +kernel, reaches_of_holdsAfter _ _ (by decide +kernel)⟩

theorem witness_ParametersAreNeverWritten :
    Reaches (step bench) (fun _ => true) :=
    reaches_of_holdsAfter _ _ (by decide +kernel)

theorem witness_DeviceAndCoreAreSeparate_device :
    (Instr.layer (.skipf 3) = .command ∧ Instr.layer (.deltaHdr 3) = .header) ∧
      Reaches (exec (.skipf 3) benchDevice)
      (fun t => decide (t.dev.cur = 8)) :=
    ⟨by decide +kernel, reaches_of_holdsAfter _ _ (by decide +kernel)⟩

theorem witness_DeviceAndCoreAreSeparate_core :
    (Instr.layer .sHbTick = .request ∧ Instr.layer (.msgAck 0) = .message ∧
      Instr.layer .cmdEndApi = .payload) ∧
      Reaches (exec (.sHbTick) benchReady)
      (fun t => decide (t.events ≠ [])) :=
    ⟨by decide +kernel, reaches_of_holdsAfter _ _ (by decide +kernel)⟩

theorem witness_ResponsesAndEventsDoNotFeedBack :
    Instr.layer .sStatus = .request ∧ Instr.layer (.msgAck 0) = .message := by decide

theorem witness_EventsAreOnlyAdded :
    Reaches (step (benchReady.deliverFirst .request (encode .sHbTick)))
      (fun t => decide (t.events.length = 1)) :=
    reaches_of_holdsAfter _ _ (by decide +kernel)

theorem witness_WriteBitsAppendsTheLowBits :
    (0 : BitVec 8).toNat < benchWriter.params.nw ∧
      benchWriter.writers[(0 : BitVec 8).toNat]? = some benchW2 ∧
      Writer.wf benchWriter.params.wcap benchW2 = true ∧
      (1 ≤ (1 : BitVec 6).toNat ∧ (1 : BitVec 6).toNat ≤ 32 ∧ (1 : BitVec 32).toNat < 2 ^ (1 : BitVec 6).toNat ∧
        (Writer.bitCount benchW2 + (1 : BitVec 6).toNat + 6) / 7 ≤ benchWriter.params.wcap) ∧
      (1 ≤ (32 : BitVec 6).toNat ∧ (32 : BitVec 6).toNat ≤ 32 ∧
        (0xFFFFFFFF : BitVec 32).toNat < 2 ^ (32 : BitVec 6).toNat ∧
        (Writer.bitCount benchW2 + (32 : BitVec 6).toNat + 6) / 7 ≤ benchWriter.params.wcap) := by decide +kernel

theorem witness_WriteBitsFaultsInOrder_width :
    (0 : BitVec 8).toNat < benchWriter.params.nw ∧
      benchWriter.writers[(0 : BitVec 8).toNat]? = some benchW2 ∧
      ((0 : BitVec 6).toNat < 1 ∧ 32 < (33 : BitVec 6).toNat ∧ 32 < (63 : BitVec 6).toNat) := by decide +kernel

theorem witness_WriteBitsFaultsInOrder_value :
    (0 : BitVec 8).toNat < benchWriter.params.nw ∧
      benchWriter.writers[(0 : BitVec 8).toNat]? = some benchW2 ∧
      (1 ≤ (1 : BitVec 6).toNat ∧ (1 : BitVec 6).toNat < 32 ∧ 2 ^ (1 : BitVec 6).toNat ≤ (2 : BitVec 32).toNat) ∧
      (1 ≤ (31 : BitVec 6).toNat ∧ (31 : BitVec 6).toNat < 32 ∧
        2 ^ (31 : BitVec 6).toNat ≤ (0x80000000 : BitVec 32).toNat) := by decide +kernel

theorem witness_WriteBitsFaultsInOrder_full :
    (0 : BitVec 8).toNat < bench.params.nw ∧
      State.writers { bench with writers := [⟨List.replicate 16 0, 16, 0⟩, Writer.empty] } =
        [⟨List.replicate 16 0, 16, 0⟩, Writer.empty] ∧
      1 ≤ (1 : BitVec 6).toNat ∧ (1 : BitVec 6).toNat ≤ 32 ∧ (0 : BitVec 32).toNat < 2 ^ (1 : BitVec 6).toNat ∧
      bench.params.wcap < (Writer.bitCount ⟨List.replicate 16 0, 16, 0⟩ + (1 : BitVec 6).toNat + 6) / 7 := by decide +kernel

theorem witness_NewAndCloneReplaceOneWriter :
    (1 : BitVec 8).toNat < benchWriter.params.nw ∧ (0 : BitVec 8).toNat < benchWriter.params.nw ∧
      benchWriter.writers[(0 : BitVec 8).toNat]? = some benchW2 := by decide +kernel

theorem witness_WriterQueriesAnswerFromTheCursor :
    (0 : BitVec 8).toNat < benchWriter.params.nw ∧
      benchWriter.writers[(0 : BitVec 8).toNat]? = some benchW2 := by decide +kernel

theorem witness_ReadReturnsTheWritersBytes :
    (0 : BitVec 8).toNat < benchWriter.params.nw ∧
      benchWriter.writers[(0 : BitVec 8).toNat]? = some benchW2 ∧
      Writer.wf benchWriter.params.wcap benchW2 = true := by decide +kernel

theorem witness_RestoreRollsTheCursorBack_refused :
    (0 : BitVec 8).toNat < benchWriter.params.nw ∧
      benchWriter.writers[(0 : BitVec 8).toNat]? = some benchW2 ∧
      Writer.wf benchWriter.params.wcap benchW2 = true ∧
      6 < (7 : BitVec 3).toNat ∧ Writer.bitCount benchW2 < 7 * (0 : BitVec 32).toNat + (4 : BitVec 3).toNat := by decide +kernel

theorem witness_RestoreRollsTheCursorBack_restored :
    (0 : BitVec 8).toNat < benchWriter.params.nw ∧
      benchWriter.writers[(0 : BitVec 8).toNat]? = some benchW2 ∧
      Writer.wf benchWriter.params.wcap benchW2 = true ∧
      ((0 : BitVec 3).toNat ≤ 6 ∧ 7 * (0 : BitVec 32).toNat + (0 : BitVec 3).toNat ≤ Writer.bitCount benchW2) ∧
      ((3 : BitVec 3).toNat ≤ 6 ∧ 7 * (0 : BitVec 32).toNat + (3 : BitVec 3).toNat ≤ Writer.bitCount benchW2) := by decide +kernel

theorem witness_RestoreUndoesAWrite :
    ((0 : BitVec 8).toNat < benchWriter.params.nw ∧
      benchWriter.writers[(0 : BitVec 8).toNat]? = some benchW2 ∧
      Writer.wf benchWriter.params.wcap benchW2 = true ∧ Writer.nb benchW2 < 2 ^ 32) ∧
      Reaches (exec (.wBits 0 0x3FF 10) benchWriter)
      (fun t => decide (t.response.status = 0x00)) :=
    ⟨by decide +kernel, reaches_of_holdsAfter _ _ (by decide +kernel)⟩

theorem witness_WrittenFieldReadsBack :
    (0 : BitVec 8).toNat < benchWriter.params.nw ∧
      benchWriter.writers[(0 : BitVec 8).toNat]? = some benchW2 ∧
      Writer.wf benchWriter.params.wcap benchW2 = true ∧ 7 ≤ benchWriter.params.readBoundFactor ∧
      1 ≤ (32 : BitVec 6).toNat ∧ (32 : BitVec 6).toNat ≤ 32 ∧ (0x12345678 : BitVec 32).toNat < 2 ^ (32 : BitVec 6).toNat ∧
      (Writer.bitCount benchW2 + (32 : BitVec 6).toNat + 6) / 7 ≤ benchWriter.params.wcap ∧ Writer.bitCount benchW2 < 2 ^ 32 := by decide +kernel

/-- RD5 and RD6. -/
theorem witness_ReadBitsAnswersTheField :
    ((0 : BitVec 6).toNat < 1 ∧ 32 < (33 : BitVec 6).toNat) ∧
      (1 ≤ (5 : BitVec 6).toNat ∧ (5 : BitVec 6).toNat ≤ 32 ∧
        bench.params.readBoundFactor * [0x30#8, 0x02#8].length < (12 : BitVec 32).toNat + (5 : BitVec 6).toNat) ∧
      (1 ≤ (5 : BitVec 6).toNat ∧ (5 : BitVec 6).toNat ≤ 32 ∧
        (11 : BitVec 32).toNat + (5 : BitVec 6).toNat ≤ bench.params.readBoundFactor * [0x30#8, 0x02#8].length) := by decide +kernel

theorem witness_DecodeConsumesTheSchemaWidth :
    decodeFields 8 [0x02, 0x05, 0x00] ackSchema 0 = some (.num .tag 2 (.num .counter 5 .nil), 17) := by decide +kernel

theorem witness_DecodeAnswersTheMessage :
    benchTouch.params.schemas.wellFormedFor 0x11 = true ∧
      (7 : BitVec 32).toNat + 17 ≤ benchTouch.params.readBoundFactor * [0x01#8, 0x02#8, 0x03#8].length ∧
      benchTouch.params.readBoundFactor * [0x01#8, 0x02#8, 0x03#8].length < (8 : BitVec 32).toNat + 17 ∧
      (0x00 : BitVec 7) ∉ [0x01#7, 0x02#7, 0x11#7, 0x13#7, 0x15#7] := by decide +kernel

theorem witness_DecodeAnswersTheMessage_unconfigured :
    (bench.params.schemas.wellFormedFor 0x01 = true ∧ bench.params.schemas.topologyHeader = none) ∧
      (bench.params.schemas.wellFormedFor 0x11 = true ∧ bench.params.schemas.touchMove = none) ∧
      (bench.params.schemas.wellFormedFor 0x13 = true ∧ bench.params.schemas.touchStartV = none) ∧
      (bench.params.schemas.wellFormedFor 0x15 = true ∧ bench.params.schemas.touchEndV = none) := by decide +kernel

theorem witness_ConfiguredMessagesDecodeByTheirSchemas_touch :
    benchTouch.params.schemas.wellFormedFor 0x13 = true ∧
      benchTouch.params.schemas.touchStartV = some benchTouchSchema ∧ compositesConsume benchTouchSchema = true ∧
      (2 : BitVec 32).toNat + benchTouchSchema.bitWidth ≤ benchTouch.params.readBoundFactor * [0x13#8, 0x05#8].length ∧
      benchTouch.params.readBoundFactor * [0x13#8, 0x05#8].length < (3 : BitVec 32).toNat + benchTouchSchema.bitWidth := by decide +kernel

theorem witness_ConfiguredMessagesDecodeByTheirSchemas_empty_composite :
    Schemas.wellFormedFor { benchSchemas with touchMove := some benchEmptyComposite } 0x11 = true ∧
      compositesConsume benchEmptyComposite = false := by decide +kernel

theorem witness_ConfiguredMessagesDecodeByTheirSchemas_topology :
    benchTouch.params.schemas.wellFormedFor 0x01 = true ∧
      (benchTouch.params.schemas.topologyHeader = some benchHeader ∧
        benchTouch.params.schemas.topologyDeviceInfo = some benchDeviceInfo ∧
        benchTouch.params.schemas.topologyConnectionInfo = some benchConnectionInfo) ∧
      (compositesConsume benchHeader = true ∧ compositesConsume benchDeviceInfo = true ∧
        compositesConsume benchConnectionInfo = true ∧ 0 < benchDeviceInfo.bitWidth ∧
        0 < benchConnectionInfo.bitWidth) ∧
      FieldsAt [0x01, 0x0A, 0x05, 0x06, 0x41] benchHeader (0 : BitVec 32).toNat
        (.num .tag 1 (.num .deviceCount 2 (.num .connectionCount 1 .nil))) ∧
      ((0 : BitVec 32).toNat + 35 ≤ benchTouch.params.readBoundFactor * [0x01#8, 0x0A, 0x05, 0x06, 0x41].length ∧
        benchTouch.params.readBoundFactor * [0x01#8, 0x0A, 0x05, 0x06, 0x41].length < (6 : BitVec 32).toNat + 35) := by
  refine ⟨by decide +kernel, by decide +kernel, by decide +kernel, ?_, by decide +kernel⟩
  refine ⟨_, _, rfl, fun k => ?_, _, _, rfl, fun k => ?_, _, _, rfl, fun k => ?_, rfl⟩ <;>
    rcases Nat.lt_or_ge k 32 with hk | hk
  · interval_cases k <;> decide +kernel
  · simp [BitVec.getLsbD_of_ge _ _ hk]; omega
  · interval_cases k <;> decide +kernel
  · simp [BitVec.getLsbD_of_ge _ _ hk]; omega
  · interval_cases k <;> decide +kernel
  · simp [BitVec.getLsbD_of_ge _ _ hk]; omega

theorem witness_IllFormedSchemasAreRefused :
    Schemas.wellFormedFor { Schemas.unconfigured with touchMove := some .nil } 0x11 = false ∧
      39 + 7 ≤ bench.params.readBoundFactor * (inboundBuffer (encode (.msgTouchMove []))).length ∧
      readField (inboundBuffer (encode (.msgTouchMove []))) 39 7 = (0x11 : BitVec 7).toNat ∧
      7 ≤ bench.params.readBoundFactor ∧
      (Instr.msgTouchMove [], 0x11#7) ∈ [(Instr.msgTopology [], 0x01#7), (.msgTouchMove [], 0x11#7),
        (.msgTouchStartV [], 0x13#7), (.msgTouchEndV [], 0x15#7)] := by decide +kernel

theorem witness_DispatchCompletes :
    bench.params.schemas.wellFormed = true ∧ bench.sessionWf = true ∧
      benchTouch.params.schemas.wellFormed = true ∧ (benchOpening 7 3 2).sessionWf = true := by decide +kernel

/-- T10. -/
theorem witness_DispatchDeliversInBufferOrder :
    Reaches (exec (.rDispatch
        [0x03, 0x00, 0x00, 0x00, 0x00, 0x20, 0x70, 0x7F, 0x02, 0x00, 0x00]) benchReady)
      (fun t => decide (t.response = ⟨0x00, .messages
        [(0x02, .fields (.num .tag 2 (.num .counter 1023 .nil))),
          (0x02, .fields (.num .tag 2 (.num .counter 0 .nil)))]⟩)) :=
    reaches_of_holdsAfter _ _ (by decide +kernel)

theorem witness_DispatchDeliversBoundedlyMany :
    Reaches (exec (.rDispatch []) bench)
      (fun t => decide (t.response = ⟨0x00, .messages []⟩)) :=
    reaches_of_holdsAfter _ _ (by decide +kernel)

/-- T13, a buffer whose first tag is 0x7F, and T16. -/
theorem witness_UnrecognisedTagStopsTheLoop :
    bench.params.readBoundFactor * [0x03#8, 0, 0, 0, 0].length < 39 + 7 ∧
      readField [0x03, 0x00, 0x00, 0x00, 0x00, 0x70, 0x0F] 39 7 ∉ [0x01, 0x02, 0x11, 0x13, 0x15] ∧
      (readField [0x03, 0x00, 0x00, 0x00, 0x00, 0x10, 0x02] 39 7 = (0x11 : BitVec 7).toNat ∧
        bench.params.schemas.wellFormedFor 0x11 = true ∧
        (decodeMessage bench.params 0x11 [0x03, 0x00, 0x00, 0x00, 0x00, 0x10, 0x02] 39).2 = 0) := by decide +kernel

theorem witness_MessagesBecomeEvents :
    (benchTouch.params.schemas.wellFormed = true ∧ benchTouch.sessionWf = true) ∧
      (Instr.msgTouchMove [5], 0x11#7) ∈ [(Instr.msgTopology [5], 0x01#7), (.msgTouchMove [5], 0x11#7),
        (.msgTouchStartV [5], 0x13#7), (.msgTouchEndV [5], 0x15#7)] ∧
      decodeMessage benchTouch.params 0x11 (inboundBuffer (encode (.msgTouchMove [5]))) 39 =
        (.fields (.num .tag 0x11 (.num (.other 0) 5 .nil)), 14) ∧
      (bench.params.schemas.wellFormed = true ∧ bench.sessionWf = true) ∧
      decodeMessage bench.params 0x11 (inboundBuffer (encode (.msgTouchMove []))) 39 = (.fields .nil, 0) := by decide +kernel

theorem witness_AckMessageIsAnAcknowledgement :
    7 ≤ benchReady.params.readBoundFactor ∧ benchReady.sessionWf = true ∧ bench.sessionWf = true ∧
      (benchOpening 1 1 0).sessionWf = true := by decide +kernel

theorem witness_PacketsReproduceTheNewFrame :
    Reaches (exec (.dCompute [1, 2, 3] [0, 0, 0] 113 3 1 7) bench)
      (fun t => decide (t.response = ⟨0x00, .packets
        [[0x02, 0x01, 0x00, 0x2C, 0x1C, 0x06, 0x00], [0x02, 0x02, 0x00, 0x4C, 0x1C, 0x0A, 0x00],
          [0x02, 0x03, 0x00, 0x6C, 0x1C, 0x0E, 0x10]]⟩)) :=
    reaches_of_holdsAfter _ _ (by decide +kernel)

/-- A device that holds the old bytes of T5, with T5's packets waiting. -/
def benchReader : State :=
  { bench with
    dev := ⟨[(112, 0x09)], 0, none, false⟩
    inputs := ([[0x02, 0x01, 0x00, 0x2C, 0x1C, 0x06, 0x00], [0x02, 0x02, 0x00, 0x4C, 0x1C, 0x0A, 0x00],
      [0x02, 0x03, 0x00, 0x6C, 0x1C, 0x0E, 0x10]] : List (List Byte)).map fun p => .packet (streamBits p) }

theorem witness_PacketsReproduceTheNewFrame_device :
    benchReader.dev.display.wf = true ∧ benchReader.dev.inPacket = false ∧
      benchReader.inputs = ([[0x02, 0x01, 0x00, 0x2C, 0x1C, 0x06, 0x00], [0x02, 0x02, 0x00, 0x4C, 0x1C, 0x0A, 0x00],
        [0x02, 0x03, 0x00, 0x6C, 0x1C, 0x0E, 0x10]] : List (List Byte)).map (fun p => .packet (streamBits p)) ∧
      (List.range (3 : BitVec 16).toNat).all (fun q =>
        decide (benchReader.dev.display.read ((113 : BitVec 16).toNat + q) = [0x00#8, 0, 0].getD q 0)) = true := by decide +kernel

/-- V3 with other values; `maxBytes` = 0. -/
theorem witness_PacketsFitTheBudget :
    Reaches (exec (.dCompute [1] [0] 0 1 1 0) bench)
      (fun t => decide (t.response = ⟨0x00, .packets [[0x02, 0x01, 0x00, 0x30, 0x00, 0x01]]⟩)) :=
    reaches_of_holdsAfter _ _ (by decide +kernel)

/-- V10. -/
theorem witness_PacketsAreNumberedAndTerminated :
    Reaches (exec (.dCompute [1, 2, 3] [0, 0, 0] 113 3 0xFFFF 7) bench)
      (fun t => decide (t.response = ⟨0x00, .packets
        [[0x02, 0x7F, 0x7F, 0x2F, 0x1C, 0x06, 0x00], [0x02, 0x00, 0x00, 0x4C, 0x1C, 0x0A, 0x00],
          [0x02, 0x01, 0x00, 0x6C, 0x1C, 0x0E, 0x10]]⟩)) :=
    reaches_of_holdsAfter _ _ (by decide +kernel)

theorem witness_RoomyFrameGivesOnePacket :
    [9#8].length = [0#8].length ∧ (1 : BitVec 16).toNat ≤ [9#8].length ∧
      26 + 12 * ((0 : BitVec 16).toNat + (1 : BitVec 16).toNat) ≤ 7 * bench.params.wcap ∧
      26 + 12 * ((0 : BitVec 16).toNat + (1 : BitVec 16).toNat) ≤ 7 * (6 : BitVec 16).toNat := by decide +kernel

/-- V1. -/
theorem witness_EqualFramesGiveOnlySkips :
    (4 : BitVec 16).toNat ≤ [5#8, 6, 7, 8].length ∧
      26 + (11 * (((113 : BitVec 16).toNat + (4 : BitVec 16).toNat + 254) / 255) + 7) ≤ 7 * bench.params.wcap ∧
      26 + (11 * (((113 : BitVec 16).toNat + (4 : BitVec 16).toNat + 254) / 255) + 7) ≤
        7 * (7 : BitVec 16).toNat := by decide +kernel

theorem witness_EncoderRefusesBadOperands :
    ([1#8, 2].length ≠ [0#8].length ∧ [1#8].length < (2 : BitVec 16).toNat) ∧
      ([1#8].length = [0#8].length ∧ (1 : BitVec 16).toNat ≤ [1#8].length ∧
        1 ≤ (1 : BitVec 16).toNat ∧ (1 : BitVec 16).toNat ≤ 3 ∧ 1 ≤ (3 : BitVec 16).toNat ∧ (3 : BitVec 16).toNat ≤ 3) := by decide +kernel

theorem witness_LiteralWritesItsBytes :
    benchDevice.dev.display.wf = true := by decide +kernel

theorem witness_ValueCommandsWriteCopies :
    benchDevice.dev.display.wf = true ∧ benchDevice.dev.last = some 9 := by decide +kernel

theorem witness_VallWithoutValueGoesOn :
    bench.dev.last = none ∧ (1 : BitVec 4) ≠ 0 ∧ (15 : BitVec 4) ≠ 0 ∧ (0 : BitVec 4) = 0 := by decide +kernel

/-- For `S_CONFIG`, and for `S_OPEN` and `S_CLOSE` too. -/
theorem witness_ConfigOnlyInClosed :
    bench.sstate = .closed ∧ benchReady.sstate ≠ .closed ∧ (benchOpening 1 1 0).sstate ≠ .closed := by decide +kernel

theorem witness_OpenRunsStepOne :
    bench.sstate = .closed ∧ benchReady.sstate ≠ .closed ∧ (benchOpening 1 1 0).sstate ≠ .closed := by decide +kernel

theorem witness_AckUpdatesCountersAndDrains :
    bench.sstate = .closed ∧
      (benchReady.sstate ≠ .closed ∧ benchReady.queue = [] ∧ benchReady.pending = false) ∧
      State.queue { benchReady with queue := [[0x02]] } = [0x02] :: [] := by decide +kernel

theorem witness_AckAdvancesTheHandshake :
    ([1, 5, 7] : List (BitVec 4)).all (fun n =>
      decide ((benchOpening n 1 0).sstate = .opening) && (benchOpening n 1 0).pending &&
      (benchOpening n 1 0).queue.isEmpty && decide (1 ≤ (benchOpening n 1 0).stepReg.toNat) &&
      decide ((benchOpening n 1 0).stepReg.toNat ≤ 7)) = true := by decide +kernel

theorem witness_SevenAcksReachReady :
    bench.sstate = .closed ∧ bench.queue = [] ∧
      ([1, 2, 3, 4, 5, 2, 2] : List (BitVec 10)).length = 7 := by decide +kernel

theorem witness_CloseEndsTheSession :
    bench.sstate = .closed ∧ benchReady.sstate ≠ .closed ∧ (benchOpening 1 1 0).sstate ≠ .closed := by decide +kernel

theorem witness_FrameOutsideTheGateIsDropped :
    bench.sstate ≠ .ready ∧ State.pc { benchReady with pc := 4 } ≠ State.apc { benchReady with pc := 4 } + 1 := by decide +kernel

/-- P2 line 1. -/
theorem witness_FrameIsCommittedAndItsHeadSent :
    (benchReady.sstate = .ready ∧ benchReady.pc = benchReady.apc + 1 ∧
      benchReady.queue.length + 3 ≤ benchReady.params.qcap ∧ benchReady.queue = []) ∧
      Reaches (exec (.dCompute [1, 2, 3] [0, 0, 0] 113 3 (benchReady.pc.setWidth 16) benchReady.maxPkt) benchReady)
      (fun t => decide (t.response = ⟨0x00, .packets
        [[0x02, 0x03, 0x00, 0x2C, 0x1C, 0x06, 0x00], [0x02, 0x04, 0x00, 0x4C, 0x1C, 0x0A, 0x00],
          [0x02, 0x05, 0x00, 0x6C, 0x1C, 0x0E, 0x10]]⟩)) :=
    ⟨by decide +kernel, reaches_of_holdsAfter _ _ (by decide +kernel)⟩

theorem witness_FrameIsCommittedAndItsHeadSent_queued :
    (benchReady.sstate = .ready ∧ benchReady.pc = benchReady.apc + 1 ∧ [[0x02#8]].length + 3 ≤ benchReady.params.qcap) ∧
      Reaches (exec (.dCompute [1, 2, 3] [0, 0, 0] 113 3 (benchReady.pc.setWidth 16) benchReady.maxPkt)
        { benchReady with queue := [[0x02]] })
      (fun t => decide (t.response = ⟨0x00, .packets
        [[0x02, 0x03, 0x00, 0x2C, 0x1C, 0x06, 0x00], [0x02, 0x04, 0x00, 0x4C, 0x1C, 0x0A, 0x00],
          [0x02, 0x05, 0x00, 0x6C, 0x1C, 0x0E, 0x10]]⟩)) :=
    ⟨by decide +kernel, reaches_of_holdsAfter _ _ (by decide +kernel)⟩

theorem witness_RoomyFrameIsCommitted :
    benchReady.sstate = .ready ∧ benchReady.pc = benchReady.apc + 1 ∧ benchReady.queue = [] ∧
      1 ≤ benchReady.params.qcap ∧ [9#8].length = [0#8].length ∧ (1 : BitVec 16).toNat ≤ [9#8].length ∧
      26 + 12 * ((0 : BitVec 16).toNat + (1 : BitVec 16).toNat) ≤ 7 * benchReady.params.wcap ∧
      26 + 12 * ((0 : BitVec 16).toNat + (1 : BitVec 16).toNat) ≤ 7 * benchReady.maxPkt.toNat := by decide +kernel

theorem witness_FrameFaultsAreTheEncodersOrQueueFull :
    (benchReady.sstate = .ready ∧ benchReady.pc = benchReady.apc + 1 ∧ benchReady.params.qcap < [[0x02#8], [0x02]].length + 3) ∧
      Reaches (exec (.dCompute [1, 2, 3] [0, 0, 0] 113 3 (benchReady.pc.setWidth 16) benchReady.maxPkt)
        { benchReady with queue := [[0x02], [0x02]] })
      (fun t => decide (t.response = ⟨0x00, .packets
        [[0x02, 0x03, 0x00, 0x2C, 0x1C, 0x06, 0x00], [0x02, 0x04, 0x00, 0x4C, 0x1C, 0x0A, 0x00],
          [0x02, 0x05, 0x00, 0x6C, 0x1C, 0x0E, 0x10]]⟩)) :=
    ⟨by decide +kernel, reaches_of_holdsAfter _ _ (by decide +kernel)⟩

/-- S14. -/
theorem witness_FrameFaultsAreTheEncodersOrQueueFull_encoder :
    (benchReady.sstate = .ready ∧ benchReady.pc = benchReady.apc + 1) ∧
      Reaches (exec (.dCompute [1, 2] [0] 0 2 (benchReady.pc.setWidth 16) benchReady.maxPkt) benchReady)
      (fun t => decide (t = benchReady.raise .arg)) :=
    ⟨by decide +kernel, reaches_of_holdsAfter _ _ (by decide +kernel)⟩

theorem witness_CommittedFrameDrainsByAcks :
    (benchReady.sstate = .ready ∧ benchReady.pc = benchReady.apc + 1 ∧ benchReady.queue = [] ∧
      3 ≤ benchReady.params.qcap ∧ ([3, 4] : List (BitVec 10)).length < 3) ∧
      Reaches (exec (.dCompute [1, 2, 3] [0, 0, 0] 113 3 (benchReady.pc.setWidth 16) benchReady.maxPkt) benchReady)
      (fun t => decide (t.response = ⟨0x00, .packets
        [[0x02, 0x03, 0x00, 0x2C, 0x1C, 0x06, 0x00], [0x02, 0x04, 0x00, 0x4C, 0x1C, 0x0A, 0x00],
          [0x02, 0x05, 0x00, 0x6C, 0x1C, 0x0E, 0x10]]⟩)) :=
    ⟨by decide +kernel, reaches_of_holdsAfter _ _ (by decide +kernel)⟩

end Sys2Proof.Tests
end

section
/-! The scope of the machine: what a step fetches and runs (R8, R84, R280), what lies outside the CORE
(R7, R70, R372), and the costs of R14. -/

namespace Sys2Proof

/-! ### The decoder: every decoded instruction is of its layer -/

/-- Reading in two parts ends well when both do. -/
theorem decode_bind_ok {α β : Type} {x : Except DecodeError α} {f : α → Except DecodeError β} {b : β} :
    (x >>= f) = .ok b ↔ ∃ a, x = .ok a ∧ f a = .ok b := by
  rcases x with e | a <;> simp [bind, Except.bind]

/-- The header decoder reads nothing but headers (R102). -/
theorem decodeHeader_layer {bits left : List Bool} {i : Instr}
    (h : decode .header bits = .ok (i, left)) : i.layer = .header := by
  obtain ⟨⟨tag, bs⟩, -, h⟩ := decode_bind_ok.1 h
  dsimp only at h
  split at h
  · obtain ⟨⟨seq, bs'⟩, -, h⟩ := decode_bind_ok.1 h
    cases h; rfl
  · cases h

/-- The command decoder reads nothing but commands (R104). -/
theorem decodeCommand_layer {bits left : List Bool} {i : Instr}
    (h : decode .command bits = .ok (i, left)) : i.layer = .command := by
  obtain ⟨⟨cmd, bs⟩, -, h⟩ := decode_bind_ok.1 h
  dsimp only at h
  split at h
  case h_1 | h_2 => cases h; rfl
  case h_3 | h_4 | h_5 | h_7 =>
    obtain ⟨⟨x, bs'⟩, -, h⟩ := decode_bind_ok.1 h
    cases h; rfl
  case h_6 | h_8 =>
    obtain ⟨⟨n, bs'⟩, -, h⟩ := decode_bind_ok.1 h
    obtain ⟨⟨v, bs''⟩, -, h⟩ := decode_bind_ok.1 h
    cases h; rfl

/-- A byte-list operand that fits its length field is read back (log 3). -/
theorem getData_putData {data : List Byte} (hd : data.length < 2 ^ 32) (rest : List Bool) :
    getData (putData data ++ rest) = .ok (data, rest) := by
  have hlen : (BitVec.ofNat 32 data.length).toNat = data.length := by simpa using hd
  rw [putData, List.append_assoc, getData, getField_bitsOf]
  simp only [bind, Except.bind, hlen, getBytes_flatMap]

/-- The `R_DISPATCH` request of a buffer decodes to it (R112). -/
theorem decode_encode_rDispatch {data : List Byte} (hd : data.length < 2 ^ 32) :
    decode .request (encode (.rDispatch data)) = .ok (.rDispatch data, []) := by
  have hdata : getData (putData data) = .ok (data, []) := by simpa using getData_putData hd []
  simp only [decode, decodeRequest, encode, getField_bitsOf, bind, Except.bind]
  simp [hdata]

/-! ### Lengths of the command formats (R14, R105) -/

/-- A literal writes a byte and a continuation bit for each of its bytes (R105). -/
@[simp] theorem putLiteral_length (vs : List Byte) : (putLiteral vs).length = 9 * vs.length := by
  induction vs using putLiteral.induct with
  | case1 => rfl
  | case2 v => simp [putLiteral]
  | case3 v vs hne ih => simp [putLiteral, ih]; omega

end Sys2Proof

namespace Sys2Proof.Machine

/-! ### One step, by what stands first at the inputs -/

theorem step_idle {s : State} (h : s.inputs = []) : step s = idle s := by
  unfold step takeInput; rw [h]

theorem step_reset {s : State} {rest : List Input} (h : s.inputs = .reset :: rest) :
    step s = .next ({ s with inputs := rest }.coreReset) := by
  unfold step takeInput; rw [h]

theorem step_request {s : State} {bits : List Bool} {rest : List Input}
    (h : s.inputs = .request bits :: rest) : step s = runRequest bits { s with inputs := rest } := by
  unfold step takeInput; rw [h]

theorem step_packet {s : State} {bits : List Bool} {rest : List Input}
    (h : s.inputs = .packet bits :: rest) : step s = runPacket bits { s with inputs := rest } := by
  unfold step takeInput; rw [h]

/-- With nothing placed for U3 to send, the machine idles in place (R372). -/
theorem idle_none {s : State} (h : s.outbound = none) : idle s = .next s := by
  unfold idle; rw [h]

theorem idle_some {s : State} {bits : List Bool} (h : s.outbound = some bits) :
    idle s = runPayload bits { s with outbound := none } := by
  unfold idle; rw [h]

theorem runRequest_ok {s : State} {bits left : List Bool} {i : Instr}
    (h : decode .request bits = .ok (i, left)) : runRequest bits s = exec i s := by
  unfold runRequest; rw [h]

theorem runPacket_ok {s : State} {bits left : List Bool} {i : Instr}
    (h : decode (packetLayer s.dev) bits = .ok (i, left)) :
    runPacket bits s = afterCommand left (exec i s) := by
  unfold runPacket; rw [h]

theorem runPayload_ok {s : State} {bits left : List Bool} {i : Instr}
    (h : decode .payload bits = .ok (i, left)) : runPayload bits s = exec i s := by
  unfold runPayload; rw [h]

/-- What a request that ends in a next state can have done: run its instruction, or raise
`E_ILLEGAL_OP` for a reserved opcode (R114). -/
theorem runRequest_next {s t : State} {bits : List Bool} (h : runRequest bits s = .next t) :
    (∃ i left, decode .request bits = .ok (i, left) ∧ exec i s = .next t) ∨
      t = s.raise .illegalOp := by
  unfold runRequest at h
  split at h
  case h_1 i left hd => exact .inl ⟨i, left, hd, h⟩
  case h_2 => cases h; exact .inr rfl
  case h_3 => cases h

/-- What a unit of a packet that ends in a next state has done: run its instruction and put the unread
bits back (R280). -/
theorem runPacket_next {s t : State} {bits : List Bool} (h : runPacket bits s = .next t) :
    ∃ i left u, decode (packetLayer s.dev) bits = .ok (i, left) ∧ exec i s = .next u ∧
      t = continuePacket left u := by
  unfold runPacket at h
  split at h
  case h_1 i left hd =>
    rcases hu : exec i s with u | f | r <;> rw [hu] at h <;> cases h
    exact ⟨i, left, u, hd, hu, rfl⟩
  case h_2 | h_3 => cases h

/-- A packet's next unit is a header or a command (R102). -/
theorem packetLayer_decode {d : Device} {bits left : List Bool} {i : Instr}
    (h : decode (packetLayer d) bits = .ok (i, left)) : i.layer = .header ∨ i.layer = .command := by
  unfold packetLayer at h
  split at h
  · exact .inr (decodeCommand_layer h)
  · exact .inl (decodeHeader_layer h)

/-- Putting the unread bits back changes nothing but the inputs. -/
theorem continuePacket_frame (left : List Bool) (u : State) :
    continuePacket left u = { u with inputs := (continuePacket left u).inputs } := by
  unfold continuePacket
  split <;> rfl

/-- An inbound message is the dispatch of the buffer that holds it (R372). -/
theorem exec_message {i : Instr} (hl : i.layer = .message) (s : State) :
    exec i s = exec (.rDispatch (inboundBuffer (encode i))) s := by
  cases i with
  | msgTopology | msgAck | msgTouchMove | msgTouchStartV | msgTouchEndV => rfl
  | _ => cases hl

/-- A command payload is one transmission with its table checksum (R111, R301; log 1). -/
theorem exec_payload {i : Instr} (hl : i.layer = .payload) (s : State) :
    ∃ d, exec i s = finish s (transmitCommand s d i) := by
  rcases payload_rows i hl with rfl | rfl | rfl | rfl | rfl | rfl
  case inr.inr.inr.inr.inr => exact ⟨0, rfl⟩
  all_goals exact ⟨s.devIdx, rfl⟩

/-! ### What lies outside the CORE's registers -/

/-- What no request writes: the parameters (R54), the device and its count of free values (R7), what
waits at the inputs, and a placed payload (log 1). -/
def State.outside (s : State) : Params × Device × Nat × List Input × Option (List Bool) :=
  (s.params, s.dev, s.freeCount, s.inputs, s.outbound)

theorem State.outside_eq_iff {s t : State} :
    t.outside = s.outside ↔ t.params = s.params ∧ t.dev = s.dev ∧ t.freeCount = s.freeCount ∧
      t.inputs = s.inputs ∧ t.outbound = s.outbound := by
  simp [State.outside]

@[simp] theorem State.raise_outside (s : State) (c : ErrCode) : (s.raise c).outside = s.outside := rfl
@[simp] theorem State.respondOk_outside (s : State) (r : Result) :
    (s.respondOk r).outside = s.outside := rfl
@[simp] theorem State.emit_outside (s : State) (e : Event) : (s.emit e).outside = s.outside := rfl
@[simp] theorem State.setWriter_outside (s : State) (h : BitVec 8) (wr : Writer) :
    (s.setWriter h wr).outside = s.outside := rfl

/-- A request leaves the outside alone where its work does. -/
theorem answer_outside {s t : State} {r : Except Stop (State × Result)}
    (hr : ∀ u res, r = .ok (u, res) → u.outside = s.outside) (h : answer s r = .next t) :
    t.outside = s.outside := by
  obtain ⟨u, res, hu, rfl⟩ | ⟨c, -, rfl⟩ := answer_next.1 h
  · exact hr u res hu
  · rfl

/-- A request on a writer leaves the outside alone where its work after the handle check does. -/
theorem answer_getWriter_outside {s t : State} {h : BitVec 8}
    {f : Writer → Except Stop (State × Result)}
    (hf : ∀ wr u res, f wr = .ok (u, res) → u.outside = s.outside)
    (ha : answer s (getWriter s h >>= f) = .next t) : t.outside = s.outside := by
  refine answer_outside (fun u res hu => ?_) ha
  obtain ⟨wr, -, hu⟩ := bind_ok.1 hu
  exact hf wr u res hu

/-! ### Transmission and the session leave the outside alone -/

theorem transmit_outside {s t : State} {d : BitVec 7} {p : List Byte} {e : Option (BitVec 7)}
    (h : transmit s d p e = .ok t) : t.outside = s.outside := by
  rcases transmit_cases s d p e with hok | herr
  · cases hok.symm.trans h; rfl
  · cases herr.symm.trans h

theorem transmitCommand_outside {s t : State} {d : BitVec 7} {cmd : Instr}
    (h : transmitCommand s d cmd = .ok t) : t.outside = s.outside := transmit_outside h

theorem exec_payload_outside {i : Instr} {s t : State} (h : exec i s = .next t)
    (hl : i.layer = .payload) : t.outside = s.outside := by
  obtain ⟨d, hd⟩ := exec_payload hl s
  obtain hok | ⟨c, -, rfl⟩ := finish_next.1 (hd.symm.trans h)
  · exact transmitCommand_outside hok
  · rfl

theorem sendQueuedHead_outside {s t : State} (h : sendQueuedHead s = .ok t) :
    t.outside = s.outside := by
  rcases hq : s.queue with _ | ⟨p, rest⟩
  · cases (sendQueuedHead_nil hq).symm.trans h; rfl
  · cases (sendQueuedHead_cons hq).symm.trans h; rfl

theorem stepActions_outside {n : Nat} {s t : State} (h : stepActions n s = .ok t) :
    t.outside = s.outside := by
  unfold stepActions at h
  split at h
  case h_1 =>
    obtain ⟨u, hu, ht⟩ := bind_ok.1 h
    exact (transmitCommand_outside ht).trans (transmitCommand_outside hu)
  case h_2 | h_4 | h_5 | h_7 => exact transmitCommand_outside h
  case h_3 => exact (transmitCommand_outside h).trans rfl
  case h_6 =>
    obtain ⟨u, hu, h⟩ := bind_ok.1 h
    obtain ⟨v, hv, h⟩ := bind_ok.1 h
    cases h
    exact (transmit_outside hv).trans (transmit_outside hu)
  case h_8 => cases h; rfl
  case h_9 => cases h

theorem runStep_outside {n : BitVec 4} {s t : State} (h : runStep n s = .ok t) :
    t.outside = s.outside := by
  obtain ⟨u, hu, h⟩ := bind_ok.1 h
  have hus : u.outside = s.outside := (stepActions_outside hu).trans rfl
  cases h
  split <;> exact hus

@[simp] theorem ackCounter_outside (c : BitVec 10) (s : State) :
    (ackCounter c s).outside = s.outside := by
  rcases ackCounter_cases c s with ⟨-, h⟩ | ⟨-, h⟩ <;> rw [h] <;> rfl

theorem ackContinue_outside {s t : State} (h : ackContinue s = .ok t) : t.outside = s.outside := by
  rcases ackContinue_cases s with ⟨p, rest, -, he⟩ | ⟨-, -, he⟩ | ⟨-, -, he⟩
  · cases he.symm.trans h; rfl
  · exact runStep_outside (s := { s with pending := false }) (he.symm.trans h)
  · cases he.symm.trans h; rfl

theorem acknowledge_outside {c : BitVec 10} {s t : State} (h : acknowledge c s = .ok t) :
    t.outside = s.outside := by
  rcases acknowledge_cases c s with ⟨-, he⟩ | ⟨-, he⟩
  · cases he.symm.trans h; rfl
  · exact (ackContinue_outside (he.symm.trans h)).trans (ackCounter_outside c s)

theorem abortWait_outside (s : State) : (abortWait s).outside = s.outside := by
  unfold abortWait
  split <;> rfl

theorem commitFrame_outside {pk : List (List Byte)} {s t : State} (h : commitFrame pk s = .ok t) :
    t.outside = s.outside := by
  unfold commitFrame at h
  split at h
  · cases h
  · dsimp only at h
    split at h
    · exact (sendQueuedHead_outside h).trans rfl
    · cases h; rfl

/-! ### So does the dispatch of messages -/

theorem deliver_outside {tag : BitVec 7} {f : Decoded} {s t : State} (h : deliver tag f s = .ok t) :
    t.outside = s.outside := by
  rcases deliver_cases tag f s with ⟨-, he⟩ | ⟨-, he⟩
  · exact acknowledge_outside (he.symm.trans h)
  · cases he.symm.trans h; rfl

theorem dispatchLoop_outside {data : List Byte} {fuel p : Nat} {s t : State}
    {ms : List (BitVec 7 × Decoded)} (h : dispatchLoop data fuel p s = .ok (t, ms)) :
    t.outside = s.outside := by
  induction fuel generalizing p s ms with
  | zero => cases h; rfl
  | succ fuel ih =>
    obtain ⟨rfl, -⟩ | ⟨v, f, n, u, rest, -, -, -, -, -, hu, hl, -⟩ := dispatchLoop_succ h
    · rfl
    · exact (ih hl).trans (deliver_outside hu)

theorem dispatch_outside {data : List Byte} {s t : State} (h : dispatch data s = .next t) :
    t.outside = s.outside := by
  obtain ⟨u, ms, hu, rfl⟩ | ⟨c, -, rfl⟩ := dispatch_next.1 h
  · exact (u.respondOk_outside _).trans (dispatchLoop_outside hu)
  · rfl

/-! ### The requests, unit by unit -/

theorem execWBits_outside {h : BitVec 8} {v : BitVec 32} {w : BitVec 6} {s t : State}
    (ht : execWBits h v w s = .next t) : t.outside = s.outside := by
  refine answer_getWriter_outside (fun wr u res hu => ?_) ht
  split at hu
  · cases hu
  · split at hu
    · cases hu
    · split at hu <;> cases hu
      rfl

theorem execWRestore_outside {h : BitVec 8} {nb : BitVec 32} {nbit : BitVec 3} {s t : State}
    (ht : execWRestore h nb nbit s = .next t) : t.outside = s.outside := by
  refine answer_getWriter_outside (fun wr u res hu => ?_) ht
  split at hu
  · cases hu
  · split at hu <;> cases hu
    rfl

theorem execWClone_outside {hd hs : BitVec 8} {s t : State} (ht : execWClone hd hs s = .next t) :
    t.outside = s.outside := by
  refine answer_getWriter_outside (fun _ u res hu => ?_) ht
  obtain ⟨wr, -, hu⟩ := bind_ok.1 hu
  cases hu; rfl

theorem execRBits_outside {data : List Byte} {p : BitVec 32} {w : BitVec 6} {s t : State}
    (ht : execRBits data p w s = .next t) : t.outside = s.outside := by
  refine answer_outside (fun u res hu => ?_) ht
  split at hu <;> cases hu
  rfl

theorem execRDecode_outside {data : List Byte} {p : BitVec 32} {tag : BitVec 7} {s t : State}
    (ht : execRDecode data p tag s = .next t) : t.outside = s.outside := by
  unfold execRDecode at ht
  split at ht <;> cases ht
  rfl

theorem execDCompute_outside {newData oldData : List Byte}
    {baseOffset length startIndex maxBytes : BitVec 16} {s t : State}
    (ht : execDCompute newData oldData baseOffset length startIndex maxBytes s = .next t) :
    t.outside = s.outside := by
  refine answer_outside (fun u res hu => ?_) ht
  obtain ⟨pk, -, hu⟩ := bind_ok.1 hu
  cases hu; rfl

theorem execSConfig_outside {devIdx : BitVec 7} {maxPkt : BitVec 16} {s t : State}
    (ht : execSConfig devIdx maxPkt s = .next t) : t.outside = s.outside := by
  refine answer_outside (fun u res hu => ?_) ht
  split at hu <;> cases hu
  rfl

theorem execSOpen_outside {s t : State} (ht : execSOpen s = .next t) : t.outside = s.outside := by
  refine answer_outside (fun u res hu => ?_) ht
  split at hu
  · obtain ⟨v, hv, hu⟩ := bind_ok.1 hu
    cases hu
    exact (runStep_outside hv).trans rfl
  · cases hu

theorem execSClose_outside {s t : State} (ht : execSClose s = .next t) : t.outside = s.outside := by
  refine answer_outside (fun u res hu => ?_) ht
  cases hu
  split
  · rfl
  · exact abortWait_outside s

theorem execSAck_outside {c : BitVec 10} {s t : State} (ht : execSAck c s = .next t) :
    t.outside = s.outside := by
  refine answer_outside (fun u res hu => ?_) ht
  obtain ⟨v, hv, hu⟩ := bind_ok.1 hu
  cases hu
  exact acknowledge_outside hv

theorem execSFrame_outside {newData oldData : List Byte} {baseOffset length : BitVec 16} {s t : State}
    (ht : execSFrame newData oldData baseOffset length s = .next t) : t.outside = s.outside := by
  refine answer_outside (fun u res hu => ?_) ht
  split at hu
  · cases hu; rfl
  · obtain ⟨pk, -, hu⟩ := bind_ok.1 hu
    obtain ⟨v, hv, hu⟩ := bind_ok.1 hu
    cases hu
    exact commitFrame_outside hv

theorem execSHbTick_outside {s t : State} (ht : execSHbTick s = .next t) :
    t.outside = s.outside := by
  refine answer_outside (fun u res hu => ?_) ht
  split at hu
  · obtain ⟨v, hv, hu⟩ := bind_ok.1 hu
    cases hu
    exact transmitCommand_outside hv
  · cases hu; rfl

theorem execSReqTopo_outside {s t : State} (ht : execSReqTopo s = .next t) :
    t.outside = s.outside := by
  refine answer_outside (fun u res hu => ?_) ht
  obtain ⟨v, hv, hu⟩ := bind_ok.1 hu
  cases hu
  exact transmitCommand_outside hv

/-! ### Every instruction -/

/-- A message, a payload or a request leaves the outside alone (R7). -/
theorem exec_outside {i : Instr} {s t : State}
    (hl : i.layer = .message ∨ i.layer = .payload ∨ i.layer = .request) (h : exec i s = .next t) :
    t.outside = s.outside := by
  cases i with
  | deltaHdr | eop | eoc | skipf | skipm | lit | valf | vall | valm => simp [Instr.layer] at hl
  | msgTopology | msgAck | msgTouchMove | msgTouchStartV | msgTouchEndV | rDispatch =>
    exact dispatch_outside h
  | cmdEndApi | cmdBeginApi | cmdHeartbeat | cmdEnableMpe | cmdSaveDefault | cmdReqTopology =>
    exact exec_payload_outside h rfl
  | wNew | wSize | wHascap | wSnap | wRead =>
    exact answer_getWriter_outside (fun _ _ _ hu => by cases hu; rfl) h
  | wBits => exact execWBits_outside h
  | wRestore => exact execWRestore_outside h
  | wClone => exact execWClone_outside h
  | rBits => exact execRBits_outside h
  | rDecode => exact execRDecode_outside h
  | dCompute => exact execDCompute_outside h
  | sConfig => exact execSConfig_outside h
  | sOpen => exact execSOpen_outside h
  | sClose => exact execSClose_outside h
  | sAck => exact execSAck_outside h
  | sFrame => exact execSFrame_outside h
  | sHbTick => exact execSHbTick_outside h
  | sReqTopo => exact execSReqTopo_outside h
  | rType | sStatus => cases h; rfl

/-- An instruction of a change-list packet changes nothing but the device and the count of free values
(R7, R280). -/
theorem exec_device_frame {i : Instr} {s t : State} (hl : i.layer = .header ∨ i.layer = .command)
    (h : exec i s = .next t) : t = { s with dev := t.dev, freeCount := t.freeCount } := by
  cases i with
  | deltaHdr | eop | eoc | skipf | skipm | lit | valf | valm => cases h; rfl
  | vall n =>
    change execVall n s = .next t at h
    unfold execVall at h
    split at h
    · cases h; rfl
    · split at h <;> cases h <;> rfl
  | _ => simp [Instr.layer] at hl

/-- No instruction places a payload. -/
theorem exec_outbound {i : Instr} {s t : State} (h : exec i s = .next t) :
    t.outbound = s.outbound := by
  by_cases hl : i.layer = .header ∨ i.layer = .command
  · rw [exec_device_frame hl h]
  · have hcore : i.layer = .message ∨ i.layer = .payload ∨ i.layer = .request := by
      cases hi : i.layer <;> simp_all
    obtain ⟨-, -, -, -, hout⟩ := State.outside_eq_iff.1 (exec_outside hcore h)
    exact hout

theorem runRequest_outbound {bits : List Bool} {s t : State} (h : runRequest bits s = .next t) :
    t.outbound = s.outbound := by
  obtain ⟨i, left, -, he⟩ | rfl := runRequest_next h
  · exact exec_outbound he
  · rfl

/-- A unit of a packet changes nothing but the device, the count of free values and the inputs (R280). -/
theorem runPacket_frame {bits : List Bool} {s t : State} (h : runPacket bits s = .next t) :
    t = { s with dev := t.dev, freeCount := t.freeCount, inputs := t.inputs } := by
  obtain ⟨i, left, u, hd, hu, rfl⟩ := runPacket_next h
  have hdev := exec_device_frame (packetLayer_decode hd) hu
  rw [continuePacket_frame, hdev]

end Sys2Proof.Machine

open Sys2Proof Sys2Proof.Machine

/-- Settles O13: by the frame of the device side and what the other layers leave outside the CORE. -/
theorem deviceAndCoreAreSeparate : Obligations.DeviceAndCoreAreSeparate := by
  intro s t i h
  refine ⟨fun hl => exec_device_frame hl h, fun hl => ?_⟩
  obtain ⟨-, hout⟩ := State.outside_eq_iff.1 (exec_outside hl h)
  exact hout

/-- Settles O4: by cases on what stands first at the inputs. -/
theorem onlyRequestsAndResetChangeTheCore : Obligations.OnlyRequestsAndResetChangeTheCore := by
  intro s t h hout
  rcases hi : s.inputs with _ | ⟨_ | bits | bits, rest⟩
  case nil =>
    rw [step_idle hi, idle_none hout] at h
    cases h
    exact ⟨hout, fun _ => rfl, fun _ _ => rfl⟩
  case cons.reset =>
    rw [step_reset hi] at h
    cases h
    exact ⟨hout, by simp, by simp⟩
  case cons.request =>
    rw [step_request hi] at h
    exact ⟨(runRequest_outbound h).trans hout, by simp, fun hreq => absurd rfl (hreq bits)⟩
  case cons.packet =>
    rw [step_packet hi] at h
    have hframe := runPacket_frame h
    refine ⟨?_, by simp, fun _ _ => hframe⟩
    rw [hframe]
    exact hout

/-- Settles O3: a clause for each kind of thing a step can take. -/
theorem stepRunsTheDecodedInstruction : Obligations.StepRunsTheDecodedInstruction := by
  intro s i bits left rest
  refine ⟨fun hi hd => ?_, fun hi hd => ?_, fun hl hlen hi => ?_, fun hi hout hd => ?_⟩
  · rw [step_request hi, runRequest_ok hd]
  · rw [step_packet hi, runPacket_ok (s := { s with inputs := rest }) hd]
    cases exec i { s with inputs := rest } <;> rfl
  · rw [step_request hi, runRequest_ok (decode_encode_rDispatch hlen), exec_message hl]
  · rw [step_idle hi, idle_some hout, runPayload_ok hd]

/-- Settles O6: by the lengths of the fields of each format. -/
theorem commandCostsAreTheFormatLengths : Obligations.CommandCostsAreTheFormatLengths := by
  intro n4 n8 v vs
  simp [cost, encode]

end

section
/-! The state of the CORE (10_state.md): the good states and that every step keeps them, what no request
reads or writes, and the status words. -/

namespace Sys2Proof.Machine

/-! ### What U3's operations do to the state -/

/-- The `EV_TX` of a row of R111's table to device `d`. -/
def commandEvent (d : BitVec 7) (cmd : Instr) : Event :=
  .tx d (payloadBytes cmd) (some (expectedChecksum cmd))

/-- What each of the waiting steps 1 to 7 sends (R321 to R327). -/
def stepSends (n : BitVec 4) (s : State) : List Event :=
  match n.toNat with
  | 1 => [commandEvent s.devIdx .cmdEndApi, commandEvent s.devIdx .cmdBeginApi]
  | 2 => [commandEvent s.devIdx .cmdBeginApi]
  | 3 => [commandEvent s.devIdx .cmdHeartbeat]
  | 4 => [commandEvent s.devIdx .cmdEnableMpe]
  | 5 => [commandEvent s.devIdx .cmdHeartbeat]
  | 6 => [.tx s.devIdx s.params.fwImage0 none, .tx s.devIdx s.params.fwImage1 none]
  | 7 => [commandEvent s.devIdx .cmdSaveDefault]
  | _ => []

/-- Steps 1 to 7 send their payloads and await an ack; step 3 also sets `HBEN`, and step 6 `PC`
(R320 to R327). -/
theorem runStep_waits {n : BitVec 4} {s : State} (h1 : 1 ≤ n.toNat) (h7 : n.toNat ≤ 7) :
    runStep n s = .ok { s with
      stepReg := n
      pending := true
      hbEn := s.hbEn || decide (n.toNat = 3)
      pc := if n.toNat = 6 then Config.fwCounterAfterUpload else s.pc
      events := s.events ++ stepSends n s } := by
  have hn : n = 1 ∨ n = 2 ∨ n = 3 ∨ n = 4 ∨ n = 5 ∨ n = 6 ∨ n = 7 := by bv_omega
  rcases hn with rfl | rfl | rfl | rfl | rfl | rfl | rfl <;>
    simp (disch := decide) [runStep, stepActions, transmitCommand_ok, bind, Except.bind, stepSends,
      commandEvent, awaitAck, State.emit]

/-- Step 8 makes the session ready (R328). -/
theorem runStep_ready (s : State) :
    runStep 8 s = .ok { s with
      stepReg := 8
      readyF := true
      sstate := .ready
      events := s.events ++ [.ready] } := rfl

/-- There is no step outside 1 to 8 (log 15). -/
theorem runStep_overrun {n : BitVec 4} {s : State} (h : n.toNat = 0 ∨ 8 < n.toNat) :
    runStep n s = .error (.stuck .handshakeOverrun) := by
  unfold runStep stepActions
  split
  case h_9 => rfl
  all_goals omega

/-! ### The packets of U2 are 7-bit-clean and within `WCAP` (R12, R257) -/

/-- Work that starts in one of two ways and goes on in one ends well when both parts do. -/
theorem ite_bind_ok {α β : Type} {c : Prop} [Decidable c] {x y : Except Stop α}
    {f : α → Except Stop β} {b : β} :
    (if c then x >>= f else y >>= f) = .ok b ↔ ∃ a, (if c then x else y) = .ok a ∧ f a = .ok b := by
  split <;> exact bind_ok

/-- What R48 asks of a queued packet. -/
def packetFits (wcap : Nat) (p : List Byte) : Prop := sevenBitClean p = true ∧ p.length ≤ wcap

/-- The bytes of a writer that keeps R33 are such a packet. -/
theorem Writer.bytes_packetFits {wcap : Nat} {wr : Writer} (h : wr.wf wcap = true) :
    packetFits wcap wr.bytes := by
  obtain ⟨hclean, hlen, -, hcap, -⟩ := Writer.wf_iff.1 h
  rw [Writer.bytes_eq h]
  exact ⟨by simpa [sevenBitClean] using hclean, by omega⟩

/-- U2's invariant: R33 for its working writer, and R48 for the packets finished so far. -/
structure Encoder.Good (j : EncodeJob) (e : Encoder) : Prop where
  wk : e.wk.wf j.wcap = true
  out : ∀ p ∈ e.out, packetFits j.wcap p

section
variable {j : EncodeJob} {e f : Encoder}

/-- The invariant reads neither the position, the sequence number nor the established value. -/
theorem Encoder.Good.congr (he : e.Good j) (hwk : f.wk = e.wk) (hout : f.out = e.out) : f.Good j :=
  ⟨hwk ▸ he.wk, hout ▸ he.out⟩

theorem Encoder.put_good {i : Instr} (he : e.Good j) (h : e.put j i = .ok f) : f.Good j := by
  refine ⟨Encoder.put_wf h he.wk, ?_⟩
  obtain ⟨rfl, -⟩ := Encoder.put_ok h
  exact he.out

theorem Encoder.putAll_good {is : List Instr} (he : e.Good j) (h : e.putAll j is = .ok f) :
    f.Good j := by
  induction is generalizing e with
  | nil => cases h; exact he
  | cons i is ih =>
    obtain ⟨g, hg, h⟩ := Encoder.putAll_cons.1 h
    exact ih (Encoder.put_good he hg) h

theorem Encoder.startPacket_good (hout : ∀ p ∈ e.out, packetFits j.wcap p)
    (h : e.startPacket j = .ok f) : f.Good j :=
  Encoder.put_good (e := { e with wk := Writer.empty, dev := 0, lastValue := none })
    ⟨Writer.empty_wf _, hout⟩ h

theorem Encoder.split_good {x need : Nat} (he : e.Good j) (h : e.split j x need = .ok f) :
    f.Good j := by
  obtain ⟨c, g, g', hc, hg, -, hg', rfl⟩ := Encoder.split_ok h
  have hcg := Encoder.put_good he hc
  have hout : ∀ p ∈ c.out ++ [c.wk.bytes], packetFits j.wcap p :=
    List.forall_mem_append.2 ⟨hcg.out, by simpa using Writer.bytes_packetFits hcg.wk⟩
  exact (Encoder.putAll_good (Encoder.startPacket_good hout hg) hg').congr rfl rfl

theorem Encoder.skipTo_good {target : Nat} (he : e.Good j) (h : e.skipTo j target = .ok f) :
    f.Good j := by
  unfold Encoder.skipTo at h
  dsimp only at h
  split at h
  · cases h; exact he
  · split at h
    · obtain ⟨g, hg, h⟩ := bind_ok.1 h
      cases h
      exact (Encoder.putAll_good he hg).congr rfl rfl
    · exact Encoder.split_good he h

/-- A turn that may split first keeps the invariant in both cases. -/
theorem Encoder.ite_split_good {c : Prop} [Decidable c] {x need : Nat} (he : e.Good j)
    (h : (if c then .ok e else e.split j x need) = .ok f) : f.Good j := by
  split at h
  · cases h; exact he
  · exact Encoder.split_good he h

theorem Encoder.literal_good {fuel k : Nat} {seg : List Byte} (he : e.Good j)
    (h : Encoder.literal j fuel e k seg = .ok f) : f.Good j := by
  induction fuel generalizing e k seg with
  | zero => cases h; exact he
  | succ fuel ih =>
    rcases seg with _ | ⟨b, bs⟩
    · cases h; exact he
    · obtain ⟨e1, he1, h⟩ := ite_bind_ok.1 h
      obtain ⟨e2, he2, h⟩ := bind_ok.1 h
      obtain ⟨e3, he3, h⟩ := ite_bind_ok.1 h
      have hgood2 := Encoder.put_good (Encoder.ite_split_good he he1) he2
      refine ih (Encoder.ite_split_good ?_ he3) h
      exact hgood2.congr rfl rfl

theorem Encoder.valueRun_good {fuel k r : Nat} {v : Byte} (he : e.Good j)
    (h : Encoder.valueRun j fuel e k r v = .ok f) : f.Good j := by
  induction fuel generalizing e k r with
  | zero => cases h; exact he
  | succ fuel ih =>
    unfold Encoder.valueRun at h
    dsimp only at h
    split at h
    · cases h; exact he
    · split at h
      · obtain ⟨g, hg, h⟩ := bind_ok.1 h
        refine ih ?_ h
        exact (Encoder.put_good he hg).congr rfl rfl
      · obtain ⟨g, hg, h⟩ := bind_ok.1 h
        exact ih (Encoder.split_good he hg) h

theorem Encoder.mixedRun_good {fuel k : Nat} {seg : List Byte} (he : e.Good j)
    (h : Encoder.mixedRun j fuel e k seg = .ok f) : f.Good j := by
  induction fuel generalizing e k seg with
  | zero => cases h; exact he
  | succ fuel ih =>
    rcases seg with _ | ⟨v, vs⟩
    · cases h; exact he
    · unfold Encoder.mixedRun at h
      split at h
      · obtain ⟨g, hg, h⟩ := bind_ok.1 h
        exact ih (Encoder.valueRun_good he hg) h
      · obtain ⟨g, hg, h⟩ := bind_ok.1 h
        exact ih (Encoder.literal_good he hg) h

theorem Encoder.copyRun_good {k : Nat} {seg : List Byte} (he : e.Good j)
    (h : e.copyRun j k seg = .ok f) : f.Good j := by
  unfold Encoder.copyRun at h
  split at h
  · exact Encoder.mixedRun_good he h
  · exact Encoder.literal_good he h

theorem Encoder.scan_good {fuel i : Nat} {skipping : Bool} {pairs : List (Byte × Byte)}
    (he : e.Good j) (h : Encoder.scan j fuel e i skipping pairs = .ok f) : f.Good j := by
  induction fuel generalizing e i skipping pairs with
  | zero => cases h; exact he
  | succ fuel ih =>
    obtain ⟨g, hg, h⟩ := ite_bind_ok.1 h
    have hgg : g.Good j := by
      split at hg
      · exact Encoder.skipTo_good he hg
      · exact Encoder.copyRun_good he hg
    split at h
    · cases h; exact hgg
    · exact ih hgg h

end

/-- Every packet of an encoding is 7-bit-clean and within `WCAP` (R12, R257). -/
theorem computeDelta_packetFits {p : Params} {newData oldData : List Byte}
    {baseOffset length startIndex maxBytes : BitVec 16} {pk : List (List Byte)}
    (h : computeDelta p newData oldData baseOffset length startIndex maxBytes = .ok pk) :
    ∀ x ∈ pk, packetFits p.wcap x := by
  unfold computeDelta at h
  split at h
  · cases h
  · split at h
    · cases h
    · obtain ⟨e, he, h⟩ := bind_ok.1 h
      obtain ⟨f, hf, h⟩ := bind_ok.1 h
      obtain ⟨g, hg, h⟩ := bind_ok.1 h
      cases h
      have hgg := Encoder.put_good (Encoder.scan_good (Encoder.startPacket_good (by simp) he) hf) hg
      exact List.forall_mem_append.2 ⟨hgg.out, by simpa using Writer.bytes_packetFits hgg.wk⟩

/-! ### What a step can do -/

/-- The request decoder reads nothing but requests (R112). -/
theorem decodeRequest_layer {bits left : List Bool} {i : Instr}
    (h : decode .request bits = .ok (i, left)) : i.layer = .request := by
  obtain ⟨⟨op, bs⟩, -, h⟩ := decode_bind_ok.1 h
  dsimp only at h
  split at h
  case h_15 | h_16 | h_19 | h_20 | h_21 => cases h; rfl
  case h_22 => cases h
  all_goals obtain ⟨_, -, h⟩ := decode_bind_ok.1 h
  case h_1 | h_3 | h_5 | h_8 | h_11 | h_17 => cases h; rfl
  all_goals obtain ⟨_, -, h⟩ := decode_bind_ok.1 h
  case h_7 | h_10 | h_14 => cases h; rfl
  all_goals obtain ⟨_, -, h⟩ := decode_bind_ok.1 h
  case h_2 | h_4 | h_6 | h_9 | h_12 => cases h; rfl
  all_goals obtain ⟨_, -, h⟩ := decode_bind_ok.1 h
  case h_18 => cases h; rfl
  obtain ⟨_, -, h⟩ := decode_bind_ok.1 h
  obtain ⟨_, -, h⟩ := decode_bind_ok.1 h
  cases h; rfl

/-- The payload decoder reads nothing but payloads (R111). -/
theorem decodePayload_layer {bits left : List Bool} {i : Instr}
    (h : decode .payload bits = .ok (i, left)) : i.layer = .payload := by
  change decodePayload bits = _ at h
  unfold decodePayload at h
  split_ifs at h <;> cases h <;> rfl

/-- What an idle machine that goes on has done: nothing, or sent the payload placed for it (log 1). -/
theorem idle_next {s t : State} (h : idle s = .next t) :
    t = s ∨ ∃ i, i.layer = .payload ∧ exec i { s with outbound := none } = .next t := by
  rcases hout : s.outbound with _ | bits
  · cases (idle_none hout).symm.trans h
    exact .inl rfl
  · have hrun := (idle_some hout).symm.trans h
    unfold runPayload at hrun
    split at hrun
    case h_1 i left hd => exact .inr ⟨i, decodePayload_layer hd, hrun⟩
    case h_2 => cases hrun

/-- What a step that ends in a next state has done, by what stood first at the inputs (R84). -/
theorem step_next {s t : State} (h : step s = .next t) :
    t = s ∨ (∃ i, i.layer = .payload ∧ exec i { s with outbound := none } = .next t) ∨
      (∃ rest, s.inputs = .reset :: rest ∧ t = { s with inputs := rest }.coreReset) ∨
      (∃ bits rest, s.inputs = .request bits :: rest ∧
        runRequest bits { s with inputs := rest } = .next t) ∨
      ∃ bits rest, s.inputs = .packet bits :: rest ∧
        runPacket bits { s with inputs := rest } = .next t := by
  rcases hi : s.inputs with _ | ⟨_ | bits | bits, rest⟩
  case nil =>
    obtain hsame | hsent := idle_next ((step_idle hi).symm.trans h)
    · exact .inl hsame
    · exact .inr (.inl (by rwa [hi] at hsent))
  case cons.reset =>
    cases (step_reset hi).symm.trans h
    exact .inr (.inr (.inl ⟨rest, rfl, rfl⟩))
  case cons.request =>
    exact .inr (.inr (.inr (.inl ⟨bits, rest, rfl, (step_request hi).symm.trans h⟩)))
  case cons.packet =>
    exact .inr (.inr (.inr (.inr ⟨bits, rest, rfl, (step_packet hi).symm.trans h⟩)))

/-! ### The good states -/

/-- `State.wf` as propositions, clause by clause. -/
structure State.Good (s : State) : Prop where
  params : s.params.wellFormed = true
  writerCount : s.writers.length = s.params.nw
  writers : ∀ wr ∈ s.writers, wr.wf s.params.wcap = true
  session : s.sessionWf = true
  queueLength : s.queue.length ≤ s.params.qcap
  queue : ∀ p ∈ s.queue, packetFits s.params.wcap p
  fault : s.fault.toNat ≤ 0x0A
  display : s.dev.display.wf = true
  events : ∀ e ∈ s.events, e.clean = true

theorem State.wf_iff_good {s : State} : s.wf = true ↔ s.Good := by
  simp only [State.wf, State.queueWf, Bool.and_eq_true, decide_eq_true_eq, List.all_eq_true]
  constructor
  · rintro ⟨⟨⟨⟨⟨⟨⟨hp, hn⟩, hw⟩, hs⟩, hlen, hq⟩, hf⟩, hd⟩, he⟩
    exact ⟨hp, hn, hw, hs, hlen, hq, hf, hd, he⟩
  · intro h
    exact ⟨⟨⟨⟨⟨⟨⟨h.params, h.writerCount⟩, h.writers⟩, h.session⟩, h.queueLength, h.queue⟩, h.fault⟩,
      h.display⟩, h.events⟩

/-- R343 in `CLOSED`. -/
theorem State.sessionWf_closed {s : State} (h : s.sstate = .closed) :
    s.sessionWf = true ↔ s.pending = false ∧ s.readyF = false ∧ s.hbEn = false ∧ s.queue = [] ∧
      s.stepReg.toNat ≤ 8 := by
  simp [State.sessionWf, h, and_assoc]

/-- R343 in `OPENING`. -/
theorem State.sessionWf_opening {s : State} (h : s.sstate = .opening) :
    s.sessionWf = true ↔ s.pending = true ∧ s.readyF = false ∧
      s.hbEn = decide (3 ≤ s.stepReg.toNat) ∧ s.queue = [] ∧ 1 ≤ s.stepReg.toNat ∧
      s.stepReg.toNat ≤ 7 := by
  simp [State.sessionWf, h, and_assoc]

/-- R343 in `READY`. -/
theorem State.sessionWf_ready {s : State} (h : s.sstate = .ready) :
    s.sessionWf = true ↔ s.pending = false ∧ s.readyF = true ∧ s.hbEn = true ∧
      s.stepReg.toNat = 8 := by
  simp [State.sessionWf, h, and_assoc]

theorem ErrCode.code_le (c : ErrCode) : c.code.toNat ≤ 0x0A := by cases c <;> decide

/-- A row of R111's table sends clean bytes. -/
theorem commandEvent_clean (d : BitVec 7) {cmd : Instr} (hl : cmd.layer = .payload) :
    (commandEvent d cmd).clean = true := by
  change sevenBitClean (payloadBytes cmd) = true
  rcases payload_rows cmd hl with rfl | rfl | rfl | rfl | rfl | rfl <;> decide

section
variable {s t : State} (hs : s.Good)
include hs

/-- Only `READY` has packets queued (R343). -/
theorem State.Good.ready_of_queue (hq : s.queue ≠ []) : s.sstate = .ready := by
  cases h : s.sstate with
  | closed =>
    obtain ⟨-, -, -, hnil, -⟩ := (State.sessionWf_closed h).1 hs.session
    exact absurd hnil hq
  | opening =>
    obtain ⟨-, -, -, hnil, -⟩ := (State.sessionWf_opening h).1 hs.session
    exact absurd hnil hq
  | ready => rfl

/-- Only `OPENING` awaits an ack (R343). -/
theorem State.Good.opening_of_pending (hp : s.pending = true) : s.sstate = .opening := by
  cases h : s.sstate with
  | closed =>
    obtain ⟨hnot, -⟩ := (State.sessionWf_closed h).1 hs.session
    exact absurd (hnot.symm.trans hp) (by decide)
  | opening => rfl
  | ready =>
    obtain ⟨hnot, -⟩ := (State.sessionWf_ready h).1 hs.session
    exact absurd (hnot.symm.trans hp) (by decide)

/-- `STEP` is at most 8 in every state of the session (R41, R320). -/
theorem State.Good.stepReg_le : s.stepReg.toNat ≤ 8 := by
  cases h : s.sstate with
  | closed =>
    obtain ⟨-, -, -, -, hle⟩ := (State.sessionWf_closed h).1 hs.session
    exact hle
  | opening =>
    obtain ⟨-, -, -, -, -, hle⟩ := (State.sessionWf_opening h).1 hs.session
    omega
  | ready =>
    obtain ⟨-, -, -, heq⟩ := (State.sessionWf_ready h).1 hs.session
    omega

/-! #### Raising, answering, writing and emitting keep them -/

theorem State.Good.raise (c : ErrCode) : (s.raise c).Good :=
  { hs with
    fault := by
      rw [State.raise_fault]
      split
      · exact c.code_le
      · exact hs.fault }

theorem State.Good.respondOk (r : Result) : (s.respondOk r).Good := { hs with }

theorem State.Good.setWriter {h : BitVec 8} {wr : Writer} (hw : wr.wf s.params.wcap = true) :
    (s.setWriter h wr).Good :=
  { hs with
    writerCount := by simpa using hs.writerCount
    writers := fun x hx => by
      rcases List.mem_or_eq_of_mem_set hx with hx | rfl
      · exact hs.writers x hx
      · exact hw }

/-- The writer that a handle names keeps R33. -/
theorem State.Good.getWriter {h : BitVec 8} {wr : Writer} (hg : getWriter s h = .ok wr) :
    wr.wf s.params.wcap = true := by
  rcases getWriter_cases s h with ⟨hh, hok⟩ | ⟨-, herr⟩
  · cases hok.symm.trans hg
    have hlt : h.toNat < s.writers.length := by rw [hs.writerCount]; exact hh
    rw [List.getD_eq_getElem _ _ hlt]
    exact hs.writers _ (List.getElem_mem hlt)
  · cases herr.symm.trans hg

theorem State.Good.append_clean {new : List Event} (hnew : ∀ e ∈ new, e.clean = true) :
    ∀ e ∈ s.events ++ new, e.clean = true := List.forall_mem_append.2 ⟨hs.events, hnew⟩

theorem State.Good.emit {e : Event} (he : e.clean = true) : (s.emit e).Good :=
  { hs with events := hs.append_clean (by simpa using he) }

/-- A request that ends in a next state keeps them where its work does. -/
theorem State.Good.answer {r : Except Stop (State × Result)}
    (hr : ∀ u res, r = .ok (u, res) → u.Good) (h : answer s r = .next t) : t.Good := by
  obtain ⟨u, res, hu, rfl⟩ | ⟨c, -, rfl⟩ := answer_next.1 h
  · exact (hr u res hu).respondOk res
  · exact hs.raise c

/-- So does one on a writer, whose handle names a writer that keeps R33. -/
theorem State.Good.answer_getWriter {h : BitVec 8} {f : Writer → Except Stop (State × Result)}
    (hf : ∀ wr u res, wr.wf s.params.wcap = true → f wr = .ok (u, res) → u.Good)
    (ha : Machine.answer s (Machine.getWriter s h >>= f) = .next t) : t.Good := by
  refine hs.answer (fun u res hu => ?_) ha
  obtain ⟨wr, hwr, hu⟩ := bind_ok.1 hu
  exact hf wr u res (hs.getWriter hwr) hu

/-! #### The session keeps them -/

theorem transmitCommand_good {d : BitVec 7} {cmd : Instr} (hl : cmd.layer = .payload)
    (h : transmitCommand s d cmd = .ok t) : t.Good := by
  cases (transmitCommand_ok s d hl).symm.trans h
  exact hs.emit (commandEvent_clean d hl)

/-- A handshake step sends clean bytes: rows of R111's table, and `FW_IMAGE` (R10). -/
theorem State.Good.stepSends_clean (n : BitVec 4) : ∀ e ∈ stepSends n s, e.clean = true := by
  have hp := hs.params
  simp only [Params.wellFormed, Bool.and_eq_true] at hp
  obtain ⟨⟨-, hfw0⟩, hfw1⟩ := hp
  unfold stepSends
  split
  case h_6 => simp [Event.clean, hfw0, hfw1]
  all_goals simp (disch := decide) [commandEvent_clean]

/-- The head of the queue sent (R302): a packet of `READY`, 7-bit-clean as R48 has it. -/
theorem State.Good.sendHead {p : List Byte} {rest : List (List Byte)} (hq : s.queue = p :: rest) :
    State.Good { s with
      queue := rest
      pc := s.pc + 1
      events := s.events ++ [.tx s.devIdx p none] } := by
  have hready := hs.ready_of_queue (by simp [hq])
  have hlen := hs.queueLength
  have hfits := hs.queue
  rw [hq] at hlen hfits
  exact
    { hs with
      session := (State.sessionWf_ready (by exact hready)).2
          ((State.sessionWf_ready hready).1 hs.session)
      queueLength := (Nat.le_succ _).trans hlen
      queue := fun x hx => hfits x (List.mem_cons_of_mem _ hx)
      events := hs.append_clean (by simpa [Event.clean] using (hfits p List.mem_cons_self).1) }

theorem sendQueuedHead_good (h : sendQueuedHead s = .ok t) : t.Good := by
  rcases hq : s.queue with _ | ⟨p, rest⟩
  · cases (sendQueuedHead_nil hq).symm.trans h
    exact hs
  · cases (sendQueuedHead_cons hq).symm.trans h
    exact hs.sendHead hq

/-- The counters of an ack are in no clause of R343 (a) to (d). -/
theorem ackCounter_good (c : BitVec 10) : (ackCounter c s).Good := by
  rcases ackCounter_cases c s with ⟨-, h⟩ | ⟨-, h⟩ <;> rw [h]
  · exact { hs with events := hs.append_clean (by simp [Event.clean]) }
  · exact { hs with }

/-- The pending continuation goes from each of the steps 1 to 7 to the next (R313, R320). -/
theorem continueStep_good (hp : s.pending = true)
    (h : runStep (s.stepReg + 1) { s with pending := false } = .ok t) : t.Good := by
  have hopen := hs.opening_of_pending hp
  obtain ⟨-, hready, hhb, hq, h1, h7⟩ := (State.sessionWf_opening hopen).1 hs.session
  have hnext : (s.stepReg + 1).toNat = s.stepReg.toNat + 1 := by
    rw [BitVec.toNat_add]; simp; omega
  rcases Nat.lt_or_ge s.stepReg.toNat 7 with hlt | hge
  · cases (runStep_waits (by omega) (by omega)).symm.trans h
    have hheart : (s.hbEn || decide ((s.stepReg + 1).toNat = 3)) =
        decide (3 ≤ (s.stepReg + 1).toNat) := by
      rw [hhb, ← Bool.decide_or]
      exact decide_eq_decide.2 (by omega)
    exact
      { hs with
        session := (State.sessionWf_opening (by exact hopen)).2
          ⟨rfl, hready, hheart, hq, by simp only; omega, by simp only; omega⟩
        events := hs.append_clean (hs.stepSends_clean _) }
  · rw [show s.stepReg + 1 = 8 from BitVec.eq_of_toNat_eq (by rw [hnext]; simp; omega)] at h
    cases (runStep_ready _).symm.trans h
    have h3 : 3 ≤ s.stepReg.toNat := by omega
    exact
      { hs with
        session := (State.sessionWf_ready rfl).2 ⟨rfl, rfl, by simp [hhb, h3], rfl⟩
        events := hs.append_clean (by simp [Event.clean]) }

theorem ackContinue_good (h : ackContinue s = .ok t) : t.Good := by
  rcases ackContinue_cases s with ⟨p, rest, hq, he⟩ | ⟨-, hp, he⟩ | ⟨-, -, he⟩
  · cases he.symm.trans h
    exact hs.sendHead hq
  · exact continueStep_good hs hp (he.symm.trans h)
  · cases he.symm.trans h
    exact hs

theorem acknowledge_good {c : BitVec 10} (h : acknowledge c s = .ok t) : t.Good := by
  rcases acknowledge_cases c s with ⟨-, he⟩ | ⟨-, he⟩
  · cases he.symm.trans h
    exact hs
  · exact ackContinue_good (ackCounter_good hs c) (he.symm.trans h)

/-- A frame committed in `READY` stays within R48: `QCAP` is checked, and U2's packets fit (R340). -/
theorem commitFrame_good {pk : List (List Byte)} (hready : s.sstate = .ready)
    (hpk : ∀ p ∈ pk, packetFits s.params.wcap p) (h : commitFrame pk s = .ok t) : t.Good := by
  unfold commitFrame at h
  split at h
  · cases h
  · rename_i hcap
    have hcommit : State.Good { s with queue := s.queue ++ pk } :=
      { hs with
        session := (State.sessionWf_ready (by exact hready)).2
          ((State.sessionWf_ready hready).1 hs.session)
        queueLength := by simpa using hcap
        queue := List.forall_mem_append.2 ⟨hs.queue, hpk⟩ }
    dsimp only at h
    split at h
    · exact sendQueuedHead_good hcommit h
    · cases h
      exact hcommit

theorem deliver_good {tag : BitVec 7} {f : Decoded} (h : deliver tag f s = .ok t) : t.Good := by
  rcases deliver_cases tag f s with ⟨-, he⟩ | ⟨-, he⟩
  · exact acknowledge_good hs (he.symm.trans h)
  · cases he.symm.trans h
    exact hs.emit rfl

end

theorem dispatchLoop_good {data : List Byte} {fuel p : Nat} {s t : State}
    {ms : List (BitVec 7 × Decoded)} (hs : s.Good) (h : dispatchLoop data fuel p s = .ok (t, ms)) :
    t.Good := by
  induction fuel generalizing p s ms with
  | zero => cases h; exact hs
  | succ fuel ih =>
    obtain ⟨rfl, -⟩ | ⟨v, f, n, u, rest, -, -, -, -, -, hu, hl, -⟩ := dispatchLoop_succ h
    · exact hs
    · exact ih (deliver_good hs hu) hl

/-! #### So does every instruction -/

theorem dispatch_good {data : List Byte} {s t : State} (hs : s.Good) (h : dispatch data s = .next t) :
    t.Good := by
  obtain ⟨u, ms, hu, rfl⟩ | ⟨c, -, rfl⟩ := dispatch_next.1 h
  · exact (dispatchLoop_good hs hu).respondOk _
  · exact hs.raise c

section
variable {s t : State} (hs : s.Good)
include hs

theorem exec_payload_good {i : Instr} (hl : i.layer = .payload) (h : exec i s = .next t) : t.Good := by
  obtain ⟨d, hd⟩ := exec_payload hl s
  obtain hok | ⟨c, -, rfl⟩ := finish_next.1 (hd.symm.trans h)
  · exact transmitCommand_good hs hl hok
  · exact hs.raise c

theorem execWBits_good {h : BitVec 8} {v : BitVec 32} {w : BitVec 6}
    (ht : execWBits h v w s = .next t) : t.Good := by
  refine hs.answer_getWriter (fun wr u res hwr hu => ?_) ht
  split at hu
  · cases hu
  · split at hu
    · cases hu
    · split at hu <;> cases hu
      rename_i hroom
      exact hs.setWriter (Writer.append_wf hwr (by simpa using hroom))

theorem execWRestore_good {h : BitVec 8} {nb : BitVec 32} {nbit : BitVec 3}
    (ht : execWRestore h nb nbit s = .next t) : t.Good := by
  refine hs.answer_getWriter (fun wr u res hwr hu => ?_) ht
  split at hu
  · cases hu
  · rename_i hnbit
    split at hu <;> cases hu
    rename_i hpos
    exact hs.setWriter (Writer.rollBack_wf hwr (by omega) (by omega))

theorem execWClone_good {hd hs' : BitVec 8} (ht : execWClone hd hs' s = .next t) : t.Good := by
  refine hs.answer_getWriter (fun _ u res _ hu => ?_) ht
  obtain ⟨wr, hwr, hu⟩ := bind_ok.1 hu
  cases hu
  exact hs.setWriter (hs.getWriter hwr)

theorem execRBits_good {data : List Byte} {p : BitVec 32} {w : BitVec 6}
    (ht : execRBits data p w s = .next t) : t.Good := by
  refine hs.answer (fun u res hu => ?_) ht
  split at hu <;> cases hu
  exact hs

theorem execRDecode_good {data : List Byte} {p : BitVec 32} {tag : BitVec 7}
    (ht : execRDecode data p tag s = .next t) : t.Good := by
  unfold execRDecode at ht
  split at ht <;> cases ht
  exact hs.respondOk _

theorem execDCompute_good {newData oldData : List Byte}
    {baseOffset length startIndex maxBytes : BitVec 16}
    (ht : execDCompute newData oldData baseOffset length startIndex maxBytes s = .next t) : t.Good := by
  refine hs.answer (fun u res hu => ?_) ht
  obtain ⟨pk, -, hu⟩ := bind_ok.1 hu
  cases hu
  exact hs

/-- `DEVIDX` and `MAXPKT` are in no clause. -/
theorem execSConfig_good {devIdx : BitVec 7} {maxPkt : BitVec 16}
    (ht : execSConfig devIdx maxPkt s = .next t) : t.Good := by
  refine hs.answer (fun u res hu => ?_) ht
  split at hu <;> cases hu
  exact { hs with }

/-- Step 1 enters `OPENING` with `STEP` 1 and a pending wait (R319, R321). -/
theorem execSOpen_good (ht : execSOpen s = .next t) : t.Good := by
  refine hs.answer (fun u res hu => ?_) ht
  split at hu
  · rename_i hclosed
    obtain ⟨-, hready, hhb, hq, -⟩ := (State.sessionWf_closed hclosed).1 hs.session
    obtain ⟨v, hv, hu⟩ := bind_ok.1 hu
    cases (runStep_waits (by decide) (by decide)).symm.trans hv
    cases hu
    exact
      { hs with
        session := (State.sessionWf_opening rfl).2
          ⟨rfl, hready, by simp [hhb], hq, by simp, by simp⟩
        events := hs.append_clean (hs.stepSends_clean 1) }
  · cases hu

/-- A close ends the wait with `EV_ABORTED`, clears the flags and drops the queue (R331). -/
theorem execSClose_good (ht : execSClose s = .next t) : t.Good := by
  refine hs.answer (fun u res hu => ?_) ht
  cases hu
  split
  · exact hs
  · unfold abortWait
    split
    case isTrue =>
      exact
        { hs with
          session := (State.sessionWf_closed rfl).2 ⟨rfl, rfl, rfl, rfl, hs.stepReg_le⟩
          queueLength := Nat.zero_le _
          queue := by simp
          events := hs.append_clean (by simp [Event.clean]) }
    case isFalse hp =>
      exact
        { hs with
          session := (State.sessionWf_closed rfl).2
            ⟨by simpa using hp, rfl, rfl, rfl, hs.stepReg_le⟩
          queueLength := Nat.zero_le _
          queue := by simp }

theorem execSAck_good {c : BitVec 10} (ht : execSAck c s = .next t) : t.Good := by
  refine hs.answer (fun u res hu => ?_) ht
  obtain ⟨v, hv, hu⟩ := bind_ok.1 hu
  cases hu
  exact acknowledge_good hs hv

theorem execSFrame_good {newData oldData : List Byte} {baseOffset length : BitVec 16}
    (ht : execSFrame newData oldData baseOffset length s = .next t) : t.Good := by
  refine hs.answer (fun u res hu => ?_) ht
  split at hu
  · cases hu
    exact hs
  · rename_i hgate
    obtain ⟨pk, hpk, hu⟩ := bind_ok.1 hu
    obtain ⟨v, hv, hu⟩ := bind_ok.1 hu
    cases hu
    have hready : s.sstate = .ready := by
      by_contra hne
      exact hgate (.inl hne)
    exact commitFrame_good hs hready (computeDelta_packetFits hpk) hv

theorem execSHbTick_good (ht : execSHbTick s = .next t) : t.Good := by
  refine hs.answer (fun u res hu => ?_) ht
  split at hu
  · obtain ⟨v, hv, hu⟩ := bind_ok.1 hu
    cases hu
    exact transmitCommand_good hs rfl hv
  · cases hu
    exact hs

theorem execSReqTopo_good (ht : execSReqTopo s = .next t) : t.Good := by
  refine hs.answer (fun u res hu => ?_) ht
  obtain ⟨v, hv, hu⟩ := bind_ok.1 hu
  cases hu
  exact transmitCommand_good hs rfl hv

/-- A device whose display is canonical, with any count of free values. -/
theorem State.Good.setDevice {d : Device} {k : Nat} (hd : d.display.wf = true) :
    State.Good { s with dev := d, freeCount := k } := { hs with display := hd }

theorem execVall_good {n : BitVec 4} (ht : execVall n s = .next t) : t.Good := by
  unfold execVall at ht
  split at ht
  · cases ht
    exact hs
  · split at ht <;> cases ht
    · exact hs.setDevice (Memory.writeRun_wf hs.display _ _)
    · exact hs.setDevice (Memory.writeAll_wf hs.display _)

/-- Every instruction keeps the good states. -/
theorem exec_good {i : Instr} (h : exec i s = .next t) : t.Good := by
  cases i with
  | deltaHdr | eop | eoc | skipf | skipm => cases h; exact hs.setDevice hs.display
  | lit | valf | valm => cases h; exact hs.setDevice (Memory.writeRun_wf hs.display _ _)
  | vall => exact execVall_good hs h
  | msgTopology | msgAck | msgTouchMove | msgTouchStartV | msgTouchEndV | rDispatch =>
    exact dispatch_good hs h
  | cmdEndApi | cmdBeginApi | cmdHeartbeat | cmdEnableMpe | cmdSaveDefault | cmdReqTopology =>
    exact exec_payload_good hs rfl h
  | wNew =>
    exact hs.answer_getWriter
      (fun _ _ _ _ hu => by cases hu; exact hs.setWriter (Writer.empty_wf _)) h
  | wSize | wHascap | wSnap | wRead =>
    exact hs.answer_getWriter (fun _ _ _ _ hu => by cases hu; exact hs) h
  | wBits => exact execWBits_good hs h
  | wRestore => exact execWRestore_good hs h
  | wClone => exact execWClone_good hs h
  | rBits => exact execRBits_good hs h
  | rDecode => exact execRDecode_good hs h
  | dCompute => exact execDCompute_good hs h
  | sConfig => exact execSConfig_good hs h
  | sOpen => exact execSOpen_good hs h
  | sClose => exact execSClose_good hs h
  | sAck => exact execSAck_good hs h
  | sFrame => exact execSFrame_good hs h
  | sHbTick => exact execSHbTick_good hs h
  | sReqTopo => exact execSReqTopo_good hs h
  | rType | sStatus => cases h; exact hs.respondOk _

theorem coreReset_good : s.coreReset.Good :=
  { hs with
    writerCount := by simp
    writers := fun wr hwr => by
      rw [List.eq_of_mem_replicate hwr]
      exact Writer.empty_wf _
    session := rfl
    queueLength := Nat.zero_le _
    queue := by simp
    fault := by simp }

theorem runRequest_good {bits : List Bool} (h : runRequest bits s = .next t) : t.Good := by
  obtain ⟨i, left, -, he⟩ | rfl := runRequest_next h
  · exact exec_good hs he
  · exact hs.raise _

theorem runPacket_good {bits : List Bool} (h : runPacket bits s = .next t) : t.Good := by
  obtain ⟨i, left, u, -, hu, rfl⟩ := runPacket_next h
  rw [continuePacket_frame]
  exact { exec_good hs hu with }

/-- Every step keeps the good states. -/
theorem step_good (h : step s = .next t) : t.Good := by
  obtain rfl | ⟨i, -, he⟩ | ⟨rest, -, rfl⟩ | ⟨bits, rest, -, hr⟩ | ⟨bits, rest, -, hp⟩ := step_next h
  · exact hs
  · exact exec_good (s := { s with outbound := none }) { hs with } he
  · exact coreReset_good { hs with }
  · exact runRequest_good (s := { s with inputs := rest }) { hs with } hr
  · exact runPacket_good (s := { s with inputs := rest }) { hs with } hp

end

/-! ### What no request reads: the response, the events, and (but for `S_STATUS`) `FAULT` -/

/-- Another account of what went before: a changed `FAULT`, a last response, and earlier events. -/
structure History where
  fault : BitVec 8 → BitVec 8
  response : Response
  past : List Event

/-- The state with that history. -/
def State.withHistory (s : State) (c : History) : State :=
  { s with fault := c.fault s.fault, response := c.response, events := c.past ++ s.events }

/-- Work in two parts commutes with a change of state where both parts do. -/
theorem bind_map {α α' β β' : Type} {x : Except Stop α} {x' : Except Stop α'} {k : α → α'}
    {f : α → Except Stop β} {f' : α' → Except Stop β'} {g : β → β'} (hx : x' = x.map k)
    (hf : ∀ a, f' (k a) = (f a).map g) : (x' >>= f') = (x >>= f).map g := by
  subst hx
  rcases x with e | a
  · rfl
  · exact hf a

section
variable (s : State) (c : History)

theorem State.emit_withHistory (e : Event) : (s.withHistory c).emit e = (s.emit e).withHistory c := by
  simp [State.emit, State.withHistory]

theorem transmitCommand_withHistory (d : BitVec 7) {cmd : Instr} (hl : cmd.layer = .payload) :
    transmitCommand (s.withHistory c) d cmd = (transmitCommand s d cmd).map (·.withHistory c) := by
  rw [transmitCommand_ok _ _ hl, transmitCommand_ok _ _ hl, State.emit_withHistory]
  rfl

theorem sendQueuedHead_withHistory :
    sendQueuedHead (s.withHistory c) = (sendQueuedHead s).map (·.withHistory c) := by
  rcases hq : s.queue with _ | ⟨p, rest⟩
  · rw [sendQueuedHead_nil hq, sendQueuedHead_nil (s := s.withHistory c) hq]
    rfl
  · rw [sendQueuedHead_cons hq, sendQueuedHead_cons (s := s.withHistory c) hq]
    simp [Except.map, State.withHistory]

theorem runStep_withHistory (n : BitVec 4) :
    runStep n (s.withHistory c) = (runStep n s).map (·.withHistory c) := by
  have hn : (1 ≤ n.toNat ∧ n.toNat ≤ 7) ∨ n = 8 ∨ (n.toNat = 0 ∨ 8 < n.toNat) := by bv_omega
  rcases hn with ⟨h1, h7⟩ | rfl | hover
  · rw [runStep_waits h1 h7, runStep_waits h1 h7]
    simp [Except.map, State.withHistory, stepSends]
  · rw [runStep_ready, runStep_ready]
    simp [Except.map, State.withHistory]
  · rw [runStep_overrun hover, runStep_overrun hover]
    rfl

theorem ackCounter_withHistory (n : BitVec 10) :
    ackCounter n (s.withHistory c) = (ackCounter n s).withHistory c := by
  unfold ackCounter
  rw [apply_ite (State.withHistory · c)]
  congr 1
  exact State.emit_withHistory { s with pc := s.apc + 1 } c (.stuck s.apc)

theorem ackContinue_withHistory :
    ackContinue (s.withHistory c) = (ackContinue s).map (·.withHistory c) := by
  unfold ackContinue
  simp only [apply_ite (Except.map (State.withHistory · c))]
  rw [← sendQueuedHead_withHistory, ← runStep_withHistory]
  rfl

theorem acknowledge_withHistory (n : BitVec 10) :
    acknowledge n (s.withHistory c) = (acknowledge n s).map (·.withHistory c) := by
  unfold acknowledge
  rw [apply_ite (Except.map (State.withHistory · c)), ackCounter_withHistory, ackContinue_withHistory]
  rfl

theorem commitFrame_withHistory (pk : List (List Byte)) :
    commitFrame pk (s.withHistory c) = (commitFrame pk s).map (·.withHistory c) := by
  unfold commitFrame
  simp only [apply_ite (Except.map (State.withHistory · c))]
  rw [← sendQueuedHead_withHistory]
  rfl

theorem deliver_withHistory (tag : BitVec 7) (f : Decoded) :
    deliver tag f (s.withHistory c) = (deliver tag f s).map (·.withHistory c) := by
  unfold deliver
  rw [apply_ite (Except.map (State.withHistory · c)), acknowledge_withHistory, State.emit_withHistory]
  rfl

@[simp] theorem State.withHistory_params : (s.withHistory c).params = s.params := rfl

theorem dispatchLoop_withHistory (data : List Byte) (fuel p : Nat) :
    dispatchLoop data fuel p (s.withHistory c) =
      (dispatchLoop data fuel p s).map (Prod.map (·.withHistory c) id) := by
  induction fuel generalizing p s with
  | zero => rfl
  | succ fuel ih =>
    simp only [dispatchLoop]
    rw [State.withHistory_params]
    rcases readBits s.params.readBoundFactor data p 7 with _ | v
    · rfl
    · dsimp only
      split
      · split
        · split
          · rfl
          · exact bind_map (deliver_withHistory s c _ _) fun u => bind_map (ih u _) fun _ => rfl
        · rfl
      · rfl

end

/-! #### The requests: their work, of which only `S_STATUS`'s reads any history -/

/-- Work of a request that commutes with any change of history. -/
def IgnoresHistory (work : State → Except Stop (State × Result)) : Prop :=
  ∀ s c, work (s.withHistory c) = (work s).map (Prod.map (·.withHistory c) id)

section
variable {f g : State → Except Stop (State × Result)}

/-- Work that changes nothing, with a result that no history is part of. -/
theorem ignoresHistory_query {res : State → Result}
    (h : ∀ s c, res (s.withHistory c) = res s) : IgnoresHistory fun s => .ok (s, res s) := by
  intro s c
  dsimp only
  rw [h]
  rfl

theorem ignoresHistory_setWriter (h : BitVec 8) (wr : Writer) :
    IgnoresHistory fun s => .ok (s.setWriter h wr, .none) := fun _ _ => rfl

theorem ignoresHistory_error (x : Stop) : IgnoresHistory fun _ => .error x := fun _ _ => rfl

/-- Work of two parts, the first of which only looks: a handle check, or an encoding. -/
theorem ignoresHistory_bind {α : Type} {x : State → Except Stop α}
    {k : State → α → Except Stop (State × Result)} (hx : ∀ s c, x (s.withHistory c) = x s)
    (hk : ∀ a, IgnoresHistory (k · a)) : IgnoresHistory fun s => x s >>= k s :=
  fun s c => bind_map ((hx s c).trans (congrFun Except.map_id (x s)).symm) fun a => hk a s c

/-- Work that is one of two, by a condition that no history is part of. -/
theorem ignoresHistory_ite {p : State → Prop} [∀ s, Decidable (p s)]
    (hp : ∀ s c, p (s.withHistory c) ↔ p s) (hf : IgnoresHistory f) (hg : IgnoresHistory g) :
    IgnoresHistory fun s => if p s then f s else g s := by
  intro s c
  simp only [hp, apply_ite (Except.map (Prod.map (State.withHistory · c) id)), hf s c, hg s c]

/-- A check that raises or stops, before the rest of the work. -/
theorem ignoresHistory_check {p : State → Prop} [∀ s, Decidable (p s)] {x : Stop}
    (hp : ∀ s c, p (s.withHistory c) ↔ p s) (hg : IgnoresHistory g) :
    IgnoresHistory fun s => if p s then .error x else g s :=
  ignoresHistory_ite hp (ignoresHistory_error x) hg

/-- Work of the session that answers a fixed result. -/
theorem ignoresHistory_session {op : State → Except Stop State} {res : Result}
    (h : ∀ s c, op (s.withHistory c) = (op s).map (·.withHistory c)) :
    IgnoresHistory fun s => op s >>= fun t => .ok (t, res) :=
  fun s c => bind_map (h s c) fun _ => rfl

end

/-- An instruction that answers as a request whose work ignores history. -/
def AnswersIgnoringHistory (i : Instr) : Prop :=
  ∃ work, (∀ s, exec i s = answer s (work s)) ∧ IgnoresHistory work

theorem dispatch_ignoresHistory (data : List Byte) :
    ∃ work, (∀ s, dispatch data s = answer s (work s)) ∧ IgnoresHistory work :=
  ⟨_, fun _ => rfl, fun s c => bind_map (dispatchLoop_withHistory s c data _ _) fun _ => rfl⟩

theorem wBits_ignoresHistory (h : BitVec 8) (v : BitVec 32) (w : BitVec 6) :
    AnswersIgnoringHistory (.wBits h v w) :=
  ⟨_, fun _ => rfl, ignoresHistory_bind (fun _ _ => rfl) fun _ =>
    ignoresHistory_check (fun _ _ => Iff.rfl) <| ignoresHistory_check (fun _ _ => Iff.rfl) <|
      ignoresHistory_check (fun _ _ => Iff.rfl) (ignoresHistory_setWriter h _)⟩

theorem wRestore_ignoresHistory (h : BitVec 8) (nb : BitVec 32) (nbit : BitVec 3) :
    AnswersIgnoringHistory (.wRestore h nb nbit) :=
  ⟨_, fun _ => rfl, ignoresHistory_bind (fun _ _ => rfl) fun _ =>
    ignoresHistory_check (fun _ _ => Iff.rfl) <| ignoresHistory_check (fun _ _ => Iff.rfl)
      (ignoresHistory_setWriter h _)⟩

theorem rDecode_ignoresHistory (data : List Byte) (p : BitVec 32) (tag : BitVec 7) :
    AnswersIgnoringHistory (.rDecode data p tag) := by
  refine ⟨fun s =>
    if s.params.schemas.wellFormedFor tag then
      .ok (s, .decoded (decodeMessage s.params tag data p.toNat).1
        (decodeMessage s.params tag data p.toNat).2)
    else .error (.refuse .illFormedSchemas), fun s => ?_,
    ignoresHistory_ite (fun _ _ => Iff.rfl) (ignoresHistory_query fun _ _ => rfl)
      (ignoresHistory_error _)⟩
  change execRDecode data p tag s = _
  unfold execRDecode
  dsimp only
  split <;> rfl

theorem sOpen_ignoresHistory : AnswersIgnoringHistory .sOpen :=
  ⟨_, fun _ => rfl, ignoresHistory_ite (fun _ _ => Iff.rfl)
    (ignoresHistory_session fun s c => runStep_withHistory { s with sstate := .opening } c 1)
    (ignoresHistory_error _)⟩

theorem abortWait_withHistory (s : State) (c : History) :
    abortWait (s.withHistory c) = (abortWait s).withHistory c := by
  unfold abortWait
  rw [apply_ite (State.withHistory · c)]
  congr 1
  exact State.emit_withHistory { s with pending := false } c .aborted

theorem sClose_ignoresHistory : AnswersIgnoringHistory .sClose := by
  refine ⟨fun s => .ok (if s.sstate = .closed then s else
    { abortWait s with hbEn := false, readyF := false, queue := [], sstate := .closed }, .none),
    fun _ => rfl, fun s c => ?_⟩
  dsimp only
  rw [abortWait_withHistory]
  by_cases h : s.sstate = .closed
  · rw [if_pos h, if_pos (show (s.withHistory c).sstate = _ from h)]
    rfl
  · rw [if_neg h, if_neg (show (s.withHistory c).sstate ≠ _ from h)]
    rfl

theorem sFrame_ignoresHistory (newData oldData : List Byte) (baseOffset length : BitVec 16) :
    AnswersIgnoringHistory (.sFrame newData oldData baseOffset length) :=
  ⟨_, fun _ => rfl, ignoresHistory_ite (fun _ _ => Iff.rfl) (ignoresHistory_query fun _ _ => rfl) <|
    ignoresHistory_bind (fun _ _ => rfl) fun pk =>
      ignoresHistory_session fun s c => commitFrame_withHistory s c pk⟩

theorem sHbTick_ignoresHistory : AnswersIgnoringHistory .sHbTick :=
  ⟨_, fun _ => rfl, ignoresHistory_ite (fun _ _ => Iff.rfl)
    (ignoresHistory_session fun s c => transmitCommand_withHistory s c s.devIdx rfl)
    (ignoresHistory_query fun _ _ => rfl)⟩

/-- Of all requests and messages only `S_STATUS` reads any history: `FAULT` (R52). -/
theorem exec_ignoresHistory {i : Instr} (hl : i.layer = .request ∨ i.layer = .message)
    (hi : i ≠ .sStatus) : AnswersIgnoringHistory i := by
  cases i with
  | deltaHdr | eop | eoc | skipf | skipm | lit | valf | vall | valm => simp [Instr.layer] at hl
  | cmdEndApi | cmdBeginApi | cmdHeartbeat | cmdEnableMpe | cmdSaveDefault | cmdReqTopology =>
    simp [Instr.layer] at hl
  | msgTopology | msgAck | msgTouchMove | msgTouchStartV | msgTouchEndV | rDispatch =>
    exact dispatch_ignoresHistory _
  | wNew h =>
    exact ⟨_, fun _ => rfl, ignoresHistory_bind (fun _ _ => rfl) fun _ =>
      ignoresHistory_setWriter h _⟩
  | wSize | wHascap | wSnap | wRead =>
    exact ⟨_, fun _ => rfl, ignoresHistory_bind (fun _ _ => rfl) fun _ =>
      ignoresHistory_query fun _ _ => rfl⟩
  | wBits h v w => exact wBits_ignoresHistory h v w
  | wRestore h nb nbit => exact wRestore_ignoresHistory h nb nbit
  | wClone hd hs =>
    exact ⟨_, fun _ => rfl, ignoresHistory_bind (fun _ _ => rfl) fun _ =>
      ignoresHistory_bind (fun _ _ => rfl) fun _ => ignoresHistory_setWriter hd _⟩
  | rBits =>
    exact ⟨_, fun _ => rfl, ignoresHistory_check (fun _ _ => Iff.rfl)
      (ignoresHistory_query fun _ _ => rfl)⟩
  | rType => exact ⟨_, fun _ => rfl, ignoresHistory_query fun _ _ => rfl⟩
  | rDecode data p tag => exact rDecode_ignoresHistory data p tag
  | dCompute =>
    exact ⟨_, fun _ => rfl, ignoresHistory_bind (fun _ _ => rfl) fun _ =>
      ignoresHistory_query fun _ _ => rfl⟩
  | sConfig =>
    exact ⟨_, fun _ => rfl, ignoresHistory_ite (fun _ _ => Iff.rfl) (fun _ _ => rfl)
      (ignoresHistory_error _)⟩
  | sOpen => exact sOpen_ignoresHistory
  | sClose => exact sClose_ignoresHistory
  | sAck n => exact ⟨_, fun _ => rfl, ignoresHistory_session fun s c => acknowledge_withHistory s c n⟩
  | sFrame newData oldData baseOffset length =>
    exact sFrame_ignoresHistory newData oldData baseOffset length
  | sHbTick => exact sHbTick_ignoresHistory
  | sReqTopo =>
    exact ⟨_, fun _ => rfl, ignoresHistory_session
      (op := fun s => transmitCommand s 0 .cmdReqTopology)
      fun s c => transmitCommand_withHistory s c 0 rfl⟩
  | sStatus => exact absurd rfl hi

/-! #### What follows for the response, the events and `FAULT` -/

/-- An outcome with earlier events in front of its own. -/
def withPast (past : List Event) :
    Host.Outcome State Fault Refusal → Host.Outcome State Fault Refusal
  | .next t => .next { t with events := past ++ t.events }
  | .fault f => .fault f
  | .refused x => .refused x

/-- A request with another response and earlier events before it ends the same, with those events in
front. -/
theorem answer_withHistory (s : State) (r : Response) (past : List Event)
    (w : Except Stop (State × Result)) :
    answer (s.withHistory ⟨id, r, past⟩) (w.map (Prod.map (·.withHistory ⟨id, r, past⟩) id)) =
      withPast past (answer s w) := by
  rcases w with (c | f | x) | ⟨u, res⟩ <;> rfl

/-- Every request and message is blind to the response and the events before it (R30). -/
theorem exec_withPast {i : Instr} (hl : i.layer = .request ∨ i.layer = .message) (s : State)
    (r : Response) (past : List Event) :
    exec i (s.withHistory ⟨id, r, past⟩) = withPast past (exec i s) := by
  by_cases hi : i = .sStatus
  · subst hi
    rfl
  · obtain ⟨work, hexec, hignore⟩ := exec_ignoresHistory hl hi
    rw [hexec, hexec, hignore]
    exact answer_withHistory s r past _

/-- Work that ignores history leaves `FAULT` alone: it commutes with writing the old `FAULT`. -/
theorem IgnoresHistory.fault_eq {work : State → Except Stop (State × Result)}
    (h : IgnoresHistory work) {s u : State} {res : Result} (hu : work s = .ok (u, res)) :
    u.fault = s.fault := by
  have hsame := h s ⟨fun _ => s.fault, s.response, []⟩
  rw [show s.withHistory ⟨fun _ => s.fault, s.response, []⟩ = s from rfl, hu] at hsame
  obtain ⟨hu', -⟩ := Prod.mk.inj (Except.ok.inj hsame)
  rw [hu']
  rfl

/-- A raise records its code, which is the response's status, if none is recorded yet (R31). -/
theorem State.raise_fault_status (s : State) (c : ErrCode) :
    (s.raise c).fault = if s.fault = 0 then (s.raise c).response.status else s.fault := rfl

/-- `FAULT` after a request that answers: the code it raised if none was recorded (R31). -/
theorem exec_fault {i : Instr} {s t : State} (hl : i.layer = .request ∨ i.layer = .message)
    (h : exec i s = .next t) :
    t.fault = if s.fault = 0 then t.response.status else s.fault := by
  have hok : ∀ (u : State) (res : Result), u.fault = s.fault → t = u.respondOk res →
      t.fault = if s.fault = 0 then t.response.status else s.fault := by
    rintro u res hu rfl
    change u.fault = if s.fault = 0 then 0x00 else s.fault
    split
    case isTrue h0 => exact hu.trans h0
    case isFalse => exact hu
  by_cases hi : i = .sStatus
  · subst hi
    exact hok s _ rfl (Host.Outcome.next.inj h).symm
  · obtain ⟨work, hexec, hignore⟩ := exec_ignoresHistory hl hi
    rw [hexec] at h
    obtain ⟨u, res, hu, ht⟩ | ⟨c, -, rfl⟩ := answer_next.1 h
    · exact hok u res (hignore.fault_eq hu) ht
    · exact s.raise_fault_status c

/-! ### Steps: `FAULT` (R31) and the parameters (R54) -/

theorem runRequest_fault {bits : List Bool} {s t : State} (h : runRequest bits s = .next t) :
    t.fault = if s.fault = 0 then t.response.status else s.fault := by
  obtain ⟨i, left, hd, he⟩ | rfl := runRequest_next h
  · exact exec_fault (.inl (decodeRequest_layer hd)) he
  · exact s.raise_fault_status .illegalOp

/-- A payload passes its own checksum, so sending one raises nothing. -/
theorem exec_payload_fault {i : Instr} {s t : State} (hl : i.layer = .payload)
    (h : exec i s = .next t) : t.fault = s.fault := by
  obtain ⟨d, hd⟩ := exec_payload hl s
  rw [hd, transmitCommand_ok s d hl] at h
  cases h
  rfl

/-- A recorded fault outlives every step but a reset (R31). -/
theorem step_fault_kept {s t : State} (hf : s.fault ≠ 0x00)
    (hreset : s.inputs.head? ≠ some .reset) (h : step s = .next t) : t.fault = s.fault := by
  obtain rfl | ⟨i, hl, he⟩ | ⟨rest, hi, -⟩ | ⟨bits, rest, -, hr⟩ | ⟨bits, rest, -, hp⟩ := step_next h
  · rfl
  · exact exec_payload_fault (s := { s with outbound := none }) hl he
  · simp [hi] at hreset
  · exact (runRequest_fault hr).trans (if_neg hf)
  · rw [runPacket_frame hp]

/-- No instruction writes the parameters (R54). -/
theorem exec_params {i : Instr} {s t : State} (h : exec i s = .next t) : t.params = s.params := by
  by_cases hl : i.layer = .header ∨ i.layer = .command
  · rw [exec_device_frame hl h]
  · have hcore : i.layer = .message ∨ i.layer = .payload ∨ i.layer = .request := by
      cases hi : i.layer <;> simp_all
    obtain ⟨hparams, -⟩ := State.outside_eq_iff.1 (exec_outside hcore h)
    exact hparams

theorem runRequest_params {bits : List Bool} {s t : State} (h : runRequest bits s = .next t) :
    t.params = s.params := by
  obtain ⟨i, left, -, he⟩ | rfl := runRequest_next h
  · exact exec_params he
  · rfl

theorem step_params {s t : State} (h : step s = .next t) : t.params = s.params := by
  obtain rfl | ⟨i, -, he⟩ | ⟨rest, -, rfl⟩ | ⟨bits, rest, -, hr⟩ | ⟨bits, rest, -, hp⟩ := step_next h
  · rfl
  · exact exec_params (s := { s with outbound := none }) he
  · rfl
  · exact runRequest_params (s := { s with inputs := rest }) hr
  · rw [runPacket_frame hp]

/-! ### The status words (R52) -/

/-- The lowest field of a concatenation. -/
theorem extractLsb'_append_low {n w : Nat} (x : BitVec n) (y : BitVec w) :
    (x ++ y).extractLsb' 0 w = y :=
  BitVec.eq_of_getLsbD_eq fun i hi => by simp [BitVec.getLsbD_append, hi]

/-- A field above the lowest one. -/
theorem extractLsb'_append_high {n w start len : Nat} (x : BitVec n) (y : BitVec w)
    (h : w ≤ start) : (x ++ y).extractLsb' start len = x.extractLsb' (start - w) len :=
  BitVec.eq_of_getLsbD_eq fun i hi => by
    simp only [BitVec.getLsbD_extractLsb', BitVec.getLsbD_append, hi]
    rw [if_neg (by omega), Nat.sub_add_comm h]

/-- The fields of `STATUS0` (R52). The width stands as a sum, as the concatenation has it. -/
theorem status0_layout {a : BitVec (2 + 10 + 10 + 1 + 1 + 1 + 1 + 4 + 2)} {apc pc : BitVec 10}
    {lastAcked hbEn readyF pending : Bool} {step : BitVec 4} {code : BitVec 2}
    (ha : a = 0#2 ++ apc ++ pc ++ BitVec.ofBool lastAcked ++ BitVec.ofBool hbEn
      ++ BitVec.ofBool readyF ++ BitVec.ofBool pending ++ step ++ code) :
    a.extractLsb' 0 2 = code ∧ a.extractLsb' 2 4 = step ∧ a.getLsbD 6 = pending ∧
      a.getLsbD 7 = readyF ∧ a.getLsbD 8 = hbEn ∧ a.getLsbD 9 = lastAcked ∧
      a.extractLsb' 10 10 = pc ∧ a.extractLsb' 20 10 = apc ∧ a.extractLsb' 30 2 = 0 := by
  subst ha
  simp (disch := decide) [-Nat.reduceAdd, -BitVec.getLsbD_eq_getElem, extractLsb'_append_high,
    extractLsb'_append_low, BitVec.getLsbD_append]

/-- The fields of `STATUS1` (R52). -/
theorem status1_layout {b : BitVec (1 + 7 + 8 + 16)} {devIdx : BitVec 7} {fault : BitVec 8}
    {qlen : BitVec 16} (hb : b = 0#1 ++ devIdx ++ fault ++ qlen) :
    b.extractLsb' 0 16 = qlen ∧ b.extractLsb' 16 8 = fault ∧ b.extractLsb' 24 7 = devIdx ∧
      b.getLsbD 31 = false := by
  subst hb
  simp (disch := decide) [-Nat.reduceAdd, -BitVec.getLsbD_eq_getElem, extractLsb'_append_high,
    extractLsb'_append_low, BitVec.getLsbD_append]

end Sys2Proof.Machine

open Sys2Proof Sys2Proof.Machine

/-- Settles O7: `State.wf` is `State.Good`, which every step keeps. -/
theorem goodStatesAreKept : Obligations.GoodStatesAreKept :=
  fun _ _ hs h => State.wf_iff_good.2 (step_good (State.wf_iff_good.1 hs) h)

/-- Settles O10: `FAULT` is written by a raise alone, and only while it is 0. -/
theorem faultRegisterRecordsTheFirstFault : Obligations.FaultRegisterRecordsTheFirstFault := by
  refine ⟨rfl, fun s t bits rest hi h => ?_, fun _ _ => step_fault_kept, fun s t hi h => ?_⟩
  · have hfault := runRequest_fault ((step_request hi).symm.trans h)
    exact ⟨fun h0 => hfault.trans (if_pos h0), fun hne => hfault.trans (if_neg hne)⟩
  · obtain ⟨rest, hrest⟩ := List.head?_eq_some_iff.1 hi
    cases (step_reset hrest).symm.trans h
    rfl

/-- Settles O12: neither an instruction nor a reset writes them. -/
theorem parametersAreNeverWritten : Obligations.ParametersAreNeverWritten :=
  fun _ _ => step_params

/-- Settles O14: the work of a request commutes with any change of the response and the past events. -/
theorem responsesAndEventsDoNotFeedBack : Obligations.ResponsesAndEventsDoNotFeedBack := by
  intro s i r past hl
  rw [show exec i { s with response := r, events := past ++ s.events } = _ from
    exec_withPast hl s r past]
  cases exec i s <;> rfl

/-- Settles O58: both words are R52's fields, concatenated. -/
theorem statusWordsHoldTheirFields : Obligations.StatusWordsHoldTheirFields := by
  intro s
  obtain ⟨hcode, hstep, hpending, hready, hhb, hlast, hpc, hapc, hzero⟩ :=
    status0_layout (a := s.status0) rfl
  exact ⟨s.status0, s.status1, rfl, hcode, hstep, hpending, hready, hhb, hlast, hpc, hapc, hzero,
    status1_layout rfl⟩

/-- Settles O60: addition of 10-bit counters is addition modulo 1024. -/
theorem lastAckedIsTestedModulo1024 : Obligations.LastAckedIsTestedModulo1024 := by
  refine ⟨fun s => ?_, by decide⟩
  rw [State.lastAcked, decide_eq_true_iff, ← BitVec.toNat_inj, BitVec.toNat_add]
  rfl

end

section
/-! The interfaces of the machine (20_memory.md): a step adds events after those already emitted. -/

namespace Sys2Proof.Machine

theorem withPast_next {past : List Event} {o : Host.Outcome State Fault Refusal} {t : State} :
    withPast past o = .next t ↔ ∃ u, o = .next u ∧ t = { u with events := past ++ u.events } := by
  cases o <;> simp [withPast, eq_comm]

/-- A request or a message is blind to the events before it (R30), so what it does is what it does from
no events at all, with the old ones in front. -/
theorem exec_events_prefix {i : Instr} {s t : State} (hl : i.layer = .request ∨ i.layer = .message)
    (h : exec i s = .next t) : s.events <+: t.events := by
  have hfresh : { s with events := [] }.withHistory ⟨id, s.response, s.events⟩ = s := by
    simp [State.withHistory]
  rw [← hfresh, exec_withPast hl] at h
  obtain ⟨u, -, rfl⟩ := withPast_next.1 h
  exact List.prefix_append s.events u.events

/-- A payload is one transmission, which puts its event last (R301; log 1). -/
theorem exec_payload_events_prefix {i : Instr} {s t : State} (hl : i.layer = .payload)
    (h : exec i s = .next t) : s.events <+: t.events := by
  obtain ⟨d, hd⟩ := exec_payload hl s
  rw [hd, transmitCommand_ok s d hl] at h
  cases h
  exact List.prefix_append s.events _

/-- A request's events come after those before it; a reserved opcode emits none (R114). -/
theorem runRequest_events_prefix {bits : List Bool} {s t : State} (h : runRequest bits s = .next t) :
    s.events <+: t.events := by
  obtain ⟨i, left, hd, he⟩ | rfl := runRequest_next h
  · exact exec_events_prefix (.inl (decodeRequest_layer hd)) he
  · exact List.prefix_rfl

/-- A unit of a packet emits nothing (R7, R280). -/
theorem runPacket_events {bits : List Bool} {s t : State} (h : runPacket bits s = .next t) :
    t.events = s.events := by
  rw [runPacket_frame h]

/-- Every step keeps the events before it, in order and in front (R84). -/
theorem step_events_prefix {s t : State} (h : step s = .next t) : s.events <+: t.events := by
  obtain rfl | ⟨i, hl, he⟩ | ⟨rest, -, rfl⟩ | ⟨bits, rest, -, hr⟩ | ⟨bits, rest, -, hp⟩ := step_next h
  · exact List.prefix_rfl
  · exact exec_payload_events_prefix (s := { s with outbound := none }) hl he
  · exact List.prefix_rfl
  · exact runRequest_events_prefix (s := { s with inputs := rest }) hr
  · rw [runPacket_events hp]

end Sys2Proof.Machine

open Sys2Proof Sys2Proof.Machine

/-- Settles O15: by cases on what the step takes; a request or message is blind to the events before it
and so only adds to them. -/
theorem eventsAreOnlyAdded : Obligations.EventsAreOnlyAdded := by
  intro s t h
  obtain ⟨new, hnew⟩ := step_events_prefix h
  exact ⟨new, hnew.symm⟩

end

section
/-! The encodings (30_encoding.md): decode inverts encode in every layer, the reserved opcodes and handles
of R114, the payloads of R111, and the skips that D_COMPUTE writes for equal frames (R246, R254). -/

namespace Sys2Proof

/-! ### What the encoder writes is read back -/

/-- The last pair of a literal: its continuation bit is 0 (R105). -/
theorem getLiteral_last (v : Byte) (rest : List Bool) :
    getLiteral (putField v ++ false :: rest) = .ok ([v], rest) := by
  have hv : BitVec.ofNat 8 (ofBits (putField v)) = v := by simp
  conv_rhs => rw [← hv]
  rfl

/-- A pair of a literal that another follows: its continuation bit is 1 (R105). -/
theorem getLiteral_more {v : Byte} {vs : List Byte} {bits rest : List Bool}
    (h : getLiteral bits = .ok (vs, rest)) :
    getLiteral (putField v ++ true :: bits) = .ok (v :: vs, rest) := by
  have hv : BitVec.ofNat 8 (ofBits (putField v)) = v := by simp
  have hturn : getLiteral (putField v ++ true :: bits) =
      match getLiteral bits with
      | .ok (vs, rest') => .ok (BitVec.ofNat 8 (ofBits (putField v)) :: vs, rest')
      | .error e => .error e := rfl
  rw [hturn, h, hv]

/-- A literal of at least one byte is read back, up to its last pair (R105). -/
theorem getLiteral_putLiteral {vs : List Byte} (hne : vs ≠ []) (rest : List Bool) :
    getLiteral (putLiteral vs ++ rest) = .ok (vs, rest) := by
  induction vs using putLiteral.induct with
  | case1 => exact absurd rfl hne
  | case2 v => simpa [putLiteral] using getLiteral_last v rest
  | case3 v vs hvs ih => simpa [putLiteral] using getLiteral_more (v := v) (ih hvs)

/-- Stored bytes are read back from their bits (R101). -/
theorem septets_flatMap (body : List Septet) : septets (body.flatMap putField) = body := by
  induction body with
  | nil => rfl
  | cons x body ih =>
    have hx : BitVec.ofNat 7 (ofBits (putField x)) = x := by simp
    have hturn : septets (putField x ++ body.flatMap putField) =
        BitVec.ofNat 7 (ofBits (putField x)) :: septets (body.flatMap putField) := rfl
    rw [List.flatMap_cons, hturn, hx, ih]

/-- A header is read back, and nothing after it is read (R102). -/
theorem decodeHeader_encode {i : Instr} (hl : i.layer = .header) (rest : List Bool) :
    decodeHeader (encode i ++ rest) = .ok (i, rest) := by
  cases i with
  | deltaHdr seq => simp [decodeHeader, encode, bind, Except.bind]
  | _ => cases hl

/-- A command is read back, and nothing after it is read (R104, R105). -/
theorem decodeCommand_encode {i : Instr} (hl : i.layer = .command) (hw : i.wellFormed = true)
    (rest : List Bool) : decodeCommand (encode i ++ rest) = .ok (i, rest) := by
  cases i with
  | eop | eoc | skipf | skipm | valf | vall | valm => simp [decodeCommand, encode, bind, Except.bind]
  | lit vs =>
    have hne : vs ≠ [] := by simpa [Instr.wellFormed] using hw
    simp [decodeCommand, encode, bind, Except.bind, getLiteral_putLiteral hne]
  | _ => cases hl

/-- An inbound message is read back from all its bits (R108). -/
theorem decodeMessageBits_encode {i : Instr} (hl : i.layer = .message) :
    decodeMessageBits (encode i) = .ok (i, []) := by
  cases i with
  | msgTopology | msgTouchMove | msgTouchStartV | msgTouchEndV =>
    simp [decodeMessageBits, encode, bind, Except.bind, septets_flatMap]
  | msgAck c =>
    have hc : getField 10 (putField c) = .ok (c, []) := by simpa using getField_putField c []
    simp [decodeMessageBits, encode, bind, Except.bind, hc]
  | _ => cases hl

/-- A payload is read back from all its bits: the rows of R111 differ from one another. -/
theorem decodePayload_encode {i : Instr} (hl : i.layer = .payload) :
    decodePayload (encode i) = .ok (i, []) := by
  rcases Machine.payload_rows i hl with rfl | rfl | rfl | rfl | rfl | rfl <;> rfl

/-- A request is read back, and nothing after it is read (R112). -/
theorem decodeRequest_encode {i : Instr} (hl : i.layer = .request) (hw : i.wellFormed = true)
    (rest : List Bool) : decodeRequest (encode i ++ rest) = .ok (i, rest) := by
  cases i with
  | wNew | wBits | wSize | wHascap | wSnap | wRestore | wClone | wRead | sConfig | sOpen | sClose | sAck
  | sHbTick | sReqTopo | sStatus => simp [decodeRequest, encode, bind, Except.bind]
  | rBits data | rType data | rDispatch data | rDecode data =>
    have hd : data.length < 2 ^ 32 := of_decide_eq_true hw
    simp [decodeRequest, encode, bind, Except.bind, getData_putData hd]
  | dCompute nd od | sFrame nd od =>
    obtain ⟨hnd, hod⟩ : nd.length < 2 ^ 32 ∧ od.length < 2 ^ 32 := by
      simpa [Instr.wellFormed, dataFits] using hw
    simp [decodeRequest, encode, bind, Except.bind, getData_putData hnd, getData_putData hod]
  | _ => cases hl

/-- The layers read field by field leave what follows an instruction unread (R103). -/
theorem decode_encode_append {i : Instr} (hw : i.wellFormed = true)
    (hl : i.layer = .header ∨ i.layer = .command ∨ i.layer = .request) (rest : List Bool) :
    decode i.layer (encode i ++ rest) = .ok (i, rest) := by
  rcases hl with hl | hl | hl <;> rw [hl]
  · exact decodeHeader_encode hl rest
  · exact decodeCommand_encode hl hw rest
  · exact decodeRequest_encode hl hw rest

/-- Decode inverts encode in every layer. -/
theorem decode_encode {i : Instr} (hw : i.wellFormed = true) :
    decode i.layer (encode i) = .ok (i, []) := by
  cases hl : i.layer with
  | message => exact decodeMessageBits_encode hl
  | payload => exact decodePayload_encode hl
  | header | command | request =>
    have hread := decode_encode_append hw (by simp [hl]) []
    rwa [List.append_nil, hl] at hread

/-- Bits that are the encoding of an instruction decode to it. -/
theorem decode_of_eq_encode {i : Instr} {bits : List Bool} (hw : i.wellFormed = true)
    (h : bits = encode i) : decode i.layer bits = .ok (i, []) := h ▸ decode_encode hw

/-! ### Reserved opcodes (R114) -/

/-- The opcodes R114 reserves are no request, whatever follows them. -/
theorem decodeRequest_reserved {op : Nat} (hop : opcodeReserved op = true) (h5 : op ≤ 0x1F)
    (bits : List Bool) : decodeRequest (bitsOf 5 op ++ bits) = .error .reservedOpcode := by
  have hval : (BitVec.ofNat 5 op).toNat = op := by simp; omega
  simp only [opcodeReserved, Bool.or_eq_true, decide_eq_true_eq] at hop
  simp only [decodeRequest, getField_bitsOf, bind, Except.bind, hval]
  split
  case h_22 => rfl
  all_goals omega

end Sys2Proof

namespace Sys2Proof.Machine

/-- A reserved opcode raises `E_ILLEGAL_OP` (R114). -/
theorem runRequest_reserved {op : Nat} (hop : opcodeReserved op = true) (h5 : op ≤ 0x1F)
    (bits : List Bool) (s : State) :
    runRequest (bitsOf 5 op ++ bits) s = .next (s.raise .illegalOp) := by
  have hd : decode .request (bitsOf 5 op ++ bits) = .error .reservedOpcode :=
    decodeRequest_reserved hop h5 bits
  unfold runRequest
  rw [hd]

/-- A request on a handle at or past `NW` ends with `E_ARG` before any other check (R114, R150). -/
theorem answer_badHandle {s : State} {h : BitVec 8} (hh : s.params.nw ≤ h.toNat)
    (f : Writer → Except Stop (State × Result)) :
    answer s (getWriter s h >>= f) = .next (s.raise .arg) := by
  rw [getWriter_error hh]
  rfl

/-- So does `W_CLONE` when the handle of its source is one (R158). -/
theorem execWClone_badSource {s : State} {h : BitVec 8} (hh : s.params.nw ≤ h.toNat) (g : BitVec 8) :
    execWClone g h s = .next (s.raise .arg) := by
  unfold execWClone
  rcases getWriter_cases s g with ⟨-, hg⟩ | ⟨hg, -⟩
  · rw [hg]
    exact answer_badHandle hh _
  · exact answer_badHandle hg _

/-! ### Command payloads (R111) -/

/-- A row of R111's table is sent to device `d`, and nothing else changes (R301). -/
theorem finish_transmitCommand (s : State) (d : BitVec 7) {cmd : Instr} (h : cmd.layer = .payload) :
    finish s (transmitCommand s d cmd) = .next (s.emit (commandEvent d cmd)) := by
  rw [transmitCommand_ok s d h]
  rfl

/-! ### The stream of a working writer -/

/-- Bits stored in two runs are the bits stored in one. -/
theorem storeBits_append (buf : List Byte) (q : Nat) (a b : List Bool) :
    storeBits buf q (a ++ b) = storeBits (storeBits buf q a) (q + a.length) b := by
  induction a generalizing buf q with
  | nil => rfl
  | cons v a ih =>
    simp only [List.cons_append, storeBits, ih, List.length_cons]
    congr 1
    omega

/-- Two appends are one (R152). -/
theorem Writer.append_append (wr : Writer) (a b : List Bool) :
    (wr.append a).append b = wr.append (a ++ b) := by
  have hcount := Writer.append_bitCount wr a
  unfold Writer.append at hcount ⊢
  simp only [hcount, storeBits_append, List.length_append, Nat.add_assoc]

theorem Writer.empty_bitCount : Writer.empty.bitCount = 0 := rfl

/-- The writer that holds these bits and no more. -/
def writerOf (bits : List Bool) : Writer := Writer.empty.append bits

@[simp] theorem writerOf_bitCount (bits : List Bool) : (writerOf bits).bitCount = bits.length := by
  simp [writerOf, Writer.empty_bitCount]

theorem writerOf_append (a b : List Bool) : (writerOf a).append b = writerOf (a ++ b) :=
  Writer.append_append _ a b

theorem writerOf_overflows {bits : List Bool} {n wcap : Nat} (h : bits.length + n ≤ 7 * wcap) :
    (writerOf bits).overflows n wcap = false := by
  simp only [Writer.overflows, writerOf_bitCount, bytesFor, decide_eq_false_iff_not]
  omega

/-- Stream bits of a buffer, in order (R12, R161). -/
theorem streamBits_eq_map (buf : List Byte) :
    streamBits buf = (List.range (7 * buf.length)).map (bitAt buf) := by
  induction buf with
  | nil => rfl
  | cons b buf ih =>
    have hhead : ∀ k ∈ List.range 7, b.toNat.testBit k = bitAt (b :: buf) k := by
      intro k hk
      have hk : k < 7 := List.mem_range.1 hk
      simp [bitAt, Nat.div_eq_of_lt hk, Nat.mod_eq_of_lt hk, BitVec.getLsbD]
    have htail : ∀ k, bitAt buf k = bitAt (b :: buf) (7 + k) := by
      intro k
      simp [bitAt, show (7 + k) / 7 = k / 7 + 1 by omega]
    rw [show streamBits (b :: buf) = bitsOf 7 b.toNat ++ streamBits buf from rfl, ih, bitsOf,
      List.map_congr_left hhead, List.length_cons, Nat.mul_succ, Nat.add_comm, List.range_add,
      List.map_append, List.map_map]
    congr 1
    exact List.map_congr_left fun k _ => htail k

/-- The bytes of a writer are its bits and fewer than seven zero bits of padding (R101, R159). -/
theorem writerOf_streamBits (bits : List Bool) :
    ∃ pad : List Bool, streamBits (writerOf bits).bytes = bits ++ pad ∧ pad.length < 7 ∧
      ∀ b ∈ pad, b = false := by
  have hwf : (writerOf bits).wf (bytesFor bits.length) = true :=
    Writer.append_wf (Writer.empty_wf _) (by simp [Writer.overflows, Writer.empty_bitCount])
  obtain ⟨-, hlen, hzero, -, -⟩ := Writer.wf_iff.1 hwf
  rw [writerOf_bitCount] at hlen hzero
  have hbit : ∀ j < bits.length, bitAt (writerOf bits).buf j = bits.getD j false := by
    intro j hj
    rw [writerOf, Writer.append_bit]
    simp [Writer.empty_bitCount, hj]
  have hfill : bits.length ≤ 7 * bytesFor bits.length ∧ 7 * bytesFor bits.length < bits.length + 7 := by
    unfold bytesFor; omega
  refine ⟨List.replicate (7 * bytesFor bits.length - bits.length) false, ?_, by simp; omega, by simp⟩
  rw [Writer.bytes_eq hwf, streamBits_eq_map, hlen]
  refine List.ext_getElem (by simp; omega) fun j h1 h2 => ?_
  rw [List.getElem_map, List.getElem_range]
  rcases Nat.lt_or_ge j bits.length with hj | hj
  · rw [hbit j hj, List.getElem_append_left hj, List.getD_eq_getElem _ _ hj]
  · rw [hzero j hj, List.getElem_append_right hj, List.getElem_replicate]

/-! ### Commands written without a split (R243, R257) -/

theorem Encoder.put_room {j : EncodeJob} {e : Encoder} {i : Instr} {bits : List Bool}
    (hwk : e.wk = writerOf bits) (hroom : bits.length + cost i ≤ 7 * j.wcap) :
    e.put j i = .ok { e with wk := writerOf (bits ++ encode i) } := by
  rw [Encoder.put, hwk, writerOf_overflows hroom, writerOf_append]
  rfl

/-- Commands that fit `WCAP` together are all written, in order. -/
theorem Encoder.putAll_room {j : EncodeJob} {e : Encoder} {is : List Instr} {bits : List Bool}
    (hwk : e.wk = writerOf bits) (hroom : bits.length + (is.map cost).sum ≤ 7 * j.wcap) :
    e.putAll j is = .ok { e with wk := writerOf (bits ++ is.flatMap encode) } := by
  induction is generalizing e bits with
  | nil => simp [Encoder.putAll, ← hwk]
  | cons i is ih =>
    rw [List.map_cons, List.sum_cons] at hroom
    refine Encoder.putAll_cons.2 ⟨_, Encoder.put_room hwk (by omega), ?_⟩
    rw [ih rfl (by rw [List.length_append, show (encode i).length = cost i from rfl]; omega),
      List.append_assoc]
    rfl

/-- A packet that starts holds its header (R242). -/
theorem Encoder.startPacket_room {j : EncodeJob} {e : Encoder} (hroom : 23 ≤ 7 * j.wcap) :
    e.startPacket j =
      .ok { e with wk := writerOf (encode (.deltaHdr e.seq)), dev := 0, lastValue := none } := by
  have hput := Encoder.put_room (j := j) (i := .deltaHdr e.seq) (bits := [])
    (e := { e with wk := Writer.empty, dev := 0, lastValue := none }) rfl
    (by simpa [cost, encode] using hroom)
  exact hput

/-! ### Canonical skips (R246) -/

/-- A skip command with the count it stands for. -/
def countedSkip (ch : Nat) : Instr × Nat := (skipCommand ch, ch)

/-- A chunk of a run is carried in full by the short form up to 15 and the many form above (R246). -/
theorem countedSkip_canonical {ch : Nat} (h1 : 1 ≤ ch) (h255 : ch ≤ 255) :
    (∃ n : BitVec 4, countedSkip ch = (.skipf n, n.toNat) ∧ 1 ≤ n.toNat) ∨
      ∃ n : BitVec 8, countedSkip ch = (.skipm n, n.toNat) ∧ 16 ≤ n.toNat := by
  unfold countedSkip skipCommand
  rcases Nat.lt_or_ge 15 ch with hch | hch
  · have hn : (BitVec.ofNat 8 ch).toNat = ch := by simp; omega
    exact .inr ⟨BitVec.ofNat 8 ch, by rw [if_pos hch, hn], by omega⟩
  · have hn : (BitVec.ofNat 4 ch).toNat = ch := by simp; omega
    exact .inl ⟨BitVec.ofNat 4 ch, by rw [if_neg (by omega), hn], by omega⟩

/-- The skips of a run, each with its count. -/
def countedSkips (c : Nat) : List (Instr × Nat) := (runChunks c c).map countedSkip

theorem countedSkips_commands (c : Nat) : (countedSkips c).map Prod.fst = skipCommands c :=
  List.map_map

theorem countedSkips_sum (c : Nat) : ((countedSkips c).map Prod.snd).sum = c := by
  rw [countedSkips, List.map_map, show Prod.snd ∘ countedSkip = id from rfl, List.map_id]
  exact runChunks_sum (Nat.le_refl c)

theorem countedSkips_canonical {c : Nat} {x : Instr × Nat} (hx : x ∈ countedSkips c) :
    (∃ n : BitVec 4, x = (.skipf n, n.toNat) ∧ 1 ≤ n.toNat) ∨
      ∃ n : BitVec 8, x = (.skipm n, n.toNat) ∧ 16 ≤ n.toNat := by
  obtain ⟨ch, hch, rfl⟩ := List.mem_map.1 hx
  obtain ⟨h1, h255⟩ := runChunks_range hch
  exact countedSkip_canonical h1 h255

/-- A skip takes 11 bits at most, and 7 in the short form (R104). -/
theorem cost_skipCommand (ch : Nat) : cost (skipCommand ch) = if 15 < ch then 11 else 7 := by
  unfold skipCommand
  split <;> simp [cost, encode]

/-- A run is skipped in 11 bits for each 255 begun (R254). -/
theorem runChunks_cost_le (fuel c : Nat) :
    (((runChunks fuel c).map skipCommand).map cost).sum ≤ 11 * ((c + 254) / 255) := by
  induction fuel generalizing c with
  | zero => simp [runChunks]
  | succ fuel ih =>
    unfold runChunks
    split
    · have hrest := ih (c - min c 255)
      simp only [List.map_cons, List.sum_cons, cost_skipCommand]
      split <;> omega
    · split
      · simp only [List.map_cons, List.map_nil, List.sum_cons, List.sum_nil, cost_skipCommand]
        split <;> omega
      · simp

theorem skipCost_le (c : Nat) : skipCost c ≤ 11 * ((c + 254) / 255) := runChunks_cost_le c c

/-- A skip from the start of a packet that its budget and `WCAP` hold is written in full (R248). -/
theorem Encoder.skipTo_room {j : EncodeJob} {e : Encoder} {target : Nat} {bits : List Bool}
    (hwk : e.wk = writerOf bits) (hdev : e.dev = 0)
    (hfits : e.fits j (skipCost target + 3) = true)
    (hroom : bits.length + skipCost target ≤ 7 * j.wcap) :
    e.skipTo j target =
      .ok { e with wk := writerOf (bits ++ (skipCommands target).flatMap encode), dev := target } := by
  unfold Encoder.skipTo
  simp only [hdev, Nat.sub_zero]
  split
  case isTrue hzero =>
    subst hzero
    simp [skipCommands, runChunks, ← hwk, ← hdev]
  case isFalse =>
    rw [Encoder.putAll_room hwk hroom]
    rfl

/-! ### Equal frames (R254 (c)) -/

/-- The scan of equal frames is one skip to their end (R245). -/
theorem Encoder.scan_equal {j : EncodeJob} {e : Encoder} {fuel : Nat} {pairs : List (Byte × Byte)}
    (heq : ∀ p ∈ pairs, p.1 = p.2) :
    Encoder.scan j (fuel + 1) e 0 true pairs = e.skipTo j (j.base + pairs.length) := by
  have hall : ∀ p ∈ pairs, continuesRun true p = true := by
    intro p hp
    simp [continuesRun, heq p hp]
  have htake : pairs.takeWhile (continuesRun true) = pairs := List.takeWhile_eq_self_iff.2 hall
  have hdrop : pairs.dropWhile (continuesRun true) = [] := List.dropWhile_eq_nil_iff.2 hall
  rw [Encoder.scan, htake, hdrop]
  cases h : e.skipTo j (j.base + pairs.length) <;> simp [h, bind, Except.bind]

/-- The pairs of a frame with itself: as many as `length` asks for, and all equal (R76). -/
theorem framePairs_self {data : List Byte} {length : BitVec 16} (hlen : length.toNat ≤ data.length) :
    (framePairs data data length).length = length.toNat ∧
      ∀ p ∈ framePairs data data length, p.1 = p.2 := by
  refine ⟨by simp [framePairs, hlen], fun p hp => ?_⟩
  have hzip : p ∈ data.zip data := List.mem_of_mem_take hp
  rw [← List.map_id data, List.zip_map', List.mem_map] at hzip
  obtain ⟨b, -, rfl⟩ := hzip
  rfl

/-- The bits of the packet for equal frames: the header, the skips to `c`, and `EOC` (R254 (c)). -/
def skipPacketBits (startIndex : BitVec 16) (c : Nat) : List Bool :=
  encode (.deltaHdr startIndex) ++ (skipCommands c).flatMap encode ++ encode .eoc

/-- Pairs of equal bytes give that packet and no other, where `WCAP` and the budget hold it. -/
theorem encodePairs_equal {j : EncodeJob} {startIndex : BitVec 16} {pairs : List (Byte × Byte)}
    (heq : ∀ p ∈ pairs, p.1 = p.2) (hcap : 26 + skipCost (j.base + pairs.length) ≤ 7 * j.wcap)
    (hbudget : ∀ b, j.budget = some b → 26 + skipCost (j.base + pairs.length) ≤ b) :
    encodePairs j startIndex pairs =
      .ok [(writerOf (skipPacketBits startIndex (j.base + pairs.length))).bytes] := by
  have hheader : (encode (.deltaHdr startIndex)).length = 23 := by simp [encode]
  have hskips : ((skipCommands (j.base + pairs.length)).flatMap encode).length =
      skipCost (j.base + pairs.length) := List.length_flatMap
  have heoc : cost .eoc = 3 := rfl
  unfold encodePairs
  rw [Encoder.startPacket_room (by omega)]
  simp only [bind, Except.bind]
  rw [Encoder.scan_equal heq, Encoder.skipTo_room rfl rfl ?fits (by omega)]
  case fits =>
    unfold Encoder.fits
    split
    · rfl
    · rename_i b hb
      have := hbudget b hb
      simp only [writerOf_bitCount, decide_eq_true_eq]
      omega
  simp only
  rw [Encoder.put_room rfl (by rw [List.length_append]; omega)]
  rfl

/-- What a budget in bytes holds, the budget in bits holds (R243). -/
theorem packetBudget_room {maxBytes : BitVec 16} {n : Nat}
    (h : maxBytes = 0 ∨ n ≤ 7 * maxBytes.toNat) {b : Nat} (hb : packetBudget maxBytes = some b) :
    n ≤ b := by
  unfold packetBudget at hb
  split at hb
  case isTrue => cases hb
  case isFalse hne =>
    cases hb
    exact h.resolve_left hne

/-- A header and a terminator fit any budget that holds 26 bits (R256 (a)). -/
theorem budgetTooSmall_false {budget : Option Nat} (h : ∀ b, budget = some b → 26 ≤ b) :
    budgetTooSmall budget = false := by
  cases budget with
  | none => rfl
  | some b => exact decide_eq_false (Nat.not_lt.2 (h b rfl))

/-- Equal frames give one packet of skips up to their end, where `WCAP` and the budget hold it. -/
theorem computeDelta_equal {p : Params} {data : List Byte}
    {baseOffset length startIndex maxBytes : BitVec 16} (hlen : length.toNat ≤ data.length)
    (hcap : 26 + skipCost (baseOffset.toNat + length.toNat) ≤ 7 * p.wcap)
    (hbudget : maxBytes = 0 ∨
      26 + skipCost (baseOffset.toNat + length.toNat) ≤ 7 * maxBytes.toNat) :
    computeDelta p data data baseOffset length startIndex maxBytes =
      .ok [(writerOf (skipPacketBits startIndex (baseOffset.toNat + length.toNat))).bytes] := by
  obtain ⟨hpairs, heq⟩ := framePairs_self hlen
  have hframes : badFrames data data length = false := by simp [badFrames, hlen]
  have hsmall : budgetTooSmall (packetBudget maxBytes) = false :=
    budgetTooSmall_false fun b hb => by have := packetBudget_room hbudget hb; omega
  rw [computeDelta, hframes, hsmall]
  rw [← hpairs] at hcap hbudget ⊢
  exact encodePairs_equal heq hcap fun _ => packetBudget_room hbudget

/-- `D_COMPUTE` answers the packets of its encoding and changes nothing else (R240). -/
theorem exec_dCompute_ok {s : State} {newData oldData : List Byte}
    {baseOffset length startIndex maxBytes : BitVec 16} {pk : List (List Byte)}
    (h : computeDelta s.params newData oldData baseOffset length startIndex maxBytes = .ok pk) :
    exec (.dCompute newData oldData baseOffset length startIndex maxBytes) s =
      .next { s with response := { status := 0x00, result := .packets pk } } := by
  change execDCompute newData oldData baseOffset length startIndex maxBytes s = _
  rw [execDCompute, h]
  rfl

end Sys2Proof.Machine

open Sys2Proof Sys2Proof.Machine

/-- Settles O1: layer by layer, each field written is the field read back. -/
theorem encodedInstructionDecodesBack : Obligations.EncodedInstructionDecodesBack :=
  fun _ hw => ⟨decode_encode hw, decode_encode_append hw⟩

/-- Settles O39: the scan of equal frames is one skip, which fits and is written whole. -/
theorem equalFramesGiveOnlySkips : Obligations.EqualFramesGiveOnlySkips := by
  intro s data baseOffset length startIndex maxBytes hlen hcap hbudget
  have hcost := skipCost_le (baseOffset.toNat + length.toNat)
  have hpacket := computeDelta_equal (p := s.params) (baseOffset := baseOffset)
    (startIndex := startIndex) hlen (by omega) (hbudget.imp_right (by omega))
  refine ⟨countedSkips (baseOffset.toNat + length.toNat), _, exec_dCompute_ok hpacket,
    fun _ => countedSkips_canonical, countedSkips_sum _, ?_⟩
  rw [countedSkips_commands]
  exact writerOf_streamBits _

/-- Settles O2: each word is, bit for bit, the encoding of its instruction, so O1 decodes it. -/
theorem wordsOfTheSpecDecode : Obligations.WordsOfTheSpecDecode :=
  ⟨decode_of_eq_encode (i := .deltaHdr 1) rfl (by decide),
    decode_of_eq_encode (i := .skipm 113) rfl (by decide),
    decode_of_eq_encode (i := .lit [0x01]) rfl (by decide),
    decode_of_eq_encode (i := .valm 64 0xFF) rfl (by decide),
    decode_of_eq_encode (i := .msgAck 5) rfl (by decide),
    decode_of_eq_encode (i := .cmdEnableMpe) rfl (by decide),
    decode_of_eq_encode (i := .sStatus) rfl (by decide)⟩

/-- Settles O5: a reserved opcode decodes to no request, and a bad handle fails the first check made on
it. -/
theorem reservedOpcodesAndBadHandlesAreRefused : Obligations.ReservedOpcodesAndBadHandlesAreRefused := by
  refine ⟨fun s op bits rest hi hop => ?_, fun s h g v w n m nb nbit i hh hi => ?_⟩
  · have hreserved : opcodeReserved op = true := by
      simp only [opcodeReserved, Bool.or_eq_true, decide_eq_true_eq]
      omega
    rw [step_request hi, runRequest_reserved hreserved (by omega)]
    rfl
  · simp only [List.mem_cons, List.not_mem_nil, or_false] at hi
    rcases hi with rfl | rfl | rfl | rfl | rfl | rfl | rfl | rfl | rfl
    case inr.inr.inr.inr.inr.inr.inr.inl => exact execWClone_badSource hh g
    all_goals exact answer_badHandle hh _

/-- Settles O59: each row passes its own checksum and so is sent; the frames are R109's bytes. -/
theorem commandPayloadsAreTransmitted : Obligations.CommandPayloadsAreTransmitted := fun s =>
  ⟨⟨finish_transmitCommand s s.devIdx (cmd := .cmdEndApi) rfl, by decide⟩,
    ⟨finish_transmitCommand s s.devIdx (cmd := .cmdBeginApi) rfl, by decide⟩,
    ⟨finish_transmitCommand s s.devIdx (cmd := .cmdHeartbeat) rfl, by decide⟩,
    ⟨finish_transmitCommand s s.devIdx (cmd := .cmdEnableMpe) rfl, by decide⟩,
    ⟨finish_transmitCommand s s.devIdx (cmd := .cmdSaveDefault) rfl, by decide⟩,
    ⟨finish_transmitCommand s 0 (cmd := .cmdReqTopology) rfl, by decide⟩⟩

end

section
/-! U1, the bit cursor (40_bitcursor.md): what each request on a writer and each read of a buffer answers,
and that a field written is read back and undone by a restore. -/

namespace Sys2Proof.Machine

/-! ### The writer a handle names (R150) -/

theorem getWriter_of_getElem? {s : State} {h : BitVec 8} {wr : Writer} (hh : h.toNat < s.params.nw)
    (hw : s.writers[h.toNat]? = some wr) : getWriter s h = .ok wr := by
  rw [getWriter_ok hh, List.getD_eq_getElem?_getD, hw]
  rfl

/-- After a request has answered, its handle names the writer it left. -/
theorem getWriter_setWriter_respondOk {s : State} {h : BitVec 8} (hh : h.toNat < s.params.nw)
    (hlt : h.toNat < s.writers.length) (wr : Writer) (r : Result) :
    getWriter ((s.setWriter h wr).respondOk r) h = .ok wr :=
  getWriter_of_getElem? hh (List.getElem?_set_self hlt)

/-- A writer put back where it was taken from undoes any write of another in its place. -/
theorem setWriter_setWriter_self {s : State} {h : BitVec 8} {wr : Writer}
    (hw : s.writers[h.toNat]? = some wr) (wr' : Writer) : (s.setWriter h wr').setWriter h wr = s := by
  obtain ⟨hlt, hwr⟩ := List.getElem?_eq_some_iff.1 hw
  unfold State.setWriter
  rw [List.set_set, ← hwr, List.set_getElem_self]

/-- A request whose handle names `wr` goes on with `wr`. -/
theorem answer_of_getWriter {s : State} {h : BitVec 8} {wr : Writer} (hg : getWriter s h = .ok wr)
    (f : Writer → Except Stop (State × Result)) : answer s (getWriter s h >>= f) = answer s (f wr) := by
  rw [hg]
  rfl

/-! ### Operand checks (R79, R152) -/

theorem badWidth_iff {w : BitVec 6} : badWidth w = true ↔ w.toNat < 1 ∨ 32 < w.toNat := by
  simp only [badWidth, Bool.or_eq_true, decide_eq_true_eq]
  rfl

theorem badWidth_eq_false {w : BitVec 6} (h1 : 1 ≤ w.toNat) (h32 : w.toNat ≤ 32) :
    badWidth w = false := by
  rw [← Bool.not_eq_true, badWidth_iff]
  omega

/-- A value has a bit at or above `n` exactly when it is not below `2 ^ n`. -/
theorem ushiftRight_ne_zero_iff {v : BitVec 32} {n : Nat} : v >>> n ≠ 0 ↔ 2 ^ n ≤ v.toNat := by
  rw [Ne, ← BitVec.toNat_inj, BitVec.toNat_ushiftRight, Nat.shiftRight_eq_div_pow]
  change ¬ v.toNat / 2 ^ n = 0 ↔ _
  rw [Nat.div_eq_zero_iff]
  have := Nat.two_pow_pos n
  omega

theorem Writer.overflows_iff {wr : Writer} {n wcap : Nat} :
    wr.overflows n wcap = true ↔ wcap < (wr.bitCount + n + 6) / 7 := decide_eq_true_iff

theorem Writer.overflows_eq_false {wr : Writer} {n wcap : Nat}
    (hroom : (wr.bitCount + n + 6) / 7 ≤ wcap) : wr.overflows n wcap = false :=
  decide_eq_false (Nat.not_lt.2 hroom)

/-- A fault raised is not answered `OK` (R360). -/
theorem State.raise_status_ne_ok (s : State) (c : ErrCode) : (s.raise c).response.status ≠ 0x00 :=
  c.code_ne_zero

/-! ### What each request on a writer answers -/

section
variable {s : State} {h : BitVec 8} {wr : Writer} (hg : getWriter s h = .ok wr)
include hg

/-- `W_NEW` (R151). -/
theorem exec_wNew : exec (.wNew h) s = .next ((s.setWriter h Writer.empty).respondOk .none) :=
  answer_of_getWriter hg _

/-- `W_CLONE` of `hs`, where both handles name a writer (R158). -/
theorem exec_wClone {hs : BitVec 8} {src : Writer} (hsrc : getWriter s hs = .ok src) :
    exec (.wClone h hs) s = .next ((s.setWriter h src).respondOk .none) :=
  (answer_of_getWriter hg _).trans (answer_of_getWriter hsrc _)

/-- `W_SIZE` (R153). -/
theorem exec_wSize : exec (.wSize h) s = .next (s.respondOk (.size wr.size)) :=
  answer_of_getWriter hg _

/-- `W_HASCAP` (R154). -/
theorem exec_wHascap (n maxBytes : BitVec 16) :
    exec (.wHascap h n maxBytes) s = .next (s.respondOk
      (.capacity (decide (wr.bitCount + n.toNat ≤ 7 * maxBytes.toNat)))) :=
  answer_of_getWriter hg _

/-- `W_SNAP` (R156). -/
theorem exec_wSnap : exec (.wSnap h) s = .next (s.respondOk (.snapshot wr.nb wr.nbit)) :=
  answer_of_getWriter hg _

/-- `W_READ` (R159). -/
theorem exec_wRead : exec (.wRead h) s = .next (s.respondOk (.bytes wr.bytes)) :=
  answer_of_getWriter hg _

/-- `W_BITS`: R152's three checks in their order, then the append. -/
theorem exec_wBits (v : BitVec 32) (w : BitVec 6) :
    exec (.wBits h v w) s =
      if badWidth w then .next (s.raise .width)
      else if w.toNat < 32 ∧ 2 ^ w.toNat ≤ v.toNat then .next (s.raise .value)
      else if wr.overflows w.toNat s.params.wcap then .next (s.raise .writerFull)
      else .next ((s.setWriter h (wr.append (bitsOf w.toNat v.toNat))).respondOk .none) := by
  refine (answer_of_getWriter hg _).trans ?_
  simp only [apply_ite (answer s), answer_raise, answer_ok, ushiftRight_ne_zero_iff]

theorem exec_wBits_room {v : BitVec 32} {w : BitVec 6} (h1 : 1 ≤ w.toNat) (h32 : w.toNat ≤ 32)
    (hv : v.toNat < 2 ^ w.toNat) (hroom : wr.overflows w.toNat s.params.wcap = false) :
    exec (.wBits h v w) s =
      .next ((s.setWriter h (wr.append (bitsOf w.toNat v.toNat))).respondOk .none) := by
  rw [exec_wBits hg, badWidth_eq_false h1 h32, hroom, if_neg (by simp), if_neg (by omega),
    if_neg (by simp)]

/-- A `W_BITS` that answers `OK` has appended. -/
theorem exec_wBits_status_ok {v : BitVec 32} {w : BitVec 6} {t : State}
    (ht : exec (.wBits h v w) s = .next t) (hok : t.response.status = 0x00) :
    t = (s.setWriter h (wr.append (bitsOf w.toNat v.toNat))).respondOk .none := by
  rw [exec_wBits hg] at ht
  split_ifs at ht <;> obtain rfl := Host.Outcome.next.inj ht
  case neg => rfl
  all_goals exact absurd hok (State.raise_status_ne_ok s _)

/-- `W_RESTORE`: R157's two checks, then the roll back. -/
theorem exec_wRestore (nb : BitVec 32) (nbit : BitVec 3) :
    exec (.wRestore h nb nbit) s =
      if 6 < nbit.toNat then .next (s.raise .restore)
      else if wr.bitCount < 7 * nb.toNat + nbit.toNat then .next (s.raise .restore)
      else .next ((s.setWriter h (wr.rollBack nb.toNat nbit)).respondOk .none) := by
  refine (answer_of_getWriter hg _).trans ?_
  simp only [apply_ite (answer s), answer_raise, answer_ok]

theorem exec_wRestore_behind {nb : BitVec 32} {nbit : BitVec 3} (h6 : nbit.toNat ≤ 6)
    (hle : 7 * nb.toNat + nbit.toNat ≤ wr.bitCount) :
    exec (.wRestore h nb nbit) s =
      .next ((s.setWriter h (wr.rollBack nb.toNat nbit)).respondOk .none) := by
  rw [exec_wRestore hg, if_neg (by omega), if_neg (by omega)]

end

/-! ### What each read of a buffer answers (R160, R163) -/

theorem exec_rBits (s : State) (data : List Byte) (p : BitVec 32) (w : BitVec 6) :
    exec (.rBits data p w) s =
      if badWidth w then .next (s.raise .width)
      else .next (s.respondOk
        (readResult (readBits s.params.readBoundFactor data p.toNat w.toNat))) := by
  change answer s _ = _
  simp only [apply_ite (answer s), answer_raise, answer_ok]

theorem exec_rBits_width {w : BitVec 6} (h1 : 1 ≤ w.toNat) (h32 : w.toNat ≤ 32) (s : State)
    (data : List Byte) (p : BitVec 32) :
    exec (.rBits data p w) s = .next (s.respondOk
      (readResult (readBits s.params.readBoundFactor data p.toNat w.toNat))) := by
  rw [exec_rBits, badWidth_eq_false h1 h32, if_neg (by simp)]

/-- A read within the bound answers the field. -/
theorem exec_rBits_within {s : State} {data : List Byte} {p : BitVec 32} {w : BitVec 6}
    (h1 : 1 ≤ w.toNat) (h32 : w.toNat ≤ 32)
    (hp : p.toNat + w.toNat ≤ s.params.readBoundFactor * data.length) :
    exec (.rBits data p w) s = .next (s.respondOk
      (.read true (BitVec.ofNat 32 (readField data p.toNat w.toNat)))) := by
  rw [exec_rBits_width h1 h32, readBits_some hp]
  rfl

theorem exec_rType (s : State) (data : List Byte) (p : BitVec 32) :
    exec (.rType data p) s = .next (s.respondOk
      (readResult (readBits s.params.readBoundFactor data p.toNat 7))) := rfl

/-! ### The bits of a field (R74, R161) -/

theorem testBit_ofBits (bs : List Bool) (k : Nat) : (ofBits bs).testBit k = bs.getD k false := by
  induction bs generalizing k with
  | nil => simp [ofBits]
  | cons b bs ih =>
    cases k with
    | zero => cases b <;> simp [ofBits, Nat.testBit_zero]
    | succ k =>
      have hhalf : ofBits (b :: bs) / 2 = ofBits bs := by
        have := b.toNat_le
        simp only [ofBits]
        omega
      rw [Nat.testBit_succ, hhalf, ih, List.getD_cons_succ]

/-- A field read holds the stream bits from `p` on and none past its width. -/
theorem testBit_readField (data : List Byte) (p w k : Nat) :
    (readField data p w).testBit k = (decide (k < w) && sbit data (p + k)) := by
  rw [readField, testBit_ofBits, List.getD_eq_getElem?_getD, List.getElem?_map]
  by_cases hk : k < w
  · simp [hk]
  · simp [hk]

/-- The stream bits a reader sees are those of the buffer: past its end both are 0 (R161). -/
theorem sbit_eq_bitAt (data : List Byte) (j : Nat) : sbit data j = bitAt data j := by
  unfold sbit bitAt
  split
  · rfl
  · rw [List.getD_eq_default _ _ (by omega)]
    exact BitVec.getLsbD_zero.symm

theorem sbit_eq_and (data : List Byte) (j : Nat) :
    sbit data j = (decide (j < 7 * data.length) && (data.getD (j / 7) 0).getLsbD (j % 7)) := by
  unfold sbit
  split <;> simp [*]

/-! ### Appended bits are read back and undone (R157, R162) -/

/-- Bit `k` of what was appended stands `k` bits past the old cursor (R152). -/
theorem Writer.append_bit_new (wr : Writer) {bs : List Bool} {k : Nat} (hk : k < bs.length) :
    bitAt (wr.append bs).buf (wr.bitCount + k) = bs[k] := by
  rw [Writer.append_bit, if_pos (by omega), Nat.add_sub_cancel_left, List.getD_eq_getElem _ _ hk]

theorem Writer.append_bit_old (wr : Writer) (bs : List Bool) {j : Nat} (hj : j < wr.bitCount) :
    bitAt (wr.append bs).buf j = bitAt wr.buf j := by
  rw [Writer.append_bit, if_neg (by omega)]

/-- The bytes of a writer that keeps R33 hold at least the bits up to its cursor. -/
theorem Writer.bitCount_le_bytes {wcap : Nat} {wr : Writer} (hwf : wr.wf wcap = true) :
    wr.bitCount ≤ 7 * wr.bytes.length := by
  obtain ⟨-, hlen, -⟩ := Writer.wf_iff.1 hwf
  rw [Writer.bytes_eq hwf, hlen, bytesFor]
  omega

/-- R162: reading the bytes at the old cursor gives the number of the appended bits. -/
theorem readField_append {wcap : Nat} {wr : Writer} {bs : List Bool}
    (hwf : (wr.append bs).wf wcap = true) :
    readField (wr.append bs).bytes wr.bitCount bs.length = ofBits bs := by
  rw [readField, Writer.bytes_eq hwf]
  congr 1
  refine List.ext_getElem (by simp) fun k _ hk => ?_
  rw [List.getElem_map, List.getElem_range, sbit_eq_bitAt, Writer.append_bit_new wr hk]

/-- Rolling an append back to the cursor before it gives the writer back: clearing from the old cursor
leaves the bits before it and zeros, which is what the writer held (R33, R157). -/
theorem Writer.rollBack_append {wcap : Nat} {wr : Writer} (hwf : wr.wf wcap = true) (bs : List Bool) :
    (wr.append bs).rollBack wr.nb wr.nbit = wr := by
  obtain ⟨hclean, hlen, hzero, -, -⟩ := Writer.wf_iff.1 hwf
  have hlenAppend : (wr.append bs).buf.length = bytesFor (wr.bitCount + bs.length) :=
    length_storeBits bs hlen
  have hle : bytesFor wr.bitCount ≤ bytesFor (wr.bitCount + bs.length) := by
    unfold bytesFor
    omega
  have hbit : ∀ j, bitAt (clearFrom (wr.append bs).buf wr.bitCount) j = bitAt wr.buf j := by
    intro j
    rw [bitAt_clearFrom]
    split
    · exact Writer.append_bit_old wr bs ‹_›
    · exact (hzero j (by omega)).symm
  have hbuf : clearFrom (wr.append bs).buf wr.bitCount = wr.buf :=
    buf_ext ((length_clearFrom (by omega)).trans hlen.symm)
      (clearFrom_clean _ (storeBits_clean _ _ hclean)) hclean hbit
  change Writer.mk (clearFrom (wr.append bs).buf wr.bitCount) wr.nb wr.nbit = wr
  rw [hbuf]

end Sys2Proof.Machine

open Sys2Proof Sys2Proof.Machine

/-- Settles O16: past the three checks the request is `Writer.append`, whose bits are known. -/
theorem writeBitsAppendsTheLowBits : Obligations.WriteBitsAppendsTheLowBits := by
  intro s h v w wr hh hw hwf h1 h32 hv hroom
  have hover : wr.overflows w.toNat s.params.wcap = false := Writer.overflows_eq_false hroom
  refine ⟨wr.append (bitsOf w.toNat v.toNat),
    exec_wBits_room (getWriter_of_getElem? hh hw) h1 h32 hv hover, ?_, ?_,
    Writer.append_wf hwf (by rwa [bitsOf_length]), fun k hk => ?_, fun j => Writer.append_bit_old wr _⟩
  · simp [Writer.append]
  · simp only [Writer.append, bitsOf_length, BitVec.toNat_ofNat]
    omega
  · rw [Writer.append_bit_new wr (by simpa using hk), bitsOf_getElem]
    rfl

/-- Settles O17: the checks of `exec_wBits`, one after another. -/
theorem writeBitsFaultsInOrder : Obligations.WriteBitsFaultsInOrder := by
  intro s h v w wr hh hw
  rw [exec_wBits (getWriter_of_getElem? hh hw)]
  refine ⟨fun hwidth => if_pos (badWidth_iff.2 hwidth), fun h1 hlt hv => ?_, fun h1 h32 hv hfull => ?_⟩
  · rw [badWidth_eq_false h1 (by omega), if_neg (by simp), if_pos ⟨hlt, hv⟩]
  · rw [badWidth_eq_false h1 h32, if_neg (by simp), if_neg (by omega),
      if_pos (Writer.overflows_iff.2 hfull)]

/-- Settles O18: both requests are one `setWriter`. -/
theorem newAndCloneReplaceOneWriter : Obligations.NewAndCloneReplaceOneWriter :=
  fun _ _ _ _ hh hhs hw =>
    ⟨exec_wNew (getWriter_ok hh), exec_wClone (getWriter_ok hh) (getWriter_of_getElem? hhs hw)⟩

/-- Settles O19: each query answers a function of the named writer's cursor. -/
theorem writerQueriesAnswerFromTheCursor : Obligations.WriterQueriesAnswerFromTheCursor := by
  intro s h n maxBytes wr hh hw
  have hg := getWriter_of_getElem? hh hw
  exact ⟨exec_wSize hg, exec_wHascap hg n maxBytes, exec_wSnap hg⟩

/-- Settles O20: under R33 the bytes read are the writer's buffer. -/
theorem readReturnsTheWritersBytes : Obligations.ReadReturnsTheWritersBytes := by
  intro s h wr hh hw hwf
  obtain ⟨hclean, -, hzero, -, -⟩ := Writer.wf_iff.1 hwf
  refine ⟨wr.bytes, exec_wRead (getWriter_of_getElem? hh hw), by simp [Writer.bytes, Writer.size], ?_⟩
  rw [Writer.bytes_eq hwf]
  exact ⟨hclean, fun j _ => sbit_eq_bitAt wr.buf j,
    fun j hj => (sbit_eq_bitAt wr.buf j).trans (hzero j hj)⟩

/-- Settles O21: past the two checks the request is `Writer.rollBack`, whose bits are known. -/
theorem restoreRollsTheCursorBack : Obligations.RestoreRollsTheCursorBack := by
  intro s h nb nbit wr hh hw hwf
  have hg := getWriter_of_getElem? hh hw
  refine ⟨fun hbad => ?_, fun h6 hle => ?_⟩
  · rw [exec_wRestore hg]
    rcases hbad with hnbit | hahead
    · exact if_pos hnbit
    · rw [if_pos hahead, ite_self]
  · exact ⟨wr.rollBack nb.toNat nbit, exec_wRestore_behind hg h6 hle, rfl, rfl,
      Writer.rollBack_wf hwf h6 hle, fun j hj => (bitAt_clearFrom _ _ _).trans (if_pos hj),
      fun j hj => (bitAt_clearFrom _ _ _).trans (if_neg (by omega))⟩

/-- Settles O22: the write is an append, and rolling it back to the old cursor gives the writer back. -/
theorem restoreUndoesAWrite : Obligations.RestoreUndoesAWrite := by
  intro s t h v w wr hh hw hwf hnb ht hok
  obtain rfl := exec_wBits_status_ok (getWriter_of_getElem? hh hw) ht hok
  obtain ⟨hlt, -⟩ := List.getElem?_eq_some_iff.1 hw
  obtain ⟨-, -, -, -, h6⟩ := Writer.wf_iff.1 hwf
  have hnbNat : (BitVec.ofNat 32 wr.nb).toNat = wr.nb := by
    rw [BitVec.toNat_ofNat, Nat.mod_eq_of_lt hnb]
  have hcursor : 7 * wr.nb + wr.nbit.toNat = wr.bitCount := rfl
  rw [exec_wRestore_behind (getWriter_setWriter_respondOk hh hlt _ _) h6
    (by rw [hnbNat, Writer.append_bitCount]; omega), hnbNat, Writer.rollBack_append hwf]
  change Host.Outcome.next (((s.setWriter h _).setWriter h wr).respondOk .none) = _
  rw [setWriter_setWriter_self hw]
  rfl

/-- Settles O23: the bytes read out are the appended writer's, and reading them at the old cursor gives
the appended bits' number, which is `v`. -/
theorem writtenFieldReadsBack : Obligations.WrittenFieldReadsBack := by
  intro s h v w wr hh hw hwf hfactor h1 h32 hv hroom hpos
  obtain ⟨hlt, -⟩ := List.getElem?_eq_some_iff.1 hw
  have hover : wr.overflows w.toNat s.params.wcap = false := Writer.overflows_eq_false hroom
  have happend : (wr.append (bitsOf w.toNat v.toNat)).wf s.params.wcap = true :=
    Writer.append_wf hwf (by rwa [bitsOf_length])
  have hposNat : (BitVec.ofNat 32 wr.bitCount).toNat = wr.bitCount := by
    rw [BitVec.toNat_ofNat, Nat.mod_eq_of_lt hpos]
  have hbound : wr.bitCount + w.toNat ≤
      s.params.readBoundFactor * (wr.append (bitsOf w.toNat v.toNat)).bytes.length := by
    have hbytes := Writer.bitCount_le_bytes happend
    rw [Writer.append_bitCount, bitsOf_length] at hbytes
    exact hbytes.trans (Nat.mul_le_mul_right _ hfactor)
  have hfield : readField (wr.append (bitsOf w.toNat v.toNat)).bytes wr.bitCount w.toNat = v.toNat := by
    have hread := readField_append happend
    rwa [bitsOf_length, ofBits_bitsOf, Nat.mod_eq_of_lt hv] at hread
  refine ⟨_, _, _, _, exec_wBits_room (getWriter_of_getElem? hh hw) h1 h32 hv hover,
    exec_wRead (getWriter_setWriter_respondOk hh hlt _ _), rfl,
    exec_rBits_within h1 h32 (by rw [hposNat]; exact hbound), ?_⟩
  rw [hposNat, hfield, BitVec.ofNat_toNat, BitVec.setWidth_eq]
  rfl

/-- Settles O24: past the width check the answer is `readBits`, whose field holds the stream bits. -/
theorem readBitsAnswersTheField : Obligations.ReadBitsAnswersTheField := by
  intro s data p w
  refine ⟨fun hwidth => ?_, fun h1 h32 hpast => ?_, fun h1 h32 hp => ?_, ⟨_, exec_rType s data p⟩, ?_⟩
  · rw [exec_rBits, if_pos (badWidth_iff.2 hwidth)]
  · rw [exec_rBits_width h1 h32, readBits_none hpast]
    rfl
  · refine ⟨_, exec_rBits_within h1 h32 hp, fun k hk => ?_, fun k hk => ?_⟩
    · rw [BitVec.getLsbD_ofNat, testBit_readField, sbit_eq_and]
      simp [hk, show k < 32 by omega]
    · rw [BitVec.getLsbD_ofNat, testBit_readField]
      simp [show ¬ k < w.toNat by omega]
  · rw [exec_rType, exec_rBits_width (by decide) (by decide)]
    rfl

end

section
/-! Message schemas (41_message_decode.md, R200 to R205): what a schema decodes to at a stream bit, and
what `R_DECODE` answers for each tag. -/

namespace Sys2Proof.Machine

/-! ### A schema's fields (R201) -/

/-- The width of what a decode consumed is its schema's. -/
theorem decodeFields_width {factor : Nat} {data : List Byte} {sc : Schema} {p : Nat} {r : Record}
    {n : Nat} (h : decodeFields factor data sc p = some (r, n)) : n = sc.bitWidth := by
  induction sc generalizing p r n with
  | nil => cases h; rfl
  | scalar name w rest ih =>
    simp only [decodeFields] at h
    split at h
    · cases h
    · split at h
      · cases h
      · rename_i hrest
        cases h
        rw [ih hrest, Schema.bitWidth]
  | composite name w nested rest ihNested ih =>
    simp only [decodeFields] at h
    split at h
    · cases h
    · rename_i hnested
      split at h
      · cases h
      · split at h
        · cases h
        · rename_i hrest
          cases h
          rw [ihNested hnested, ih hrest, Schema.bitWidth]
  | absent name rest ih =>
    simp only [decodeFields] at h
    split at h
    · cases h
    · rename_i hrest
      cases h
      rw [ih hrest, Schema.bitWidth]

/-- The record of a schema's fields at bit `p`, whatever the read bound is. -/
def recordAt (data : List Byte) : Schema → Nat → Record
  | .nil, _ => .nil
  | .scalar name w rest, p =>
      .num name (BitVec.ofNat 32 (readField data p w)) (recordAt data rest (p + w))
  | .composite name _ nested rest, p =>
      .sub name (recordAt data nested p) (recordAt data rest (p + nested.bitWidth))
  | .absent name rest, p => .num name 0 (recordAt data rest p)

/-- Whether a decode at bit `p` gets to the end of a schema: no composite stops it and the bound does not
cut it (R201). -/
def Completes (factor : Nat) (data : List Byte) (sc : Schema) (p : Nat) : Prop :=
  compositesConsume sc = true ∧ (sc.bitWidth = 0 ∨ p + sc.bitWidth ≤ factor * data.length)

theorem Completes.within {factor : Nat} {data : List Byte} {sc : Schema} {p : Nat}
    (h : Completes factor data sc p) (hpos : 0 < sc.bitWidth) :
    p + sc.bitWidth ≤ factor * data.length := by
  obtain ⟨-, hb⟩ := h
  exact hb.resolve_left (Nat.ne_of_gt hpos)

/-- A decode that gets to the end answers the schema's record and width. -/
theorem decodeFields_of_completes {factor : Nat} {data : List Byte} {sc : Schema} {p : Nat}
    (hwf : sc.wellFormed = true) (h : Completes factor data sc p) :
    decodeFields factor data sc p = some (recordAt data sc p, sc.bitWidth) := by
  induction sc generalizing p with
  | nil => rfl
  | scalar name w rest ih =>
    obtain ⟨hc, hb⟩ := h
    simp only [Schema.wellFormed, Bool.and_eq_true, decide_eq_true_eq] at hwf
    obtain ⟨⟨⟨h1, -⟩, -⟩, hrest⟩ := hwf
    simp only [Schema.bitWidth] at hb
    have hmore := ih (p := p + w) hrest ⟨hc, by omega⟩
    simp only [decodeFields, readBits_some (show p + w ≤ factor * data.length by omega), hmore, recordAt,
      Schema.bitWidth]
  | composite name w nested rest ihNested ih =>
    obtain ⟨hc, hb⟩ := h
    simp only [Schema.wellFormed, Bool.and_eq_true] at hwf
    obtain ⟨⟨-, hnested⟩, hrest⟩ := hwf
    simp only [compositesConsume, Bool.and_eq_true, decide_eq_true_eq] at hc
    obtain ⟨⟨hpos, hcNested⟩, hcRest⟩ := hc
    simp only [Schema.bitWidth] at hb
    have hfirst := ihNested (p := p) hnested ⟨hcNested, by omega⟩
    have hmore := ih (p := p + nested.bitWidth) hrest ⟨hcRest, by omega⟩
    simp only [decodeFields, hfirst, hmore, if_neg (Nat.ne_of_gt hpos), recordAt, Schema.bitWidth]
  | absent name rest ih =>
    simp only [Schema.wellFormed, Bool.and_eq_true] at hwf
    obtain ⟨-, hrest⟩ := hwf
    have hmore := ih (p := p) hrest h
    simp only [decodeFields, hmore, recordAt, Schema.bitWidth]

/-- A decode that succeeds got to the end. -/
theorem completes_of_decodeFields {factor : Nat} {data : List Byte} {sc : Schema} {p : Nat} {r : Record}
    {n : Nat} (h : decodeFields factor data sc p = some (r, n)) : Completes factor data sc p := by
  induction sc generalizing p r n with
  | nil => exact ⟨rfl, .inl rfl⟩
  | scalar name w rest ih =>
    simp only [decodeFields] at h
    split at h
    · cases h
    · rename_i hread
      have hin : p + w ≤ factor * data.length := by
        by_contra hpast
        rw [readBits_none (by omega)] at hread
        cases hread
      split at h
      · cases h
      · rename_i hrest
        obtain ⟨hc, hb⟩ := ih hrest
        exact ⟨hc, .inr (by rw [Schema.bitWidth]; omega)⟩
  | composite name w nested rest ihNested ih =>
    simp only [decodeFields] at h
    split at h
    · cases h
    · rename_i hnested
      split at h
      · cases h
      · rename_i hne
        split at h
        · cases h
        · rename_i hrest
          rw [decodeFields_width hnested] at hne hrest
          obtain ⟨hcNested, hbNested⟩ := ihNested hnested
          obtain ⟨hcRest, hbRest⟩ := ih hrest
          refine ⟨?_, .inr (by rw [Schema.bitWidth]; omega)⟩
          simp [compositesConsume, hcNested, hcRest, Nat.pos_of_ne_zero hne]
  | absent name rest ih =>
    simp only [decodeFields] at h
    split at h
    · cases h
    · rename_i hrest
      exact ih hrest

/-- The value whose bits are the stream bits of a field is the number read there (R74). -/
theorem eq_ofNat_readField_iff {data : List Byte} {p w : Nat} (h32 : w ≤ 32) {v : BitVec 32} :
    (∀ k, v.getLsbD k = (decide (k < w) && sbit data (p + k))) ↔
      v = BitVec.ofNat 32 (readField data p w) := by
  have hbit : ∀ k, (BitVec.ofNat 32 (readField data p w)).getLsbD k =
      (decide (k < w) && sbit data (p + k)) := by
    intro k
    rw [BitVec.getLsbD_ofNat, testBit_readField]
    by_cases hk : k < w
    · simp [show k < 32 by omega]
    · simp [hk]
  refine ⟨fun h => BitVec.eq_of_getLsbD_eq fun k _ => (h k).trans (hbit k).symm, ?_⟩
  rintro rfl
  exact hbit

/-- R201's fields at a bit are one record: the one its reads give. -/
theorem fieldsAt_iff {data : List Byte} {sc : Schema} {p : Nat} {r : Record}
    (hwf : sc.wellFormed = true) : FieldsAt data sc p r ↔ r = recordAt data sc p := by
  induction sc generalizing p r with
  | nil => rfl
  | scalar name w rest ih =>
    simp only [Schema.wellFormed, Bool.and_eq_true, decide_eq_true_eq] at hwf
    obtain ⟨⟨⟨-, h32⟩, -⟩, hrest⟩ := hwf
    simp [FieldsAt, recordAt, eq_ofNat_readField_iff h32, ih hrest]
  | composite name w nested rest ihNested ih =>
    simp only [Schema.wellFormed, Bool.and_eq_true] at hwf
    obtain ⟨⟨-, hnested⟩, hrest⟩ := hwf
    simp [FieldsAt, recordAt, ihNested hnested, ih hrest]
  | absent name rest ih =>
    simp only [Schema.wellFormed, Bool.and_eq_true] at hwf
    obtain ⟨-, hrest⟩ := hwf
    simp [FieldsAt, recordAt, ih hrest]

/-! ### A whole schema: all of its fields, or none and 0 bits (R201) -/

theorem decodeSchema_of_completes {factor : Nat} {data : List Byte} {sc : Schema} {p : Nat}
    (hwf : sc.wellFormed = true) (h : Completes factor data sc p) :
    decodeSchema factor data (some sc) p = (recordAt data sc p, sc.bitWidth) :=
  decodeSchema_some (decodeFields_of_completes hwf h)

theorem decodeSchema_of_not_completes {factor : Nat} {data : List Byte} {sc : Schema} {p : Nat}
    (h : ¬ Completes factor data sc p) : decodeSchema factor data (some sc) p = (.nil, 0) := by
  cases hd : decodeFields factor data sc p with
  | none => exact decodeSchema_none hd
  | some rn => exact absurd (completes_of_decodeFields hd) h

/-- A decode that consumes bits consumed its schema's width, inside the bound. -/
theorem decodeSchema_consumes {factor : Nat} {data : List Byte} {sc : Option Schema} {p : Nat}
    (h : (decodeSchema factor data sc p).2 ≠ 0) :
    ∃ m, sc = some m ∧ (decodeSchema factor data sc p).2 = m.bitWidth ∧
      p + m.bitWidth ≤ factor * data.length := by
  rcases sc with _ | m
  · exact absurd rfl h
  · cases hd : decodeFields factor data m p with
    | none =>
      rw [decodeSchema_none hd] at h
      exact absurd rfl h
    | some rn =>
      obtain ⟨r, n⟩ := rn
      rw [decodeSchema_some hd, decodeFields_width hd] at h ⊢
      obtain ⟨-, hb⟩ := completes_of_decodeFields hd
      exact ⟨m, rfl, rfl, hb.resolve_left h⟩

/-- A message schema has at least the 7 bits of its tag (R203). -/
theorem seven_le_bitWidth {sc : Schema} (h : sc.startsWithTag = true) : 7 ≤ sc.bitWidth := by
  cases sc with
  | scalar name w rest =>
    simp only [Schema.startsWithTag, decide_eq_true_eq] at h
    rw [Schema.bitWidth]
    omega
  | nil | composite | absent => cases h

/-! ### Groups of a topology message (R204) -/

/-- The records of `count` groups of one schema, back to back from bit `p`. -/
def groupAt (data : List Byte) (sc : Schema) (count p : Nat) : List Record :=
  (List.range count).map fun k => recordAt data sc (p + k * sc.bitWidth)

theorem groupAt_succ (data : List Byte) (sc : Schema) (count p : Nat) :
    groupAt data sc (count + 1) p =
      recordAt data sc p :: groupAt data sc count (p + sc.bitWidth) := by
  simp only [groupAt, List.range_succ_eq_map, List.map_cons, List.map_map]
  refine congrArg₂ _ (by simp) (List.map_congr_left fun k _ => ?_)
  simp only [Function.comp_apply, Nat.succ_mul]
  congr 1
  omega

theorem groupAt_length (data : List Byte) (sc : Schema) (count p : Nat) :
    (groupAt data sc count p).length = count := by simp [groupAt]

/-- Group `k` is the record at its place. -/
theorem fieldsAt_of_groupAt {data : List Byte} {sc : Schema} {count p k : Nat} {d : Record}
    (hwf : sc.wellFormed = true) (h : (groupAt data sc count p)[k]? = some d) :
    FieldsAt data sc (p + k * sc.bitWidth) d := by
  obtain ⟨i, hi, rfl⟩ := Option.map_eq_some_iff.1 ((List.getElem?_map ..).symm.trans h)
  obtain ⟨hlt, rfl⟩ := List.getElem?_eq_some_iff.1 hi
  rw [List.getElem_range]
  exact (fieldsAt_iff hwf).2 rfl

section
variable {factor : Nat} {data : List Byte} {sc : Schema}
  (hwf : sc.wellFormed = true) (hc : compositesConsume sc = true) (hpos : 0 < sc.bitWidth)
include hwf hc hpos

/-- Groups inside the bound decode to their records. -/
theorem decodeGroup_within {count p : Nat}
    (h : count = 0 ∨ p + count * sc.bitWidth ≤ factor * data.length) :
    decodeGroup factor data (some sc) count p =
      some (groupAt data sc count p, count * sc.bitWidth) := by
  induction count generalizing p with
  | zero => simp [decodeGroup, groupAt]
  | succ count ih =>
    rw [Nat.succ_mul] at h
    have hfirst : Completes factor data sc p := ⟨hc, .inr (by omega)⟩
    have hmore := ih (p := p + sc.bitWidth) (.inr (by omega))
    simp only [decodeGroup, decodeSchema_of_completes hwf hfirst, if_neg (Nat.ne_of_gt hpos), hmore,
      groupAt_succ]
    congr 2
    rw [Nat.succ_mul]
    omega

/-- Groups that pass the bound decode to nothing. -/
theorem decodeGroup_past {count p : Nat} (hcount : count ≠ 0)
    (h : factor * data.length < p + count * sc.bitWidth) :
    decodeGroup factor data (some sc) count p = none := by
  induction count generalizing p with
  | zero => exact absurd rfl hcount
  | succ count ih =>
    rw [Nat.succ_mul] at h
    by_cases hin : p + sc.bitWidth ≤ factor * data.length
    · have hne : count ≠ 0 := by
        rintro rfl
        omega
      simp only [decodeGroup, decodeSchema_of_completes hwf ⟨hc, .inr hin⟩,
        if_neg (Nat.ne_of_gt hpos), ih hne (p := p + sc.bitWidth) (by omega)]
    · have hcut : ¬ Completes factor data sc p := fun hfirst => hin (hfirst.within hpos)
      simp only [decodeGroup, decodeSchema_of_not_completes hcut]
      rfl

end

/-! ### The entry of `SCHEMAS` that decodes a tag (R203) -/

/-- `e` is the entry of `SCHEMAS` for the touch message of tag `tag`. -/
def TouchEntry (c : Schemas) (tag : BitVec 7) (e : Option Schema) : Prop :=
  (tag = 0x11 ∧ c.touchMove = e) ∨ (tag = 0x13 ∧ c.touchStartV = e) ∨ (tag = 0x15 ∧ c.touchEndV = e)

theorem TouchEntry.decodeMessage_eq {pm : Params} {tag : BitVec 7} {e : Option Schema}
    (h : TouchEntry pm.schemas tag e) (data : List Byte) (p : Nat) :
    decodeMessage pm tag data p = decodeFixed pm.readBoundFactor data e p := by
  rcases h with ⟨rfl, rfl⟩ | ⟨rfl, rfl⟩ | ⟨rfl, rfl⟩ <;> rfl

theorem TouchEntry.wellFormedFor_eq {c : Schemas} {tag : BitVec 7} {e : Option Schema}
    (h : TouchEntry c tag e) : c.wellFormedFor tag = messageWellFormed e := by
  rcases h with ⟨rfl, rfl⟩ | ⟨rfl, rfl⟩ | ⟨rfl, rfl⟩ <;> rfl

/-- A configured touch message's entry is well-formed and starts with its tag. -/
theorem TouchEntry.wellFormed_iff {c : Schemas} {tag : BitVec 7} {sc : Schema}
    (h : TouchEntry c tag (some sc)) :
    c.wellFormedFor tag = true ↔ sc.wellFormed = true ∧ sc.startsWithTag = true := by
  rw [h.wellFormedFor_eq, messageWellFormed, optionAll, Bool.and_eq_true]

/-- R108's tags: the ack's, the topology message's and the touch messages'; any other is unknown. -/
theorem tag_cases (c : Schemas) (tag : BitVec 7) :
    tag = 0x02 ∨ tag = 0x01 ∨ (∃ e, TouchEntry c tag e) ∨
      tag ∉ [0x01#7, 0x02#7, 0x11#7, 0x13#7, 0x15#7] := by
  by_cases hmem : tag ∈ [0x01#7, 0x02#7, 0x11#7, 0x13#7, 0x15#7]
  · simp only [List.mem_cons, List.not_mem_nil, or_false] at hmem
    rcases hmem with rfl | rfl | rfl | rfl | rfl
    · exact .inr (.inl rfl)
    · exact .inl rfl
    · exact .inr (.inr (.inl ⟨_, .inl ⟨rfl, rfl⟩⟩))
    · exact .inr (.inr (.inl ⟨_, .inr (.inl ⟨rfl, rfl⟩)⟩))
    · exact .inr (.inr (.inl ⟨_, .inr (.inr ⟨rfl, rfl⟩)⟩))
  · exact .inr (.inr (.inr hmem))

/-- What the topology message's entries are asked for (R200, R203, R204). -/
theorem topologyWellFormed_header {c : Schemas} {header : Schema} (h : c.wellFormedFor 0x01 = true)
    (hh : c.topologyHeader = some header) : header.wellFormed = true ∧ header.startsWithTag = true := by
  change c.topologyWellFormed = true at h
  simp only [Schemas.topologyWellFormed, hh, optionAll, Bool.and_eq_true] at h
  obtain ⟨⟨⟨⟨⟨hwf, htag⟩, -⟩, -⟩, -⟩, -⟩ := h
  exact ⟨hwf, htag⟩

theorem topologyWellFormed_groups {c : Schemas} {device connection : Schema}
    (h : c.wellFormedFor 0x01 = true) (hd : c.topologyDeviceInfo = some device)
    (hc : c.topologyConnectionInfo = some connection) :
    device.wellFormed = true ∧ connection.wellFormed = true := by
  change c.topologyWellFormed = true at h
  simp only [Schemas.topologyWellFormed, hd, hc, optionAll, Bool.and_eq_true] at h
  obtain ⟨⟨-, hdevice⟩, hconnection⟩ := h
  exact ⟨hdevice, hconnection⟩

/-- An unknown tag is decoded by no entry (log 20). -/
theorem wellFormedFor_unknown {tag : BitVec 7} (h : tag ∉ [0x01#7, 0x02#7, 0x11#7, 0x13#7, 0x15#7])
    (c : Schemas) : c.wellFormedFor tag = true := by
  simp only [List.mem_cons, not_or] at h
  obtain ⟨h01, -, h11, h13, h15, -⟩ := h
  simp [Schemas.wellFormedFor, h01, h11, h13, h15]

/-- Under a well-formed `SCHEMAS` every tag's entries are well-formed. -/
theorem wellFormedFor_of_wellFormed {c : Schemas} (h : c.wellFormed = true) (tag : BitVec 7) :
    c.wellFormedFor tag = true := by
  simp only [Schemas.wellFormed, Bool.and_eq_true] at h
  obtain ⟨⟨⟨htopology, hmove⟩, hstart⟩, hend⟩ := h
  simp [Schemas.wellFormedFor, htopology, hmove, hstart, hend]

/-! ### What each tag decodes to (R203, R204, R205) -/

theorem decodeMessage_unknown {tag : BitVec 7} (h : tag ∉ [0x01#7, 0x02#7, 0x11#7, 0x13#7, 0x15#7])
    (pm : Params) (data : List Byte) (p : Nat) : decodeMessage pm tag data p = (.fields .nil, 0) := by
  simp only [List.mem_cons, not_or] at h
  obtain ⟨h01, h02, h11, h13, h15, -⟩ := h
  simp [decodeMessage, h01, h02, h11, h13, h15]

theorem decodeFixed_of_completes {factor : Nat} {data : List Byte} {sc : Schema} {p : Nat}
    (hwf : sc.wellFormed = true) (h : Completes factor data sc p) :
    decodeFixed factor data (some sc) p = (.fields (recordAt data sc p), sc.bitWidth) := by
  rw [decodeFixed, decodeSchema_of_completes hwf h]

theorem decodeFixed_of_not_completes {factor : Nat} {data : List Byte} {sc : Schema} {p : Nat}
    (h : ¬ Completes factor data sc p) :
    decodeFixed factor data (some sc) p = (.fields .nil, 0) := by
  rw [decodeFixed, decodeSchema_of_not_completes h]

theorem decodeFixed_snd (factor : Nat) (data : List Byte) (sc : Option Schema) (p : Nat) :
    (decodeFixed factor data sc p).2 = (decodeSchema factor data sc p).2 := rfl

/-- An ack inside the bound is its tag and its counter (R205). -/
theorem decodeMessage_ack {pm : Params} {data : List Byte} {p : Nat}
    (h : p + 17 ≤ pm.readBoundFactor * data.length) :
    decodeMessage pm 0x02 data p = (.fields (.num .tag (BitVec.ofNat 32 (readField data p 7))
      (.num .counter (BitVec.ofNat 32 (readField data (p + 7) 10)) .nil)), 17) :=
  decodeFixed_of_completes (sc := ackSchema) rfl ⟨rfl, .inr h⟩

theorem decodeMessage_ack_past {pm : Params} {data : List Byte} {p : Nat}
    (h : pm.readBoundFactor * data.length < p + 17) :
    decodeMessage pm 0x02 data p = (.fields .nil, 0) :=
  decodeFixed_of_not_completes (sc := ackSchema) fun hin =>
    Nat.not_le.2 h (hin.within (by decide))

/-- A topology message whose header's decode consumes nothing consumes nothing (R204). -/
theorem decodeTopology_header_none {factor : Nat} {c : Schemas} {data : List Byte} {p : Nat}
    (h : (decodeSchema factor data c.topologyHeader p).2 = 0) :
    decodeTopology factor c data p = (.fields .nil, 0) := if_pos h

/-- One that consumes bits consumes at least its header's. -/
theorem decodeTopology_header_le {factor : Nat} {c : Schemas} {data : List Byte} {p : Nat}
    (h : (decodeTopology factor c data p).2 ≠ 0) :
    (decodeSchema factor data c.topologyHeader p).2 ≤ (decodeTopology factor c data p).2 := by
  unfold decodeTopology at h ⊢
  dsimp only at h ⊢
  split
  · rename_i h0
    exact h0.le
  · rename_i h0
    rw [if_neg h0] at h
    split
    · rename_i hd
      rw [hd] at h
      exact absurd rfl h
    · rename_i hd
      rw [hd] at h
      dsimp only at h
      split
      · rename_i hc
        rw [hc] at h
        exact absurd rfl h
      · dsimp only
        omega

/-- The topology message's entries are these three, well-formed, and each decodes to some bits where the
bound lets it. -/
structure TopologyEntries (c : Schemas) (header device connection : Schema) : Prop where
  wellFormed : c.wellFormedFor 0x01 = true
  headerEntry : c.topologyHeader = some header
  deviceEntry : c.topologyDeviceInfo = some device
  connectionEntry : c.topologyConnectionInfo = some connection
  headerConsumes : compositesConsume header = true
  deviceConsumes : compositesConsume device = true
  connectionConsumes : compositesConsume connection = true
  devicePos : 0 < device.bitWidth
  connectionPos : 0 < connection.bitWidth

section
variable {factor : Nat} {c : Schemas} {data : List Byte} {p : Nat} {header device connection : Schema}
  (hc : TopologyEntries c header device connection) {h : Record} {nd nc : Nat}
  (hr : h = recordAt data header p) (hnd : nd = (h.field .deviceCount).toNat)
  (hnc : nc = (h.field .connectionCount).toNat)
include hc hr hnd hnc

/-- A topology message inside the bound is its header, its device records and its connection records. -/
theorem decodeTopology_within
    (hb : p + (header.bitWidth + nd * device.bitWidth + nc * connection.bitWidth) ≤
      factor * data.length) :
    decodeTopology factor c data p =
      (.topology h (groupAt data device nd (p + header.bitWidth))
        (groupAt data connection nc (p + header.bitWidth + nd * device.bitWidth)),
        header.bitWidth + nd * device.bitWidth + nc * connection.bitWidth) := by
  obtain ⟨hwfHeader, htag⟩ := topologyWellFormed_header hc.wellFormed hc.headerEntry
  obtain ⟨hwfDevice, hwfConnection⟩ :=
    topologyWellFormed_groups hc.wellFormed hc.deviceEntry hc.connectionEntry
  have hwidth := seven_le_bitWidth htag
  have hheader : Completes factor data header p := ⟨hc.headerConsumes, .inr (by omega)⟩
  have hdevices := decodeGroup_within (factor := factor) (data := data) (count := nd)
    (p := p + header.bitWidth) hwfDevice hc.deviceConsumes hc.devicePos (.inr (by omega))
  have hconnections := decodeGroup_within (factor := factor) (data := data) (count := nc)
    (p := p + header.bitWidth + nd * device.bitWidth) hwfConnection hc.connectionConsumes
    hc.connectionPos (.inr (by omega))
  simp only [decodeTopology, hc.headerEntry, hc.deviceEntry, hc.connectionEntry,
    decodeSchema_of_completes hwfHeader hheader, ← hr, ← hnd, ← hnc, hdevices, hconnections]
  exact if_neg (by omega)

/-- One that the bound cuts is no fields and 0 bits. -/
theorem decodeTopology_past
    (hb : factor * data.length <
      p + (header.bitWidth + nd * device.bitWidth + nc * connection.bitWidth)) :
    decodeTopology factor c data p = (.fields .nil, 0) := by
  obtain ⟨hwfHeader, htag⟩ := topologyWellFormed_header hc.wellFormed hc.headerEntry
  obtain ⟨hwfDevice, hwfConnection⟩ :=
    topologyWellFormed_groups hc.wellFormed hc.deviceEntry hc.connectionEntry
  have hwidth := seven_le_bitWidth htag
  by_cases hheader : p + header.bitWidth ≤ factor * data.length
  · simp only [decodeTopology, hc.headerEntry, hc.deviceEntry, hc.connectionEntry,
      decodeSchema_of_completes hwfHeader ⟨hc.headerConsumes, .inr hheader⟩, ← hr, ← hnd, ← hnc]
    rw [if_neg (by omega)]
    by_cases hdevices : p + header.bitWidth + nd * device.bitWidth ≤ factor * data.length
    · have hne : nc ≠ 0 := by
        rintro hzero
        rw [hzero, Nat.zero_mul] at hb
        omega
      simp only [decodeGroup_within hwfDevice hc.deviceConsumes hc.devicePos (.inr hdevices),
        decodeGroup_past (factor := factor) (data := data)
          (p := p + header.bitWidth + nd * device.bitWidth) hwfConnection hc.connectionConsumes
          hc.connectionPos hne (by omega)]
    · have hne : nd ≠ 0 := by
        rintro hzero
        rw [hzero, Nat.zero_mul] at hdevices
        omega
      simp only [decodeGroup_past (factor := factor) (data := data) (p := p + header.bitWidth)
        hwfDevice hc.deviceConsumes hc.devicePos hne (by omega)]
  · refine decodeTopology_header_none ?_
    rw [hc.headerEntry, decodeSchema_of_not_completes fun hin => hheader (hin.within (by omega))]

end

/-- A message whose decode consumes bits consumes its tag's 7 at least, which are inside the bound. -/
theorem decodeMessage_consumes {pm : Params} {tag : BitVec 7} {data : List Byte} {p : Nat}
    (hwf : pm.schemas.wellFormedFor tag = true) (h : (decodeMessage pm tag data p).2 ≠ 0) :
    7 ≤ (decodeMessage pm tag data p).2 ∧ p + 7 ≤ pm.readBoundFactor * data.length := by
  rcases tag_cases pm.schemas tag with rfl | rfl | ⟨e, he⟩ | hunknown
  · obtain ⟨m, hm, hn, hb⟩ := decodeSchema_consumes (sc := some ackSchema) h
    cases hm
    change 7 ≤ (decodeSchema pm.readBoundFactor data (some ackSchema) p).2 ∧ _
    rw [hn]
    have hwidth : ackSchema.bitWidth = 17 := rfl
    omega
  · have hle := decodeTopology_header_le h
    have hne : (decodeSchema pm.readBoundFactor data pm.schemas.topologyHeader p).2 ≠ 0 :=
      fun h0 => h (congrArg Prod.snd (decodeTopology_header_none h0))
    obtain ⟨m, hm, hn, hb⟩ := decodeSchema_consumes hne
    have hwidth := seven_le_bitWidth (topologyWellFormed_header hwf hm).2
    change 7 ≤ (decodeTopology pm.readBoundFactor pm.schemas data p).2 ∧ _
    omega
  · rw [he.decodeMessage_eq, decodeFixed_snd] at h ⊢
    obtain ⟨m, rfl, hn, hb⟩ := decodeSchema_consumes h
    have hwidth := seven_le_bitWidth (he.wellFormed_iff.1 hwf).2
    omega
  · rw [decodeMessage_unknown hunknown] at h
    exact absurd rfl h

/-! ### `R_DECODE` (R202) -/

/-- `R_DECODE` answers what the tag's decode gives, and changes nothing else. -/
theorem exec_rDecode {s : State} {data : List Byte} {p : BitVec 32} {tag : BitVec 7} {f : Decoded}
    {n : Nat} (hwf : s.params.schemas.wellFormedFor tag = true)
    (hd : decodeMessage s.params tag data p.toNat = (f, n)) :
    exec (.rDecode data p tag) s = .next { s with response := ⟨0x00, .decoded f n⟩ } := by
  change execRDecode data p tag s = _
  simp only [execRDecode, hwf, hd]
  rfl

/-- It is refused where the tag's entries are ill-formed (log 20). -/
theorem exec_rDecode_refused {s : State} {data : List Byte} {p : BitVec 32} {tag : BitVec 7}
    (hwf : s.params.schemas.wellFormedFor tag = false) :
    exec (.rDecode data p tag) s = .refused .illFormedSchemas := by
  change execRDecode data p tag s = _
  simp only [execRDecode, hwf]
  rfl

end Sys2Proof.Machine

open Sys2Proof Sys2Proof.Machine

/-- Settles O25: by induction on the schema. -/
theorem decodeConsumesTheSchemaWidth : Obligations.DecodeConsumesTheSchemaWidth :=
  fun _ _ _ _ _ _ => decodeFields_width

/-- Settles O26: `R_DECODE` answers `decodeMessage`, which for an ack is R205's schema and for an unknown
or unconfigured tag is empty. -/
theorem decodeAnswersTheMessage : Obligations.DecodeAnswersTheMessage := by
  intro s data p tag
  refine ⟨fun hwf => ⟨_, _, exec_rDecode hwf rfl⟩, fun hin => exec_rDecode rfl (decodeMessage_ack hin),
    fun hpast => exec_rDecode rfl (decodeMessage_ack_past hpast), ?_⟩
  rintro (hunknown | ⟨hwf, ⟨rfl, hnone⟩ | htouch⟩)
  · exact exec_rDecode (wellFormedFor_unknown hunknown _) (decodeMessage_unknown hunknown _ _ _)
  · refine exec_rDecode hwf (decodeTopology_header_none ?_)
    rw [hnone]
    rfl
  · exact exec_rDecode hwf (TouchEntry.decodeMessage_eq htouch _ _)

/-- Settles O27: a well-formed schema decodes to its record exactly where it completes, and a topology
message to its header's record and its groups. -/
theorem configuredMessagesDecodeByTheirSchemas : Obligations.ConfiguredMessagesDecodeByTheirSchemas := by
  refine ⟨fun s data p tag sc hwf htouch => ?_, ?_⟩
  · have hentry : TouchEntry s.params.schemas tag (some sc) := htouch
    have hdecode := hentry.decodeMessage_eq data p.toNat
    obtain ⟨hsc, htag⟩ := hentry.wellFormed_iff.1 hwf
    have hwidth := seven_le_bitWidth htag
    refine ⟨fun hc hin => ⟨_, (fieldsAt_iff hsc).2 rfl, exec_rDecode hwf (hdecode.trans
      (decodeFixed_of_completes hsc ⟨hc, .inr hin⟩))⟩, fun hstop => exec_rDecode hwf (hdecode.trans
      (decodeFixed_of_not_completes ?_))⟩
    intro hcompletes
    rcases hstop with hfalse | hpast
    · exact absurd (hcompletes.1.symm.trans hfalse) (by decide)
    · exact Nat.not_le.2 hpast (hcompletes.within (by omega))
  · intro s data p header device connection h nd nc total hwf hh hd hc hcHeader hcDevice hcConnection
      hposDevice hposConnection hfields hnd hnc htotal
    subst htotal
    have hentries : TopologyEntries s.params.schemas header device connection :=
      ⟨hwf, hh, hd, hc, hcHeader, hcDevice, hcConnection, hposDevice, hposConnection⟩
    have hr := (fieldsAt_iff (topologyWellFormed_header hwf hh).1).1 hfields
    obtain ⟨hwfDevice, hwfConnection⟩ := topologyWellFormed_groups hwf hd hc
    refine ⟨fun hin => ⟨_, _, exec_rDecode hwf (decodeTopology_within hentries hr hnd hnc hin),
      groupAt_length .., groupAt_length .., fun _ _ => fieldsAt_of_groupAt hwfDevice,
      fun _ _ => fieldsAt_of_groupAt hwfConnection⟩,
      fun hpast => exec_rDecode hwf (decodeTopology_past hentries hr hnd hnc hpast)⟩

end

section
/-! The dispatch loop (41_message_decode.md, R206 to R210): the list of messages it answers, what their
delivery does to the session, and the inbound messages as the dispatch that carries them (R372). -/

namespace Sys2Proof.Machine

/-! ### The buffer that holds a message (R101, R107) -/

theorem length_lt_seven {part : List Bool}
    (h : ∀ b0 b1 b2 b3 b4 b5 b6 rest, part = b0 :: b1 :: b2 :: b3 :: b4 :: b5 :: b6 :: rest → False) :
    part.length < 7 := by
  match part, h with
  | [], _ | [_], _ | [_, _], _ | [_, _, _], _ | [_, _, _, _], _ | [_, _, _, _, _], _
  | [_, _, _, _, _, _], _ => simp
  | _ :: _ :: _ :: _ :: _ :: _ :: _ :: _, h => exact absurd rfl (h _ _ _ _ _ _ _ _)

/-- Seven slots to a stored byte, the last one filled up (R101). -/
theorem septets_length (bits : List Bool) : (septets bits).length = bytesFor bits.length := by
  induction bits using septets.induct with
  | case1 b0 b1 b2 b3 b4 b5 b6 rest ih =>
    simp only [septets, List.length_cons, ih, bytesFor]
    omega
  | case2 => rfl
  | case3 part hseven hne =>
    have hlt := length_lt_seven hseven
    have hpos := List.length_pos_of_ne_nil hne
    simp only [septets, List.length_singleton, bytesFor]
    omega

/-- Slot `j` of the stored bytes is bit `j` of the stream, and 0 past its end (R101). -/
theorem getLsbD_septets (bits : List Bool) (j : Nat) :
    ((septets bits).getD (j / 7) 0).getLsbD (j % 7) = bits.getD j false := by
  have hslot : ∀ part : List Bool, (BitVec.ofNat 7 (ofBits part)).getLsbD (j % 7) =
      part.getD (j % 7) false := by
    intro part
    rw [BitVec.getLsbD_ofNat, testBit_ofBits]
    simp [Nat.mod_lt]
  induction bits using septets.induct generalizing j with
  | case1 b0 b1 b2 b3 b4 b5 b6 rest ih =>
    simp only [septets]
    rcases Nat.lt_or_ge j 7 with hj | hj
    · rw [Nat.div_eq_of_lt hj, List.getD_cons_zero, hslot, Nat.mod_eq_of_lt hj]
      interval_cases j <;> rfl
    · obtain ⟨k, rfl⟩ := Nat.exists_eq_add_of_le' hj
      have hmod : (k + 7) % 7 = k % 7 := by omega
      rw [show (k + 7) / 7 = k / 7 + 1 by omega, List.getD_cons_succ, hmod,
        ih k (fun part => by rw [← hmod]; exact hslot part)]
      rfl
  | case2 => simp [septets]
  | case3 part hseven hne =>
    have hlt := length_lt_seven hseven
    simp only [septets]
    rcases Nat.lt_or_ge j 7 with hj | hj
    · rw [Nat.div_eq_of_lt hj, List.getD_cons_zero, hslot, Nat.mod_eq_of_lt hj]
    · rw [List.getD_eq_default _ _ (by simp; omega), List.getD_eq_default _ _ (by omega)]
      exact BitVec.getLsbD_zero

theorem inboundBuffer_length (bits : List Bool) :
    (inboundBuffer bits).length = bytesFor (39 + bits.length) := by
  rw [inboundBuffer, List.length_map, septets_length, List.length_append, List.length_replicate]
  rfl

/-- From stream bit 39 on the buffer holds the message's bits, and zeros behind them (R101, R107). -/
theorem sbit_inboundBuffer (bits : List Bool) (k : Nat) :
    sbit (inboundBuffer bits) (39 + k) = bits.getD k false := by
  have hcount : (List.replicate Config.inboundStartBit false).length = 39 := rfl
  have hbyte : (0 : Byte) = (0 : Septet).setWidth 8 := rfl
  rw [sbit_eq_bitAt, bitAt, inboundBuffer, hbyte, List.getD_map, BitVec.getLsbD_setWidth,
    getLsbD_septets, List.getD_append_right _ _ _ _ (by rw [hcount]; omega), hcount,
    Nat.add_sub_cancel_left, decide_eq_true (by omega), Bool.true_and]

/-- A field of the message is read back at its place in the buffer (R74). -/
theorem readField_inboundBuffer (front field rest : List Bool) :
    readField (inboundBuffer (front ++ (field ++ rest))) (39 + front.length) field.length =
      ofBits field := by
  rw [readField]
  congr 1
  refine List.ext_getElem (by simp) fun k _ hk => ?_
  rw [List.getElem_map, List.getElem_range, Nat.add_assoc, sbit_inboundBuffer,
    List.getD_append_right _ _ _ _ (by omega), Nat.add_sub_cancel_left, List.getD_append _ _ _ _ hk,
    List.getD_eq_getElem _ _ hk]

/-- Behind the message the buffer reads 0 (R101, R161). -/
theorem readField_inboundBuffer_past {bits : List Bool} {k : Nat} (hk : bits.length ≤ k) (w : Nat) :
    readField (inboundBuffer bits) (39 + k) w = 0 := by
  refine Nat.eq_of_testBit_eq fun i => ?_
  rw [testBit_readField, Nat.add_assoc, sbit_inboundBuffer, List.getD_eq_default _ _ (by omega)]
  simp

/-! ### The tag at a stream bit (R206) -/

/-- The 7 bits at `p`, as a tag. -/
def tagAt (data : List Byte) (p : Nat) : BitVec 7 := BitVec.ofNat 7 (readField data p 7)

theorem tagAt_toNat (data : List Byte) (p : Nat) : (tagAt data p).toNat = readField data p 7 := by
  have hlt := ofBits_lt ((List.range 7).map fun k => sbit data (p + k))
  rw [List.length_map, List.length_range] at hlt
  exact (BitVec.toNat_ofNat _ _).trans (Nat.mod_eq_of_lt hlt)

theorem tagAt_eq_iff {data : List Byte} {p : Nat} {tag : BitVec 7} :
    tagAt data p = tag ↔ readField data p 7 = tag.toNat := by
  rw [← BitVec.toNat_inj, tagAt_toNat]

theorem tagAt_mem_iff {data : List Byte} {p : Nat} :
    tagAt data p ∈ [0x01#7, 0x02#7, 0x11#7, 0x13#7, 0x15#7] ↔
      readField data p 7 ∈ [0x01, 0x02, 0x11, 0x13, 0x15] := by
  simp [tagAt_eq_iff]

theorem knownTag_iff {tag : BitVec 7} :
    knownTag tag = true ↔ tag ∈ [0x01#7, 0x02#7, 0x11#7, 0x13#7, 0x15#7] := by
  simp [knownTag, or_assoc]

/-- Ill-formed entries are those of a known tag (log 20). -/
theorem knownTag_of_illFormed {c : Schemas} {tag : BitVec 7} (h : c.wellFormedFor tag = false) :
    knownTag tag = true := by
  rw [knownTag_iff]
  by_contra hunknown
  exact absurd ((wellFormedFor_unknown hunknown c).symm.trans h) (by decide)

/-- The tag that a turn of the loop reads is the one at `p`. -/
theorem readBits_tagAt {factor : Nat} {data : List Byte} {p : Nat}
    (h : p + 7 ≤ factor * data.length) :
    readBits factor data p 7 = some ((tagAt data p).setWidth 32) := by
  rw [readBits_some h, ← tagAt_toNat]
  exact congrArg some (BitVec.eq_of_toNat_eq (by simp))

/-! ### A message in the buffer, and the list of them (R206, R207) -/

/-- A message at bit `p` that a turn of the loop delivers: its tag can be read and is known, and its
decode gives `f` and consumes `n` bits, at least one. -/
structure MessageAt (pm : Params) (data : List Byte) (p : Nat) (tag : BitVec 7) (f : Decoded) (n : Nat) :
    Prop where
  readable : p + 7 ≤ pm.readBoundFactor * data.length
  tagAt_eq : tagAt data p = tag
  known : tag ∈ [0x01#7, 0x02#7, 0x11#7, 0x13#7, 0x15#7]
  decoded : decodeMessage pm tag data p = (f, n)
  consumes : 0 < n

theorem listedFrom_nil {pm : Params} {data : List Byte} {p : Nat} :
    ListedFrom pm data p [] ↔ pm.readBoundFactor * data.length < p + 7 ∨
      readField data p 7 ∉ [0x01, 0x02, 0x11, 0x13, 0x15] ∨
      (decodeMessage pm (tagAt data p) data p).2 = 0 := Iff.rfl

theorem listedFrom_cons {pm : Params} {data : List Byte} {p : Nat} {tag : BitVec 7} {f : Decoded}
    {ms : List (BitVec 7 × Decoded)} :
    ListedFrom pm data p ((tag, f) :: ms) ↔
      ∃ n, MessageAt pm data p tag f n ∧ ListedFrom pm data (p + n) ms := by
  constructor
  · rintro ⟨hin, htag, hknown, n, hn, hd, hrest⟩
    exact ⟨n, ⟨hin, tagAt_eq_iff.2 htag.symm, hknown, hd, hn⟩, hrest⟩
  · rintro ⟨n, hm, hrest⟩
    exact ⟨hm.readable, (tagAt_eq_iff.1 hm.tagAt_eq).symm, hm.known, n, hm.consumes, hm.decoded, hrest⟩

/-- At every bit either the list ends or a message stands. -/
theorem listedFrom_nil_or_messageAt (pm : Params) (data : List Byte) (p : Nat) :
    ListedFrom pm data p [] ∨ ∃ f n, MessageAt pm data p (tagAt data p) f n := by
  rw [listedFrom_nil]
  by_cases hin : p + 7 ≤ pm.readBoundFactor * data.length
  · by_cases hknown : readField data p 7 ∈ [0x01, 0x02, 0x11, 0x13, 0x15]
    · rcases hd : decodeMessage pm (tagAt data p) data p with ⟨f, n⟩
      rcases Nat.eq_zero_or_pos n with hzero | hn
      · exact .inl (.inr (.inr hzero))
      · exact .inr ⟨f, n, hin, rfl, tagAt_mem_iff.2 hknown, hd, hn⟩
    · exact .inl (.inr (.inl hknown))
  · exact .inl (.inl (Nat.lt_of_not_le hin))

/-- The list does not end where a message stands. -/
theorem MessageAt.not_listedFrom_nil {pm : Params} {data : List Byte} {p : Nat} {tag : BitVec 7}
    {f : Decoded} {n : Nat} (h : MessageAt pm data p tag f n) : ¬ ListedFrom pm data p [] := by
  obtain ⟨hin, rfl, hknown, hd, hn⟩ := h
  rw [listedFrom_nil, hd]
  rintro (hpast | hunknown | hzero)
  · omega
  · exact hunknown (tagAt_mem_iff.1 hknown)
  · exact absurd hzero (Nat.ne_of_gt hn)

/-- A list that starts where a message stands starts with it. -/
theorem MessageAt.listedFrom {pm : Params} {data : List Byte} {p : Nat} {tag : BitVec 7}
    {f : Decoded} {n : Nat} {ms : List (BitVec 7 × Decoded)} (h : MessageAt pm data p tag f n)
    (hms : ListedFrom pm data p ms) : ∃ more, ms = (tag, f) :: more := by
  rcases ms with _ | ⟨⟨tag', f'⟩, more⟩
  · exact absurd hms h.not_listedFrom_nil
  · obtain ⟨n', h', -⟩ := listedFrom_cons.1 hms
    obtain rfl : tag = tag' := h.tagAt_eq.symm.trans h'.tagAt_eq
    obtain ⟨rfl, -⟩ := Prod.mk.inj (h.decoded.symm.trans h'.decoded)
    exact ⟨more, rfl⟩

/-- There is a list from every bit: each message of it consumes bits, so it ends at the bound. -/
theorem exists_listedFrom (pm : Params) (data : List Byte) {fuel p : Nat}
    (hfuel : pm.readBoundFactor * data.length < p + fuel) : ∃ ms, ListedFrom pm data p ms := by
  induction fuel generalizing p with
  | zero => exact ⟨[], .inl (by omega)⟩
  | succ fuel ih =>
    rcases listedFrom_nil_or_messageAt pm data p with hnil | ⟨f, n, hm⟩
    · exact ⟨[], hnil⟩
    · have hn := hm.consumes
      obtain ⟨ms, hms⟩ := ih (p := p + n) (by omega)
      exact ⟨_, listedFrom_cons.2 ⟨n, hm, hms⟩⟩

/-! ### A turn of the loop -/

/-- A turn that reads a tag: what it does is decided by the tag at `p`. -/
theorem dispatchLoop_turn {data : List Byte} {p : Nat} {s : State}
    (h : p + 7 ≤ s.params.readBoundFactor * data.length) (fuel : Nat) :
    dispatchLoop data (fuel + 1) p s =
      if knownTag (tagAt data p) then
        if s.params.schemas.wellFormedFor (tagAt data p) then
          if (decodeMessage s.params (tagAt data p) data p).2 = 0 then .ok (s, [])
          else do
            let u ← deliver (tagAt data p) (decodeMessage s.params (tagAt data p) data p).1 s
            let (t, rest) ← dispatchLoop data fuel
              (p + (decodeMessage s.params (tagAt data p) data p).2) u
            .ok (t, (tagAt data p, (decodeMessage s.params (tagAt data p) data p).1) :: rest)
        else .error (.refuse .illFormedSchemas)
      else .ok (s, []) := by
  have htag : ((tagAt data p).setWidth 32).setWidth 7 = tagAt data p := by simp
  simp only [dispatchLoop, readBits_tagAt h, htag]

/-- The loop stops, without error, at a tag that cannot be read, is unknown, or begins a message whose
decode consumes nothing (R206, R207). -/
theorem dispatchLoop_stop {data : List Byte} {p : Nat} {s : State} {tag : BitVec 7}
    (h : s.params.readBoundFactor * data.length < p + 7 ∨
      readField data p 7 ∉ [0x01, 0x02, 0x11, 0x13, 0x15] ∨
      (readField data p 7 = tag.toNat ∧ s.params.schemas.wellFormedFor tag = true ∧
        (decodeMessage s.params tag data p).2 = 0)) (fuel : Nat) :
    dispatchLoop data fuel p s = .ok (s, []) := by
  rcases fuel with _ | fuel
  · rfl
  by_cases hin : p + 7 ≤ s.params.readBoundFactor * data.length
  · rw [dispatchLoop_turn hin]
    rcases h with hpast | hunknown | ⟨htag, hwf, hzero⟩
    · omega
    · rw [← tagAt_mem_iff, ← knownTag_iff] at hunknown
      rw [if_neg hunknown]
    · rw [tagAt_eq_iff.2 htag, if_pos hwf, if_pos hzero, ite_self]
  · simp only [dispatchLoop, readBits_none (Nat.lt_of_not_le hin)]

/-- A turn at a message with well-formed entries delivers it and goes on behind it (R206). -/
theorem dispatchLoop_message {data : List Byte} {p : Nat} {s : State} {tag : BitVec 7} {f : Decoded}
    {n : Nat} (h : MessageAt s.params data p tag f n)
    (hwf : s.params.schemas.wellFormedFor tag = true) (fuel : Nat) :
    dispatchLoop data (fuel + 1) p s =
      (do
        let u ← deliver tag f s
        let (t, rest) ← dispatchLoop data fuel (p + n) u
        .ok (t, (tag, f) :: rest)) := by
  obtain ⟨hin, rfl, hknown, hd, hn⟩ := h
  rw [dispatchLoop_turn hin, if_pos (knownTag_iff.2 hknown), if_pos hwf, hd,
    if_neg (Nat.ne_of_gt hn)]

/-- A turn at a tag whose entries are ill-formed is refused (log 20). -/
theorem dispatchLoop_refused {data : List Byte} {p : Nat} {s : State}
    (h : p + 7 ≤ s.params.readBoundFactor * data.length)
    (hwf : s.params.schemas.wellFormedFor (tagAt data p) = false) (fuel : Nat) :
    dispatchLoop data (fuel + 1) p s = .error (.refuse .illFormedSchemas) := by
  rw [dispatchLoop_turn h, if_pos (knownTag_of_illFormed hwf), hwf]
  rfl

/-- What a turn that completes can do, with the message it delivers named. -/
theorem dispatchLoop_succ_messageAt {data : List Byte} {fuel p : Nat} {s t : State}
    {ms : List (BitVec 7 × Decoded)} (h : dispatchLoop data (fuel + 1) p s = .ok (t, ms)) :
    (t = s ∧ ms = []) ∨ ∃ tag f n u rest, MessageAt s.params data p tag f n ∧
      s.params.schemas.wellFormedFor tag = true ∧ deliver tag f s = .ok u ∧
      dispatchLoop data fuel (p + n) u = .ok (t, rest) ∧ ms = (tag, f) :: rest := by
  obtain hstop | ⟨v, f, n, u, rest, hv, hknown, hwf, hd, hn, hu, hrest, hms⟩ := dispatchLoop_succ h
  · exact .inl hstop
  · have hin : p + 7 ≤ s.params.readBoundFactor * data.length := by
      by_contra hpast
      rw [readBits_none (by omega)] at hv
      cases hv
    have htag : tagAt data p = v.setWidth 7 := by
      cases (readBits_tagAt hin).symm.trans hv
      simp
    have hm : MessageAt s.params data p (v.setWidth 7) f n :=
      ⟨hin, htag, knownTag_iff.1 hknown, hd, Nat.pos_of_ne_zero hn⟩
    exact .inr ⟨_, f, n, u, rest, hm, hwf, hu, hrest, hms⟩


/-! ### What a delivery does to the session (R209, R210) -/

/-- `s` with the session of `t`: U3's registers but `DEVIDX` and `MAXPKT`, and the events. -/
def State.withSession (s t : State) : State :=
  { s with
    sstate := t.sstate
    stepReg := t.stepReg
    pending := t.pending
    pc := t.pc
    apc := t.apc
    readyF := t.readyF
    hbEn := t.hbEn
    queue := t.queue
    events := t.events }

/-- Two changes of the session alone are one. -/
theorem withSession_trans {s t u : State} (ht : t = s.withSession t) (hu : u = t.withSession u) :
    u = s.withSession u := by
  rw [ht] at hu
  exact hu

theorem runStep_session {n : BitVec 4} {s t : State} (h : runStep n s = .ok t) :
    t = s.withSession t := by
  have hn : (1 ≤ n.toNat ∧ n.toNat ≤ 7) ∨ n = 8 ∨ (n.toNat = 0 ∨ 8 < n.toNat) := by bv_omega
  rcases hn with ⟨h1, h7⟩ | rfl | hover
  · cases (runStep_waits h1 h7).symm.trans h; rfl
  · cases (runStep_ready s).symm.trans h; rfl
  · cases (runStep_overrun hover).symm.trans h

theorem ackCounter_session (c : BitVec 10) (s : State) :
    ackCounter c s = s.withSession (ackCounter c s) := by
  rcases ackCounter_cases c s with ⟨-, h⟩ | ⟨-, h⟩ <;> rw [h] <;> rfl

theorem ackContinue_session {s t : State} (h : ackContinue s = .ok t) : t = s.withSession t := by
  rcases ackContinue_cases s with ⟨p, rest, -, he⟩ | ⟨-, -, he⟩ | ⟨-, -, he⟩
  · cases he.symm.trans h; rfl
  · exact runStep_session (s := { s with pending := false }) (he.symm.trans h)
  · cases he.symm.trans h; rfl

/-- An ack changes nothing but the session. -/
theorem acknowledge_session {c : BitVec 10} {s t : State} (h : acknowledge c s = .ok t) :
    t = s.withSession t := by
  rcases acknowledge_cases c s with ⟨-, he⟩ | ⟨-, he⟩
  · cases he.symm.trans h; rfl
  · exact withSession_trans (ackCounter_session c s) (ackContinue_session (he.symm.trans h))

theorem deliver_session {tag : BitVec 7} {f : Decoded} {s t : State} (h : deliver tag f s = .ok t) :
    t = s.withSession t := by
  rcases deliver_cases tag f s with ⟨-, he⟩ | ⟨-, he⟩
  · exact acknowledge_session (he.symm.trans h)
  · cases he.symm.trans h; rfl

theorem deliver_params {tag : BitVec 7} {f : Decoded} {s t : State} (h : deliver tag f s = .ok t) :
    t.params = s.params := by
  rw [deliver_session h]
  rfl

/-! #### It completes where R343's laws hold, and keeps them -/

/-- The wait of each of the steps 1 to 7 goes on to the next step, and step 8 is there to be run. -/
theorem continueStep_completes {s : State} (hs : s.sessionWf = true) (hopen : s.sstate = .opening) :
    ∃ t, runStep (s.stepReg + 1) { s with pending := false } = .ok t ∧ t.sessionWf = true := by
  obtain ⟨-, hready, hhb, hq, h1, h7⟩ := (State.sessionWf_opening hopen).1 hs
  have hnext : (s.stepReg + 1).toNat = s.stepReg.toNat + 1 := by
    rw [BitVec.toNat_add]; simp; omega
  rcases Nat.lt_or_ge s.stepReg.toNat 7 with hlt | hge
  · have hheart : (s.hbEn || decide ((s.stepReg + 1).toNat = 3)) =
        decide (3 ≤ (s.stepReg + 1).toNat) := by
      rw [hhb, ← Bool.decide_or]
      exact decide_eq_decide.2 (by omega)
    exact ⟨_, runStep_waits (by omega) (by omega), (State.sessionWf_opening (by exact hopen)).2
      ⟨rfl, hready, hheart, hq, by simp only; omega, by simp only; omega⟩⟩
  · have h8 : s.stepReg + 1 = 8 := BitVec.eq_of_toNat_eq (by rw [hnext]; simp; omega)
    have h3 : 3 ≤ s.stepReg.toNat := by omega
    rw [h8]
    exact ⟨_, runStep_ready _, (State.sessionWf_ready rfl).2 ⟨rfl, rfl, by simp [hhb, h3], rfl⟩⟩

theorem ackContinue_completes {s : State} (hs : s.sessionWf = true) (hne : s.sstate ≠ .closed) :
    ∃ t, ackContinue s = .ok t ∧ t.sessionWf = true := by
  cases hst : s.sstate with
  | closed => exact absurd hst hne
  | opening =>
    obtain ⟨hp, -, -, hq, -⟩ := (State.sessionWf_opening hst).1 hs
    obtain ⟨t, ht, hwf⟩ := continueStep_completes hs hst
    refine ⟨t, ?_, hwf⟩
    rw [ackContinue, if_neg (by simp [hq]), if_pos hp, ht]
  | ready =>
    have hlaws := (State.sessionWf_ready hst).1 hs
    have hnot : s.pending = false := hlaws.1
    rcases ackContinue_cases s with ⟨p, rest, -, he⟩ | ⟨-, hp, -⟩ | ⟨-, -, he⟩
    · exact ⟨_, he, (State.sessionWf_ready (by exact hst)).2 hlaws⟩
    · exact absurd (hnot.symm.trans hp) (by decide)
    · exact ⟨s, he, hs⟩

/-- An ack completes in every state of a session that keeps R343's laws (R309 to R313). -/
theorem acknowledge_completes {s : State} (hs : s.sessionWf = true) (c : BitVec 10) :
    ∃ t, acknowledge c s = .ok t ∧ t.sessionWf = true := by
  rcases acknowledge_cases c s with ⟨-, he⟩ | ⟨hne, he⟩
  · exact ⟨s, he, hs⟩
  · rw [he]
    rcases ackCounter_cases c s with ⟨-, hc⟩ | ⟨-, hc⟩ <;> rw [hc] <;>
      exact ackContinue_completes hs hne

theorem deliver_completes {s : State} (hs : s.sessionWf = true) (tag : BitVec 7) (f : Decoded) :
    ∃ t, deliver tag f s = .ok t ∧ t.sessionWf = true := by
  rcases deliver_cases tag f s with ⟨-, he⟩ | ⟨-, he⟩
  · rw [he]
    exact acknowledge_completes hs _
  · exact ⟨_, he, hs⟩

/-! ### Messages delivered one after another -/

/-- The messages of a list delivered in order, inside one request. -/
def deliverAll : List (BitVec 7 × Decoded) → State → Except Stop State
  | [], s => .ok s
  | (tag, f) :: ms, s => do
      let t ← deliver tag f s
      deliverAll ms t

theorem deliverAll_cons_ok {tag : BitVec 7} {f : Decoded} {ms : List (BitVec 7 × Decoded)}
    {s t : State} : deliverAll ((tag, f) :: ms) s = .ok t ↔
      ∃ u, deliver tag f s = .ok u ∧ deliverAll ms u = .ok t := bind_ok

theorem deliverAll_completes {s : State} (hs : s.sessionWf = true)
    (ms : List (BitVec 7 × Decoded)) : ∃ t, deliverAll ms s = .ok t := by
  induction ms generalizing s with
  | nil => exact ⟨s, rfl⟩
  | cons m ms ih =>
    obtain ⟨u, hu, hwf⟩ := deliver_completes hs m.1 m.2
    obtain ⟨t, ht⟩ := ih hwf
    exact ⟨t, deliverAll_cons_ok.2 ⟨u, hu, ht⟩⟩

theorem deliverAll_session {ms : List (BitVec 7 × Decoded)} {s t : State}
    (h : deliverAll ms s = .ok t) : t = s.withSession t := by
  induction ms generalizing s with
  | nil => cases h; rfl
  | cons m ms ih =>
    obtain ⟨u, hu, ht⟩ := deliverAll_cons_ok.1 h
    exact withSession_trans (deliver_session hu) (ih ht)

/-! #### As one request for each ack (R210) -/

/-- `S_ACK` that completes: the acknowledgement, answered with no result (R309). -/
theorem exec_sAck_ok {c : BitVec 10} {s t : State} (h : acknowledge c s = .ok t) :
    exec (.sAck c) s = .next (t.respondOk .none) := by
  change answer s (acknowledge c s >>= fun t => .ok (t, .none)) = _
  rw [h]
  rfl

/-- The response before it is no part of an acknowledgement (R30). -/
theorem acknowledge_response {c : BitVec 10} {s t : State} (h : acknowledge c s = .ok t)
    (r : Response) : acknowledge c { s with response := r } = .ok { t with response := r } := by
  have hmap := acknowledge_withHistory s ⟨id, r, []⟩ c
  rw [h] at hmap
  exact hmap

theorem deliverInTurn_ack {tag : BitVec 7} {f : Decoded} {ms : List (BitVec 7 × Decoded)} {s t : State}
    (htag : tag = 0x02#7) (h : exec (.sAck f.ackCounter) s = .next t) :
    deliverInTurn ((tag, f) :: ms) s = deliverInTurn ms t := by
  simp [deliverInTurn, htag, h]

theorem deliverInTurn_event {tag : BitVec 7} {f : Decoded} {ms : List (BitVec 7 × Decoded)} {s : State}
    (htag : tag ≠ 0x02#7) : deliverInTurn ((tag, f) :: ms) s = deliverInTurn ms (s.emit (.msg tag f)) :=
  if_neg htag

/-- Delivering a list inside one request is delivering it by a request for each ack; the responses of
those requests are all that differs. -/
theorem deliverInTurn_of_deliverAll {ms : List (BitVec 7 × Decoded)} {s t : State}
    (h : deliverAll ms s = .ok t) (r : Response) :
    ∃ r', deliverInTurn ms { s with response := r } = .next { t with response := r' } := by
  induction ms generalizing s r with
  | nil => cases h; exact ⟨r, rfl⟩
  | cons m ms ih =>
    obtain ⟨tag, f⟩ := m
    obtain ⟨u, hu, ht⟩ := deliverAll_cons_ok.1 h
    rcases deliver_cases tag f s with ⟨htag, he⟩ | ⟨htag, he⟩
    · have hack := acknowledge_response (he.symm.trans hu) r
      obtain ⟨r', hr'⟩ := ih ht ⟨0x00, .none⟩
      refine ⟨r', ?_⟩
      rw [deliverInTurn_ack htag (exec_sAck_ok hack)]
      exact hr'
    · cases he.symm.trans hu
      obtain ⟨r', hr'⟩ := ih ht r
      refine ⟨r', ?_⟩
      rw [deliverInTurn_event htag]
      exact hr'

/-! #### The events of a delivery come after those before it (R84) -/

theorem acknowledge_events_prefix {c : BitVec 10} {s t : State} (h : acknowledge c s = .ok t) :
    s.events <+: t.events :=
  exec_events_prefix (i := .sAck c) (t := t.respondOk .none) (.inl rfl) (exec_sAck_ok h)

theorem deliver_events_prefix {tag : BitVec 7} {f : Decoded} {s t : State}
    (h : deliver tag f s = .ok t) : s.events <+: t.events := by
  rcases deliver_cases tag f s with ⟨-, he⟩ | ⟨-, he⟩
  · exact acknowledge_events_prefix (he.symm.trans h)
  · cases he.symm.trans h
    exact List.prefix_append s.events _

theorem deliverAll_events_prefix {ms : List (BitVec 7 × Decoded)} {s t : State}
    (h : deliverAll ms s = .ok t) : s.events <+: t.events := by
  induction ms generalizing s with
  | nil => cases h; exact List.prefix_rfl
  | cons m ms ih =>
    obtain ⟨u, hu, ht⟩ := deliverAll_cons_ok.1 h
    exact (deliver_events_prefix hu).trans (ih ht)

/-! ### The loop is its list, delivered in order (R206) -/

/-- Under well-formed entries the loop answers the list of messages from `p` and delivers them. -/
theorem dispatchLoop_of_listedFrom {data : List Byte} {fuel p : Nat} {s t : State}
    {ms : List (BitVec 7 × Decoded)} (hwf : s.params.schemas.wellFormed = true)
    (hfuel : s.params.readBoundFactor * data.length < p + fuel)
    (hms : ListedFrom s.params data p ms) (h : deliverAll ms s = .ok t) :
    dispatchLoop data fuel p s = .ok (t, ms) := by
  induction ms generalizing fuel p s with
  | nil =>
    cases h
    refine dispatchLoop_stop (tag := tagAt data p) ?_ fuel
    exact (listedFrom_nil.1 hms).imp_right fun hstop => hstop.imp_right fun hzero =>
      ⟨(tagAt_toNat data p).symm, wellFormedFor_of_wellFormed hwf _, hzero⟩
  | cons m ms ih =>
    obtain ⟨n, hm, hrest⟩ := listedFrom_cons.1 hms
    obtain ⟨u, hu, ht⟩ := deliverAll_cons_ok.1 h
    have hn := hm.consumes
    have hin := hm.readable
    obtain ⟨fuel, rfl⟩ : ∃ k, fuel = k + 1 := Nat.exists_eq_succ_of_ne_zero (by omega)
    rw [dispatchLoop_message hm (wellFormedFor_of_wellFormed hwf _), hu]
    rw [← deliver_params hu] at hwf hfuel hrest
    change (dispatchLoop data fuel (p + n) u >>= _) = _
    rw [ih hwf (by omega) hrest ht]
    rfl

/-- A loop that completes has delivered the messages it answers, in their order. -/
theorem deliverAll_of_dispatchLoop {data : List Byte} {fuel p : Nat} {s t : State}
    {ms : List (BitVec 7 × Decoded)} (h : dispatchLoop data fuel p s = .ok (t, ms)) :
    deliverAll ms s = .ok t := by
  induction fuel generalizing p s ms with
  | zero => cases h; rfl
  | succ fuel ih =>
    obtain ⟨rfl, rfl⟩ | ⟨v, f, n, u, rest, -, -, -, -, -, hu, hrest, rfl⟩ := dispatchLoop_succ h
    · rfl
    · exact deliverAll_cons_ok.2 ⟨u, hu, ih hrest⟩

/-- Each message answered took at least 7 bits inside the bound (R208). -/
theorem dispatchLoop_length {data : List Byte} {fuel p : Nat} {s t : State}
    {ms : List (BitVec 7 × Decoded)} (h : dispatchLoop data fuel p s = .ok (t, ms)) :
    ms = [] ∨ p + 7 * ms.length ≤ s.params.readBoundFactor * data.length := by
  induction fuel generalizing p s ms with
  | zero => cases h; exact .inl rfl
  | succ fuel ih =>
    obtain ⟨-, rfl⟩ | ⟨tag, f, n, u, rest, hm, hwf, hu, hrest, rfl⟩ := dispatchLoop_succ_messageAt h
    · exact .inl rfl
    · have hdecoded := congrArg Prod.snd hm.decoded
      have hpos := hm.consumes
      have hin := hm.readable
      obtain ⟨h7, -⟩ := decodeMessage_consumes (p := p) (data := data) hwf (by rw [hdecoded]; omega)
      have hmore := ih hrest
      rw [deliver_params hu] at hmore
      refine .inr ?_
      rw [List.length_cons]
      rcases hmore with rfl | hmore
      · simpa using hin
      · omega

/-! ### `R_DISPATCH` (R206) -/

theorem exec_rDispatch_ok {data : List Byte} {s t : State} {ms : List (BitVec 7 × Decoded)}
    (h : dispatchLoop data (s.params.readBoundFactor * data.length + 1) Config.inboundStartBit s =
      .ok (t, ms)) : exec (.rDispatch data) s = .next (t.respondOk (.messages ms)) :=
  dispatch_next.2 (.inl ⟨t, ms, h, rfl⟩)

/-- A dispatch that answers a list is its loop, completed with that list. -/
theorem exec_rDispatch_messages {data : List Byte} {s t : State} {ms : List (BitVec 7 × Decoded)}
    (h : exec (.rDispatch data) s = .next t) (hr : t.response = ⟨0x00, .messages ms⟩) :
    ∃ u, dispatchLoop data (s.params.readBoundFactor * data.length + 1) Config.inboundStartBit s =
      .ok (u, ms) ∧ t = u.respondOk (.messages ms) := by
  obtain ⟨u, ms', hu, rfl⟩ | ⟨c, -, rfl⟩ := dispatch_next.1 h
  · cases hr
    exact ⟨u, hu, rfl⟩
  · exact absurd (congrArg Response.status hr) (s.raise_status_ne_ok c)

theorem exec_rDispatch_stop {data : List Byte} {s : State} {tag : BitVec 7}
    (h : s.params.readBoundFactor * data.length < 39 + 7 ∨
      readField data 39 7 ∉ [0x01, 0x02, 0x11, 0x13, 0x15] ∨
      (readField data 39 7 = tag.toNat ∧ s.params.schemas.wellFormedFor tag = true ∧
        (decodeMessage s.params tag data 39).2 = 0)) :
    exec (.rDispatch data) s = .next { s with response := ⟨0x00, .messages []⟩ } :=
  exec_rDispatch_ok (dispatchLoop_stop h _)

theorem exec_rDispatch_refused {data : List Byte} {s : State} {tag : BitVec 7}
    (hin : 39 + 7 ≤ s.params.readBoundFactor * data.length) (htag : readField data 39 7 = tag.toNat)
    (hwf : s.params.schemas.wellFormedFor tag = false) :
    exec (.rDispatch data) s = .refused .illFormedSchemas := by
  rw [← tagAt_eq_iff.2 htag] at hwf
  refine (answer_refused s _ _).2 ?_
  rw [show dispatchLoop data _ Config.inboundStartBit s = _ from dispatchLoop_refused hin hwf _]
  rfl

/-- Under well-formed entries and R343's laws it completes with R206's list from bit 39, delivered in
order. -/
theorem exec_rDispatch_completes {s : State} (hwf : s.params.schemas.wellFormed = true)
    (hs : s.sessionWf = true) (data : List Byte) :
    ∃ t ms, ListedFrom s.params data 39 ms ∧ deliverAll ms s = .ok t ∧
      exec (.rDispatch data) s = .next (t.respondOk (.messages ms)) := by
  have hfuel : s.params.readBoundFactor * data.length <
      39 + (s.params.readBoundFactor * data.length + 1) := by omega
  obtain ⟨ms, hms⟩ := exists_listedFrom s.params data hfuel
  obtain ⟨t, ht⟩ := deliverAll_completes hs ms
  exact ⟨t, ms, hms, ht, exec_rDispatch_ok (dispatchLoop_of_listedFrom hwf hfuel hms ht)⟩

/-! ### The inbound messages (R108, R372) -/

/-- `i` is the topology or touch message of this tag with these stored bytes after it. -/
def CarriesTag (i : Instr) (tag : BitVec 7) (body : List Septet) : Prop :=
  (i, tag) ∈ [(.msgTopology body, 0x01#7), (.msgTouchMove body, 0x11#7),
    (.msgTouchStartV body, 0x13#7), (.msgTouchEndV body, 0x15#7)]

theorem carriesTag_iff {i : Instr} {tag : BitVec 7} {body : List Septet} :
    CarriesTag i tag body ↔ (i = .msgTopology body ∧ tag = 0x01) ∨
      (i = .msgTouchMove body ∧ tag = 0x11) ∨ (i = .msgTouchStartV body ∧ tag = 0x13) ∨
      (i = .msgTouchEndV body ∧ tag = 0x15) := by
  simp [CarriesTag]

section
variable {i : Instr} {tag : BitVec 7} {body : List Septet} (h : CarriesTag i tag body)
include h

theorem CarriesTag.layer_eq : i.layer = .message := by
  obtain ⟨rfl, -⟩ | ⟨rfl, -⟩ | ⟨rfl, -⟩ | ⟨rfl, -⟩ := carriesTag_iff.1 h <;> rfl

theorem CarriesTag.encode_eq : encode i = putField tag ++ body.flatMap putField := by
  obtain ⟨rfl, rfl⟩ | ⟨rfl, rfl⟩ | ⟨rfl, rfl⟩ | ⟨rfl, rfl⟩ := carriesTag_iff.1 h <;> rfl

theorem CarriesTag.known : tag ∈ [0x01#7, 0x02#7, 0x11#7, 0x13#7, 0x15#7] := by
  obtain ⟨-, rfl⟩ | ⟨-, rfl⟩ | ⟨-, rfl⟩ | ⟨-, rfl⟩ := carriesTag_iff.1 h <;> decide

theorem CarriesTag.ne_ack : tag ≠ 0x02#7 := by
  obtain ⟨-, rfl⟩ | ⟨-, rfl⟩ | ⟨-, rfl⟩ | ⟨-, rfl⟩ := carriesTag_iff.1 h <;> decide

end

/-- The tag of a message stands at bit 39 of its buffer (R107). -/
theorem readField_inboundBuffer_tag (tag : BitVec 7) (rest : List Bool) :
    readField (inboundBuffer (putField tag ++ rest)) 39 7 = tag.toNat := by
  have hread := readField_inboundBuffer [] (putField tag) rest
  rwa [ofBits_putField, putField_length] at hread

/-- A buffer holds its message inside the read bound, of whichever factor (R160). -/
theorem inboundBuffer_bound {factor : Nat} (hf : 7 ≤ factor) (bits : List Bool) :
    39 + bits.length ≤ factor * (inboundBuffer bits).length := by
  refine le_trans ?_ (Nat.mul_le_mul_right _ hf)
  rw [inboundBuffer_length, bytesFor]
  omega

/-- A packet-ack is the message of its counter, of 17 bits (R205). -/
theorem messageAt_msgAck {pm : Params} (hf : 7 ≤ pm.readBoundFactor) (c : BitVec 10) :
    MessageAt pm (inboundBuffer (encode (.msgAck c))) 39 0x02
      (.fields (.num .tag 0x02 (.num .counter (c.setWidth 32) .nil))) 17 := by
  have hbound : 39 + 17 ≤ pm.readBoundFactor * (inboundBuffer (encode (.msgAck c))).length :=
    (inboundBuffer_bound hf (encode (.msgAck c))).trans' (by simp [encode])
  have htag : readField (inboundBuffer (encode (.msgAck c))) 39 7 = 2 :=
    readField_inboundBuffer_tag 0x02 (putField c)
  have hcounter : readField (inboundBuffer (encode (.msgAck c))) (39 + 7) 10 = c.toNat := by
    have hread := readField_inboundBuffer (bitsOf 7 0x02) (putField c) []
    rwa [List.append_nil, bitsOf_length, putField_length, ofBits_putField] at hread
  refine ⟨by omega, tagAt_eq_iff.2 htag, by decide, ?_, by decide⟩
  rw [decodeMessage_ack hbound, htag, hcounter, BitVec.ofNat_toNat]
  rfl

end Sys2Proof.Machine

open Sys2Proof Sys2Proof.Machine

/-- Settles O29: the list from bit 39 exists, each of its messages is delivered, and a delivery writes
nothing but the session. -/
theorem dispatchCompletes : Obligations.DispatchCompletes := by
  intro s data hwf hs
  obtain ⟨t, ms, hms, ht, hexec⟩ := exec_rDispatch_completes hwf hs data
  refine ⟨_, ms, hexec, hms, ?_⟩
  conv_lhs => rw [deliverAll_session ht]
  rfl

/-- Settles O30: the loop delivers its list, and an ack delivered is `S_ACK` but for the response. -/
theorem dispatchDeliversInBufferOrder : Obligations.DispatchDeliversInBufferOrder := by
  intro s t data ms h hr
  obtain ⟨u, hu, rfl⟩ := exec_rDispatch_messages h hr
  obtain ⟨r, hturn⟩ := deliverInTurn_of_deliverAll (deliverAll_of_dispatchLoop hu) s.response
  exact ⟨_, hturn, rfl⟩

/-- Settles O31: every message of the list takes 7 bits of the bound. -/
theorem dispatchDeliversBoundedlyMany : Obligations.DispatchDeliversBoundedlyMany := by
  intro s t data ms h hr
  obtain ⟨u, hu, -⟩ := exec_rDispatch_messages h hr
  rcases dispatchLoop_length hu with rfl | hlen
  · exact Nat.zero_le _
  · change 39 + 7 * ms.length ≤ _ at hlen
    omega

/-- Settles O32: the loop's first turn stops. -/
theorem unrecognisedTagStopsTheLoop : Obligations.UnrecognisedTagStopsTheLoop :=
  fun _ _ _ => exec_rDispatch_stop

/-- Settles O33: the tag stands at bit 39 of the message's buffer, so the message heads R206's list, and it
is delivered as its event. -/
theorem messagesBecomeEvents : Obligations.MessagesBecomeEvents := by
  refine ⟨fun s i hl => exec_message hl s, fun s body i tag f n hwf hs hi hd => ?_⟩
  have hi : CarriesTag i tag body := hi
  have htag : readField (inboundBuffer (encode i)) 39 7 = tag.toNat := by
    rw [hi.encode_eq]
    exact readField_inboundBuffer_tag tag _
  have hfor := wellFormedFor_of_wellFormed hwf tag
  rw [exec_message hi.layer_eq]
  refine ⟨fun hn => ?_, ?_⟩
  · obtain ⟨-, hin⟩ := decodeMessage_consumes (data := inboundBuffer (encode i)) (p := 39) hfor
      (by rw [hd]; exact Nat.ne_of_gt hn)
    obtain ⟨t, ms, hms, ht, hexec⟩ := exec_rDispatch_completes hwf hs (inboundBuffer (encode i))
    obtain ⟨more, rfl⟩ := MessageAt.listedFrom ⟨hin, tagAt_eq_iff.2 htag, hi.known, hd, hn⟩ hms
    obtain ⟨u, hu, hmore⟩ := deliverAll_cons_ok.1 ht
    obtain ⟨hack, -⟩ | ⟨-, he⟩ := deliver_cases tag f s
    · exact absurd hack hi.ne_ack
    · cases he.symm.trans hu
      obtain ⟨new, hnew⟩ := deliverAll_events_prefix hmore
      refine ⟨_, more, new, hexec, rfl, ?_, ?_⟩
      · rw [State.respondOk_events, ← hnew, State.emit_events, List.append_assoc]
        rfl
      · rintro rfl
        cases hmore
        rfl
  · rintro rfl
    exact exec_rDispatch_stop (.inr (.inr ⟨htag, hfor, congrArg Prod.snd hd⟩))

/-- Settles O34: the buffer holds the ack and, behind it, zeros, which are no tag; and an ack completes
under R343's laws. -/
theorem ackMessageIsAnAcknowledgement : Obligations.AckMessageIsAnAcknowledgement := by
  intro s c hf hs
  obtain ⟨u, hu, -⟩ := acknowledge_completes hs c
  refine ⟨_, exec_sAck_ok hu, ?_⟩
  have hm := messageAt_msgAck hf c
  have hdeliver : deliver 0x02 (.fields (.num .tag 0x02 (.num .counter (c.setWidth 32) .nil))) s =
      .ok u := by
    have hcounter : (c.setWidth 32).setWidth 10 = c := by simp
    rw [← hu]
    exact congrArg (acknowledge · s) hcounter
  have hpast : readField (inboundBuffer (encode (.msgAck c))) (39 + 17) 7 = 0 :=
    readField_inboundBuffer_past (by simp [encode]) 7
  have hstop := dispatchLoop_stop (s := u) (tag := 0) (.inr (.inl (by rw [hpast]; decide)))
  rw [exec_message rfl]
  refine exec_rDispatch_ok (t := u) ?_
  rw [show dispatchLoop _ _ Config.inboundStartBit s = _ from dispatchLoop_message hm rfl _, hdeliver]
  change (dispatchLoop _ _ (39 + 17) u >>= _) = _
  rw [hstop]
  rfl

/-- Settles O28: the decode, and the loop's first turn, look at the tag's entries before they decode. -/
theorem illFormedSchemasAreRefused : Obligations.IllFormedSchemasAreRefused := by
  intro s data p tag body i hwf
  refine ⟨exec_rDecode_refused hwf, fun hin htag => exec_rDispatch_refused hin htag hwf,
    fun hf hi => ?_⟩
  have hi : CarriesTag i tag body := hi
  have hbound := inboundBuffer_bound hf (encode i)
  rw [hi.encode_eq, List.length_append, putField_length] at hbound
  rw [exec_message hi.layer_eq, hi.encode_eq]
  exact exec_rDispatch_refused (by omega) (readField_inboundBuffer_tag tag _) hwf

end

section
/-! The device side (42_delta_encoder.md, R280, R281): what each command of a change-list packet does to the
display. -/

namespace Sys2Proof.Machine

/-! ### A run of bytes written (R281) -/

/-- Every byte after a run of writes: the run's own, and no other changed. -/
theorem Memory.read_writeRun {m : Memory} (h : Memory.wf m = true) (a : Nat) (vs : List Byte) (b : Nat) :
    (Memory.writeRun m a vs).read b =
      if a ≤ b ∧ b < a + vs.length then vs.getD (b - a) 0 else m.read b := by
  induction vs generalizing m a with
  | nil => rw [Memory.writeRun, if_neg (by simp)]
  | cons v vs ih =>
    rw [Memory.writeRun, ih (Memory.write_wf h a v), Memory.read_write h, List.length_cons]
    by_cases hlater : a + 1 ≤ b ∧ b < a + 1 + vs.length
    · rw [if_pos hlater, if_pos (by omega), show b - a = (b - (a + 1)) + 1 by omega,
        List.getD_cons_succ]
    · rw [if_neg hlater]
      by_cases hb : b = a
      · simp [hb]
      · rw [if_neg hb, if_neg (by omega)]

/-- Byte `k` of a run stands at its offset plus `k`. -/
theorem Memory.read_writeRun_inside {m : Memory} (h : Memory.wf m = true) {a k : Nat} {vs : List Byte}
    (hk : k < vs.length) : (Memory.writeRun m a vs).read (a + k) = vs.getD k 0 := by
  rw [Memory.read_writeRun h, if_pos (by omega), Nat.add_sub_cancel_left]

/-- Outside a run every byte stays. -/
theorem Memory.read_writeRun_outside {m : Memory} (h : Memory.wf m = true) {a b : Nat} {vs : List Byte}
    (hb : b < a ∨ a + vs.length ≤ b) : (Memory.writeRun m a vs).read b = m.read b := by
  rw [Memory.read_writeRun h, if_neg (by omega)]

/-- Copies of a value written over a run of offsets. -/
theorem Memory.writeRun_replicate {m : Memory} (h : Memory.wf m = true) (a n : Nat) (v : Byte) :
    (∀ k, k < n → (Memory.writeRun m a (List.replicate n v)).read (a + k) = v) ∧
      ∀ b, b < a ∨ a + n ≤ b → (Memory.writeRun m a (List.replicate n v)).read b = m.read b := by
  refine ⟨fun k hk => ?_, fun b hb => Memory.read_writeRun_outside h (by simpa using hb)⟩
  rw [Memory.read_writeRun_inside h (by simpa using hk), List.getD_replicate _ hk]

/-! ### The value commands (R281) -/

/-- `VALF` establishes its value and writes it `n` times. -/
theorem exec_valf (n : BitVec 4) (v : Byte) (s : State) :
    exec (.valf n v) s =
      .next { s with dev := { s.dev with last := some v }.write (List.replicate n.toNat v) } := rfl

/-- `VALM` does the same with a wider count. -/
theorem exec_valm (n : BitVec 8) (v : Byte) (s : State) :
    exec (.valm n v) s =
      .next { s with dev := { s.dev with last := some v }.write (List.replicate n.toNat v) } := rfl

/-- `VALL` with an established value writes it `n` times, and keeps it established; a count of 0 writes
nothing (R106). -/
theorem exec_vall_some {n : BitVec 4} {v : Byte} {s : State} (hlast : s.dev.last = some v) :
    exec (.vall n) s =
      .next { s with dev := { s.dev with last := some v }.write (List.replicate n.toNat v) } := by
  change execVall n s = _
  rw [show ({ s.dev with last := some v } : Device) = s.dev by rw [← hlast]]
  unfold execVall
  split
  case isTrue hzero => subst hzero; rfl
  case isFalse => rw [hlast]

end Sys2Proof.Machine

open Sys2Proof Sys2Proof.Machine

/-- Settles O42: each of the five arms of `exec` is that one update of the device. -/
theorem headerSkipsAndTerminatorsWriteNothing : Obligations.HeaderSkipsAndTerminatorsWriteNothing :=
  fun _ _ _ _ => ⟨rfl, rfl, rfl, rfl, rfl⟩

/-- Settles O43: a literal is one run of writes at the cursor. -/
theorem literalWritesItsBytes : Obligations.LiteralWritesItsBytes := fun s vs hwf =>
  ⟨s.dev.display.writeRun s.dev.cur vs, rfl, fun _ hk => Memory.read_writeRun_inside hwf hk,
    fun _ ha => Memory.read_writeRun_outside hwf ha⟩

/-- Settles O44: each value command is one run of copies at the cursor, with its value established. -/
theorem valueCommandsWriteCopies : Obligations.ValueCommandsWriteCopies := by
  intro s n4 n8 v i n hwf hi
  have hexec : exec i s =
      .next { s with dev := { s.dev with last := some v }.write (List.replicate n v) } := by
    rcases hi with ⟨rfl, rfl⟩ | ⟨rfl, rfl⟩ | ⟨rfl, rfl, hlast⟩
    · exact exec_valf n4 v s
    · exact exec_valm n8 v s
    · exact exec_vall_some hlast
  refine ⟨s.dev.display.writeRun s.dev.cur (List.replicate n v), ?_,
    Memory.writeRun_replicate hwf s.dev.cur n v⟩
  rw [hexec, Device.write, List.length_replicate]

end

section
/-! U2, the delta encoder (42_delta_encoder.md): every packet is its header, canonical commands, its
terminator and padding (R252, R253), fits its budget (R254), and the packets rebuild the new frame on the
device (R282). One invariant says all of this of an encoder at work; every operation keeps it. -/

namespace Sys2Proof.Machine

/-! ### How U2's work ends -/

/-- Work that ends in a value of which `Q` holds, or raises one of `faults`. -/
def EndsIn {α : Type} (faults : List ErrCode) (x : Except Stop α) (Q : α → Prop) : Prop :=
  (∃ a, x = .ok a ∧ Q a) ∨ ∃ c ∈ faults, x = .error (.raise c)

section
variable {α β : Type} {faults : List ErrCode} {x : Except Stop α} {Q R : α → Prop}

theorem EndsIn.ok {a : α} (h : Q a) : EndsIn faults (.ok a) Q := .inl ⟨a, rfl, h⟩

theorem EndsIn.raise {c : ErrCode} (h : c ∈ faults) : EndsIn faults (.error (.raise c)) Q :=
  .inr ⟨c, h, rfl⟩

theorem EndsIn.of_ok (h : EndsIn faults x Q) {a : α} (hx : x = .ok a) : Q a := by
  obtain ⟨b, hb, hQ⟩ | ⟨c, -, hc⟩ := h
  · cases hx.symm.trans hb
    exact hQ
  · cases hx.symm.trans hc

theorem EndsIn.mono (h : EndsIn faults x Q) (hQR : ∀ a, Q a → R a) : EndsIn faults x R :=
  h.imp_left fun ⟨a, ha, hQ⟩ => ⟨a, ha, hQR a hQ⟩

/-- Work in two parts. -/
theorem EndsIn.bind {f : α → Except Stop β} {S : β → Prop} (h : EndsIn faults x Q)
    (hf : ∀ a, Q a → EndsIn faults (f a) S) : EndsIn faults (x >>= f) S := by
  obtain ⟨a, rfl, hQ⟩ | ⟨c, hc, rfl⟩ := h
  · exact hf a hQ
  · exact .raise hc

/-- Work that starts in one of two ways and goes on in one. -/
theorem EndsIn.ite_bind {c : Prop} [Decidable c] {y : Except Stop α} {f : α → Except Stop β}
    {S : β → Prop} (h : EndsIn faults (if c then x else y) Q) (hf : ∀ a, Q a → EndsIn faults (f a) S) :
    EndsIn faults (if c then x >>= f else y >>= f) S := by
  split
  case isTrue hc => exact (if_pos hc ▸ h).bind hf
  case isFalse hc => exact (if_neg hc ▸ h).bind hf

end

/-- U2's work, once its operands have passed: it has two faults to raise (R256, R257). -/
abbrev Encodes {α : Type} (x : Except Stop α) (Q : α → Prop) : Prop := EndsIn [.budget, .writerFull] x Q

/-! ### The budget (R243) -/

theorem Encoder.fits_iff {j : EncodeJob} {e : Encoder} {n : Nat} :
    e.fits j n = true ↔ ∀ b, j.budget = some b → e.wk.bitCount + n ≤ b := by
  unfold Encoder.fits
  split <;> rename_i hb <;> simp [hb]

theorem Encoder.fits_mono {j : EncodeJob} {e f : Encoder} {n m : Nat} (h : e.fits j n = true)
    (hle : f.wk.bitCount + m ≤ e.wk.bitCount + n) : f.fits j m = true :=
  Encoder.fits_iff.2 fun b hb => hle.trans (Encoder.fits_iff.1 h b hb)

/-- A command that does not fit is one of a bounded packet. -/
theorem Encoder.budget_ne_none {j : EncodeJob} {e : Encoder} {n : Nat} (h : ¬ e.fits j n = true) :
    j.budget ≠ none := fun hnone => h (Encoder.fits_iff.2 fun b hb => by rw [hnone] at hb; cases hb)

/-- The bytes of a writer occupy its bits (R101). -/
theorem writerOf_bytes_length (bits : List Bool) : (writerOf bits).bytes.length = bytesFor bits.length := by
  have hwf : (writerOf bits).wf (bytesFor bits.length) = true :=
    Writer.append_wf (Writer.empty_wf _) (by simp [Writer.overflows, Writer.empty_bitCount])
  obtain ⟨-, hlen, -, -, -⟩ := Writer.wf_iff.1 hwf
  rw [Writer.bytes_eq hwf, hlen, writerOf_bitCount]

/-! ### The form of a packet (R252, R253) -/

/-- The commands U2 writes between a header and a terminator (R104, R260): those of
`Obligations.PacketsAreNumberedAndTerminated`. -/
def Canonical (valueRuns : Bool) (c : Instr) : Prop :=
  (∃ n : BitVec 4, c = .skipf n ∧ 1 ≤ n.toNat) ∨
  (∃ n : BitVec 8, c = .skipm n ∧ 16 ≤ n.toNat) ∨
  (∃ vs : List Byte, c = .lit vs ∧ vs ≠ []) ∨
  (valueRuns = true ∧
    ((∃ (n : BitVec 4) (v : Byte), c = .valf n v ∧ 1 ≤ n.toNat) ∨
      (∃ n : BitVec 4, c = .vall n ∧ 1 ≤ n.toNat) ∨
      (∃ (n : BitVec 8) (v : Byte), c = .valm n v ∧ 16 ≤ n.toNat)))

theorem Canonical.decodes {valueRuns : Bool} {c : Instr} (h : Canonical valueRuns c) :
    c.wellFormed = true ∧ c.layer = .command := by
  obtain ⟨n, rfl, -⟩ | ⟨n, rfl, -⟩ | ⟨vs, rfl, hvs⟩ |
    ⟨-, ⟨n, v, rfl, -⟩ | ⟨n, rfl, -⟩ | ⟨n, v, rfl, -⟩⟩ := h
  case inr.inr.inl => exact ⟨by simpa [Instr.wellFormed] using hvs, rfl⟩
  all_goals exact ⟨rfl, rfl⟩

theorem canonical_skipCommand {valueRuns : Bool} {n : Nat} (h1 : 1 ≤ n) (h255 : n ≤ 255) :
    Canonical valueRuns (skipCommand n) := by
  obtain ⟨m, hm, hpos⟩ | ⟨m, hm, hpos⟩ := countedSkip_canonical h1 h255
  · exact .inl ⟨m, congrArg Prod.fst hm, hpos⟩
  · exact .inr (.inl ⟨m, congrArg Prod.fst hm, hpos⟩)

theorem canonical_valueCommand {last : Option Byte} {n : Nat} {v : Byte} (h1 : 1 ≤ n) (h255 : n ≤ 255) :
    Canonical true (valueCommand last n v) := by
  refine .inr (.inr (.inr ⟨rfl, ?_⟩))
  unfold valueCommand
  split
  · exact .inr (.inr ⟨_, _, rfl, by simp; omega⟩)
  · split
    · exact .inr (.inl ⟨_, rfl, by simp; omega⟩)
    · exact .inl ⟨_, _, rfl, by simp; omega⟩

/-- Packet `n` of an encoding before its terminator: its header and its commands (R242, R252). -/
def openPacket (startIndex : BitVec 16) (n : Nat) (cmds : List Instr) : List Instr :=
  .deltaHdr (BitVec.ofNat 16 (startIndex.toNat + n)) :: cmds

/-- Its bytes, once its terminator is written (R251, R253). -/
def closedPacket (startIndex : BitVec 16) (n : Nat) (cmds : List Instr) (last : Instr) : List Byte :=
  (writerOf ((openPacket startIndex n cmds).flatMap encode ++ encode last)).bytes

/-- The packets of an encoding: those that end with `EOP`, and the last, which ends with `EOC` (R253). -/
def encodedPackets (startIndex : BitVec 16) (done : List (List Instr)) (cur : List Instr) :
    List (List Byte) :=
  done.mapIdx (fun n cmds => closedPacket startIndex n cmds .eop) ++
    [closedPacket startIndex done.length cur .eoc]

/-! ### What a device makes of instructions (R280) -/

/-- `i` is what the device reads next, and it takes the device from `d` to `d'` and nothing else. -/
def Does (i : Instr) (d d' : Device) : Prop :=
  i.wellFormed = true ∧ i.layer = packetLayer d ∧
    ∀ s : State, s.dev = d → exec i s = .next { s with dev := d' }

/-- The device reads instructions of one packet, staying inside it, and its display satisfies `P` after
each of them. -/
def Reads (P : Memory → Prop) : List Instr → Device → Device → Prop
  | [], d, d' => d' = d
  | i :: is, d, d'' => ∃ d', Does i d d' ∧ d'.inPacket = true ∧ P d'.display ∧ Reads P is d' d''

/-- The device reads packets to their terminators. -/
def ReadsAll (P : Memory → Prop) : List (List Instr) → Device → Device → Prop
  | [], d, d' => d' = d
  | p :: ps, d, d'' => ∃ d', Reads P p d d' ∧ d'.inPacket = true ∧ ReadsAll P ps d'.endPacket d''

theorem reads_append {P : Memory → Prop} {is is' : List Instr} {d d' d'' : Device}
    (h : Reads P is d d') (h' : Reads P is' d' d'') : Reads P (is ++ is') d d'' := by
  induction is generalizing d with
  | nil => cases h; exact h'
  | cons i is ih =>
    obtain ⟨d1, hdoes, hin, hP, h⟩ := h
    exact ⟨d1, hdoes, hin, hP, ih h⟩

theorem readsAll_append {P : Memory → Prop} {ps ps' : List (List Instr)} {d d' d'' : Device}
    (h : ReadsAll P ps d d') (h' : ReadsAll P ps' d' d'') : ReadsAll P (ps ++ ps') d d'' := by
  induction ps generalizing d with
  | nil => cases h; exact h'
  | cons p ps ih =>
    obtain ⟨d1, hp, hin, h⟩ := h
    exact ⟨d1, hp, hin, ih h⟩

theorem does_deltaHdr {d : Device} (h : d.inPacket = false) (seq : BitVec 16) :
    Does (.deltaHdr seq) d d.startPacket :=
  ⟨rfl, by simp [packetLayer, h, Instr.layer], fun _ hs => hs ▸ rfl⟩

theorem does_terminator {last : Instr} (hlast : last = .eop ∨ last = .eoc) {d : Device}
    (h : d.inPacket = true) : Does last d d.endPacket := by
  rcases hlast with rfl | rfl
  all_goals exact ⟨rfl, by simp [packetLayer, h, Instr.layer], fun _ hs => hs ▸ rfl⟩

theorem Canonical.does {valueRuns : Bool} {c : Instr} (h : Canonical valueRuns c) {d d' : Device}
    (hin : d.inPacket = true) (hexec : ∀ s : State, s.dev = d → exec c s = .next { s with dev := d' }) :
    Does c d d' := by
  obtain ⟨hwf, hlayer⟩ := h.decodes
  exact ⟨hwf, by simp [packetLayer, hin, hlayer], hexec⟩

theorem exec_skipCommand {n : Nat} (h255 : n ≤ 255) (s : State) :
    exec (skipCommand n) s = .next { s with dev := s.dev.skip n } := by
  unfold skipCommand
  split
  · change Host.Outcome.next { s with dev := s.dev.skip (BitVec.ofNat 8 n).toNat } = _
    rw [BitVec.toNat_ofNat, Nat.mod_eq_of_lt (by omega)]
  · change Host.Outcome.next { s with dev := s.dev.skip (BitVec.ofNat 4 n).toNat } = _
    rw [BitVec.toNat_ofNat, Nat.mod_eq_of_lt (by omega)]

/-- A value command writes its copies and leaves its value established, whichever form U2 chose (R263). -/
theorem exec_valueCommand {n : Nat} (h255 : n ≤ 255) (v : Byte) (s : State) :
    exec (valueCommand s.dev.last n v) s =
      .next { s with dev := { s.dev with last := some v }.write (List.replicate n v) } := by
  unfold valueCommand
  split
  · rw [exec_valm, BitVec.toNat_ofNat, Nat.mod_eq_of_lt (by omega)]
  · split
    case isTrue hlast => rw [exec_vall_some hlast, BitVec.toNat_ofNat, Nat.mod_eq_of_lt (by omega)]
    case isFalse => rw [exec_valf, BitVec.toNat_ofNat, Nat.mod_eq_of_lt (by omega)]

/-! ### The display on the way (R282) -/

/-- Over the frame at `base` the display shows the new bytes before scan position `k` and the old ones
from there on; elsewhere it is as it was before. -/
structure Shows (base : Nat) (pairs : List (Byte × Byte)) (k : Nat) (before m : Memory) : Prop where
  inside : ∀ p x, pairs[p]? = some x → m.read (base + p) = if p < k then x.1 else x.2
  outside : ∀ a, a < base ∨ base + pairs.length ≤ a → m.read a = before.read a

/-- A device inside a packet at offset `dev`, with `last` established, whose display shows `k`. -/
structure DeviceAt (base : Nat) (pairs : List (Byte × Byte)) (dev : Nat) (last : Option Byte) (k : Nat)
    (before : Memory) (d : Device) : Prop where
  cur : d.cur = dev
  last : d.last = last
  inPacket : d.inPacket = true
  wf : d.display.wf = true
  shows : Shows base pairs k before d.display

/-- A device between packets whose display shows the old frame. -/
structure HoldsOld (base : Nat) (pairs : List (Byte × Byte)) (d : Device) : Prop where
  inPacket : d.inPacket = false
  wf : d.display.wf = true
  shows : Shows base pairs 0 d.display d.display

section
variable {base : Nat} {pairs : List (Byte × Byte)} {k : Nat} {before m : Memory}

/-- Past equal bytes the display shows the new frame already. -/
theorem Shows.pass (h : Shows base pairs k before m) {k' : Nat} (hle : k ≤ k')
    (heq : ∀ p x, k ≤ p → p < k' → pairs[p]? = some x → x.1 = x.2) :
    Shows base pairs k' before m := by
  refine ⟨fun p x hx => ?_, h.outside⟩
  rw [h.inside p x hx]
  split
  · rw [if_pos (by omega)]
  · split
    · exact (heq p x (by omega) (by omega) hx).symm
    · rfl

/-- New bytes written where the display still shows old ones. -/
theorem Shows.write (h : Shows base pairs k before m) (hwf : m.wf = true) {vs : List Byte}
    (hvs : vs <+: (pairs.map Prod.fst).drop k) :
    Shows base pairs (k + vs.length) before (m.writeRun (base + k) vs) := by
  obtain ⟨rest, hrest⟩ := hvs
  have hnew : ∀ t, t < vs.length → (pairs.map Prod.fst)[k + t]? = some (vs.getD t 0) := by
    intro t ht
    rw [← List.getElem?_drop, ← hrest, List.getElem?_append_left ht, List.getD_eq_getElem _ _ ht,
      List.getElem?_eq_getElem ht]
  refine ⟨fun p x hx => ?_, fun a ha => ?_⟩
  · rcases Nat.lt_or_ge p k with hpk | hpk
    · rw [Memory.read_writeRun_outside hwf (by omega), h.inside p x hx, if_pos hpk, if_pos (by omega)]
    · rcases Nat.lt_or_ge p (k + vs.length) with hpe | hpe
      · have hread := Memory.read_writeRun_inside hwf (a := base + k) (k := p - k) (vs := vs) (by omega)
        rw [show base + k + (p - k) = base + p by omega] at hread
        have hval := hnew (p - k) (by omega)
        rw [show k + (p - k) = p by omega, List.getElem?_map, hx] at hval
        rw [hread, if_pos hpe]
        exact (Option.some.inj hval).symm
      · rw [Memory.read_writeRun_outside hwf (by omega), h.inside p x hx, if_neg (by omega),
          if_neg (by omega)]
  · have hlen : vs.length ≤ pairs.length - k := by
      have := congrArg List.length hrest
      simp only [List.length_append, List.length_drop, List.length_map] at this
      omega
    rw [Memory.read_writeRun_outside hwf (by omega), h.outside a ha]

/-- At the end of the scan the new frame stands there. -/
theorem Shows.new (h : Shows base pairs pairs.length before m) {p : Nat} {x : Byte × Byte}
    (hx : pairs[p]? = some x) : m.read (base + p) = x.1 := by
  obtain ⟨hlt, -⟩ := List.getElem?_eq_some_iff.1 hx
  rw [h.inside p x hx, if_pos hlt]

theorem Shows.old_or_new (h : Shows base pairs k before m) {p : Nat} {x : Byte × Byte}
    (hx : pairs[p]? = some x) : m.read (base + p) = x.2 ∨ m.read (base + p) = x.1 := by
  rw [h.inside p x hx]
  split
  · exact .inr rfl
  · exact .inl rfl

variable {dev : Nat} {last : Option Byte} {d : Device}

theorem DeviceAt.skip (h : DeviceAt base pairs dev last k before d) (n : Nat) :
    DeviceAt base pairs (dev + n) last k before (d.skip n) :=
  { h with cur := by rw [Device.skip_cur, h.cur] }

theorem DeviceAt.establish (h : DeviceAt base pairs dev last k before d) (v : Byte) :
    DeviceAt base pairs dev (some v) k before { d with last := some v } :=
  { h with last := rfl }

/-- A run of new bytes written at the scan position. -/
theorem DeviceAt.write (h : DeviceAt base pairs dev last k before d) (hdev : dev = base + k)
    {vs : List Byte} (hvs : vs <+: (pairs.map Prod.fst).drop k) :
    DeviceAt base pairs (dev + vs.length) last (k + vs.length) before (d.write vs) := by
  refine ⟨by rw [Device.write_cur, h.cur], h.last, h.inPacket, Memory.writeRun_wf h.wf _ _, ?_⟩
  rw [Device.write_display, h.cur, hdev]
  exact h.shows.write h.wf hvs

/-- A header read between packets (R280). -/
theorem DeviceAt.endPacket_startPacket (h : DeviceAt base pairs dev last k before d) :
    DeviceAt base pairs 0 none k before d.endPacket.startPacket :=
  ⟨rfl, rfl, rfl, h.wf, h.shows⟩

theorem HoldsOld.startPacket (h : HoldsOld base pairs d) :
    DeviceAt base pairs 0 none 0 d.display d.startPacket :=
  ⟨rfl, rfl, rfl, h.wf, h.shows⟩

end

/-! ### The invariant of an encoder at work -/

/-- A display that an encoding of `pairs` at `base` can leave on its way from `before`. -/
def OnTheWay (base : Nat) (pairs : List (Byte × Byte)) (before m : Memory) : Prop :=
  ∃ k, Shows base pairs k before m

/-- The encoder has finished the packets with the commands `done`, has written the commands `cur` into
the next one, and has reached scan position `k`. -/
structure Wrote (j : EncodeJob) (pairs : List (Byte × Byte)) (startIndex : BitVec 16) (e : Encoder)
    (k : Nat) (done : List (List Instr)) (cur : List Instr) : Prop where
  /-- R252, R253: the packets that are out. -/
  out : e.out = done.mapIdx fun n cmds => closedPacket startIndex n cmds .eop
  seq : e.seq = BitVec.ofNat 16 (startIndex.toNat + done.length)
  wk : e.wk = writerOf ((openPacket startIndex done.length cur).flatMap encode)
  /-- R247: a terminator still fits. -/
  room : e.fits j 3 = true
  /-- R254 (a). -/
  small : ∀ p ∈ e.out, ∀ b, j.budget = some b → p.length ≤ bytesFor b
  /-- R254 (b). -/
  single : j.budget = none → done = []
  canonical : ∀ cmds ∈ cur :: done, ∀ c ∈ cmds, Canonical j.valueRuns c
  /-- R282, so far. -/
  device : ∀ d : Device, HoldsOld j.base pairs d →
    ∃ d1 d2, ReadsAll (OnTheWay j.base pairs d.display) (done.mapIdx (openPacket startIndex)) d d1 ∧
      Reads (OnTheWay j.base pairs d.display) (openPacket startIndex done.length cur) d1 d2 ∧
      DeviceAt j.base pairs e.dev e.lastValue k d.display d2

/-- The encoder has reached scan position `k` with some packets. -/
def Encoder.Inv (j : EncodeJob) (pairs : List (Byte × Byte)) (startIndex : BitVec 16) (e : Encoder)
    (k : Nat) : Prop :=
  ∃ done cur, Wrote j pairs startIndex e k done cur

section
variable {j : EncodeJob} {pairs : List (Byte × Byte)} {startIndex : BitVec 16} {e : Encoder} {k : Nat}

/-- A packet closed with a terminator is within the budget (R247). -/
theorem Encoder.closed_length {bits : List Bool} {last : Instr} (hwk : e.wk = writerOf bits)
    (hroom : e.fits j 3 = true) (hcost : cost last = 3) {b : Nat} (hb : j.budget = some b) :
    (writerOf (bits ++ encode last)).bytes.length ≤ bytesFor b := by
  have hbits := Encoder.fits_iff.1 hroom b hb
  rw [hwk, writerOf_bitCount] at hbits
  rw [writerOf_bytes_length, List.length_append, show (encode last).length = 3 from hcost]
  unfold bytesFor
  omega

/-- The scan passes equal bytes without a command. -/
theorem Encoder.Inv.pass (h : e.Inv j pairs startIndex k) {k' : Nat} (hle : k ≤ k')
    (heq : ∀ p x, k ≤ p → p < k' → pairs[p]? = some x → x.1 = x.2) : e.Inv j pairs startIndex k' := by
  obtain ⟨done, cur, h⟩ := h
  refine ⟨done, cur, { h with device := fun d hd => ?_ }⟩
  obtain ⟨d1, d2, hdone, hcur, hat⟩ := h.device d hd
  exact ⟨d1, d2, hdone, hcur, { hat with shows := hat.shows.pass hle heq }⟩

/-- One command written, with a terminator still fitting after it: the encoder's position is the
device's. -/
theorem Encoder.Inv.command (h : e.Inv j pairs startIndex k) {i : Instr} {dev k' : Nat}
    {last : Option Byte} (hi : Canonical j.valueRuns i) (hfits : e.fits j (cost i + 3) = true)
    (hdev : ∀ before d, DeviceAt j.base pairs e.dev e.lastValue k before d →
      ∃ d', (∀ s : State, s.dev = d → exec i s = .next { s with dev := d' }) ∧
        DeviceAt j.base pairs dev last k' before d') :
    Encoder.Inv j pairs startIndex
      { e with wk := e.wk.append (encode i), dev := dev, lastValue := last } k' := by
  obtain ⟨done, cur, h⟩ := h
  have hopen : openPacket startIndex done.length (cur ++ [i]) =
      openPacket startIndex done.length cur ++ [i] := rfl
  refine ⟨done, cur ++ [i], { h with wk := ?_, room := ?_, canonical := ?_, device := fun d hd => ?_ }⟩
  · simp [hopen, h.wk, writerOf_append]
  · exact Encoder.fits_mono hfits (by simp [cost]; omega)
  · obtain ⟨hcur, hdone⟩ := List.forall_mem_cons.1 h.canonical
    exact List.forall_mem_cons.2 ⟨List.forall_mem_append.2 ⟨hcur, by simpa using hi⟩, hdone⟩
  · obtain ⟨d1, d2, hdone, hcur, hat⟩ := h.device d hd
    obtain ⟨d3, hexec, hat'⟩ := hdev _ _ hat
    refine ⟨d1, d3, hdone, ?_, hat'⟩
    rw [hopen]
    exact reads_append hcur
      ⟨d3, hi.does hat.inPacket hexec, hat'.inPacket, ⟨_, hat'.shows⟩, rfl⟩

theorem Encoder.Inv.skip (h : e.Inv j pairs startIndex k) {n : Nat} (h1 : 1 ≤ n) (h255 : n ≤ 255)
    (hfits : e.fits j (cost (skipCommand n) + 3) = true) :
    Encoder.Inv j pairs startIndex
      { e with wk := e.wk.append (encode (skipCommand n)), dev := e.dev + n } k :=
  h.command (canonical_skipCommand h1 h255) hfits fun _ d hat =>
    ⟨d.skip n, fun s hs => hs ▸ exec_skipCommand h255 s, hat.skip n⟩

theorem Encoder.Inv.literal (h : e.Inv j pairs startIndex k) (hdev : e.dev = j.base + k)
    {vs : List Byte} (hne : vs ≠ []) (hvs : vs <+: (pairs.map Prod.fst).drop k)
    (hfits : e.fits j (cost (.lit vs) + 3) = true) :
    Encoder.Inv j pairs startIndex
      { e with wk := e.wk.append (encode (.lit vs)), dev := e.dev + vs.length } (k + vs.length) :=
  h.command (.inr (.inr (.inl ⟨vs, rfl, hne⟩))) hfits fun _ d hat =>
    ⟨d.write vs, fun _ hs => hs ▸ rfl, hat.write hdev hvs⟩

theorem Encoder.Inv.value (h : e.Inv j pairs startIndex k) (hdev : e.dev = j.base + k)
    (hruns : j.valueRuns = true) {n : Nat} {v : Byte} (h1 : 1 ≤ n) (h255 : n ≤ 255)
    (hvs : List.replicate n v <+: (pairs.map Prod.fst).drop k)
    (hfits : e.fits j (cost (valueCommand e.lastValue n v) + 3) = true) :
    Encoder.Inv j pairs startIndex
      { e with wk := e.wk.append (encode (valueCommand e.lastValue n v)), dev := e.dev + n,
               lastValue := some v } (k + n) := by
  refine h.command (hruns ▸ canonical_valueCommand h1 h255) hfits fun _ d hat =>
    ⟨Device.write { d with last := some v } (List.replicate n v), fun s hs => ?_, ?_⟩
  · rw [← hat.last, ← hs]
    exact exec_valueCommand h255 v s
  · have hwrite := (hat.establish v).write hdev hvs
    rwa [List.length_replicate] at hwrite

/-- A fresh encoder at its first packet (R242). -/
theorem Encoder.inv_start
    (hroom : Encoder.fits j ⟨writerOf (encode (.deltaHdr startIndex)), startIndex, 0, none, []⟩ 3 = true) :
    Encoder.Inv j pairs startIndex
      ⟨writerOf (encode (.deltaHdr startIndex)), startIndex, 0, none, []⟩ 0 := by
  have hseq : startIndex = BitVec.ofNat 16 (startIndex.toNat + 0) := by simp
  refine ⟨[], [], rfl, hseq, ?_, hroom, by simp, fun _ => rfl, by simp, fun d hd => ?_⟩
  · rw [List.length_nil, openPacket, ← hseq]; simp
  · exact ⟨d, d.startPacket, rfl,
      ⟨_, does_deltaHdr hd.inPacket _, rfl, ⟨0, hd.shows⟩, rfl⟩, hd.startPacket⟩

/-- A packet ended with `EOP` and the next one begun (R251). -/
theorem Encoder.Inv.nextPacket (h : e.Inv j pairs startIndex k) (hbudget : j.budget ≠ none)
    {f : Encoder}
    (hf : f = ⟨writerOf (encode (.deltaHdr (e.seq + 1))), e.seq + 1, 0, none,
      e.out ++ [(e.wk.append (encode .eop)).bytes]⟩)
    (hroom : f.fits j 3 = true) : f.Inv j pairs startIndex k := by
  obtain ⟨done, cur, h⟩ := h
  subst hf
  have hseq : e.seq + 1 = BitVec.ofNat 16 (startIndex.toNat + (done ++ [cur]).length) := by
    rw [h.seq, List.length_append, ← Nat.add_assoc, BitVec.ofNat_add (startIndex.toNat + done.length)]
    rfl
  have hclosed : (e.wk.append (encode .eop)).bytes = closedPacket startIndex done.length cur .eop := by
    rw [h.wk, writerOf_append]; rfl
  refine ⟨done ++ [cur], [], ?_, hseq, ?_, hroom, ?_, fun hb => absurd hb hbudget, ?_, fun d hd => ?_⟩
  · rw [h.out, hclosed, List.mapIdx_concat]
  · rw [hseq]; simp [openPacket]
  · refine List.forall_mem_append.2 ⟨h.small, ?_⟩
    rintro p hp b hb
    rw [List.mem_singleton.1 hp, hclosed]
    exact Encoder.closed_length h.wk h.room rfl hb
  · obtain ⟨hcur, hdone⟩ := List.forall_mem_cons.1 h.canonical
    exact List.forall_mem_cons.2 ⟨by simp, List.forall_mem_append.2 ⟨hdone, by simpa using hcur⟩⟩
  · obtain ⟨d1, d2, hdone, hcur, hat⟩ := h.device d hd
    refine ⟨d2.endPacket, d2.endPacket.startPacket, ?_, ?_, hat.endPacket_startPacket⟩
    · rw [List.mapIdx_concat]
      exact readsAll_append hdone ⟨d2, hcur, hat.inPacket, rfl⟩
    · exact ⟨_, does_deltaHdr rfl _, rfl, ⟨k, hat.shows⟩, rfl⟩

end

/-! ### Every operation of U2 keeps the invariant (R246 to R263) -/

section
variable {j : EncodeJob} {pairs : List (Byte × Byte)} {startIndex : BitVec 16} {e : Encoder} {k : Nat}

theorem Encoder.put_encodes (j : EncodeJob) (e : Encoder) (i : Instr) :
    Encodes (e.put j i) fun f => f = { e with wk := e.wk.append (encode i) } := by
  unfold Encoder.put
  split
  · exact .raise (by simp)
  · exact .ok rfl

theorem Encoder.putAll_encodes (hnil : e.wk.append [] = e.wk) (is : List Instr) :
    Encodes (e.putAll j is) fun f => f = { e with wk := e.wk.append (is.flatMap encode) } := by
  induction is generalizing e with
  | nil => exact .ok (by rw [List.flatMap_nil, hnil])
  | cons i is ih =>
    refine (Encoder.put_encodes j e i).bind fun f hf => ?_
    subst hf
    refine (ih (by rw [Writer.append_append, List.append_nil])).mono fun g hg => ?_
    rw [hg, Writer.append_append, List.flatMap_cons]

/-- A working writer that U2 has filled holds nothing past its cursor. -/
theorem Encoder.Inv.append_nil (h : e.Inv j pairs startIndex k) : e.wk.append [] = e.wk := by
  obtain ⟨done, cur, h⟩ := h
  rw [h.wk, writerOf_append, List.append_nil]

theorem Encoder.startPacket_encodes (j : EncodeJob) (e : Encoder) :
    Encodes (e.startPacket j) fun f =>
      f = { e with wk := writerOf (encode (.deltaHdr e.seq)), dev := 0, lastValue := none } :=
  Encoder.put_encodes j _ _

/-- Skips written one after another that fit together. -/
theorem Encoder.Inv.skips (h : e.Inv j pairs startIndex k) {chs : List Nat}
    (hrange : ∀ n ∈ chs, 1 ≤ n ∧ n ≤ 255)
    (hfits : e.fits j (((chs.map skipCommand).map cost).sum + 3) = true) :
    Encoder.Inv j pairs startIndex
      { e with wk := e.wk.append ((chs.map skipCommand).flatMap encode), dev := e.dev + chs.sum } k := by
  induction chs generalizing e with
  | nil => simpa [h.append_nil] using h
  | cons n chs ih =>
    obtain ⟨⟨h1, h255⟩, hrest⟩ := List.forall_mem_cons.1 hrange
    rw [List.map_cons, List.map_cons, List.sum_cons] at hfits
    have hskip := h.skip h1 h255 (Encoder.fits_mono hfits (by omega))
    have hskips := ih hskip hrest (Encoder.fits_mono hfits (by simp [cost]; omega))
    simpa [Writer.append_append, Nat.add_assoc] using hskips

/-- The skips of a run of `c`, written where they fit. -/
theorem Encoder.Inv.skipCommands (h : e.Inv j pairs startIndex k) {c need : Nat}
    (hfits : e.fits j (skipCost c + need + 3) = true) :
    Encodes (e.putAll j (skipCommands c)) fun f =>
      Encoder.Inv j pairs startIndex { f with dev := e.dev + c } k ∧ f.lastValue = e.lastValue ∧
        f.fits j (need + 3) = true := by
  refine (Encoder.putAll_encodes h.append_nil _).mono fun f hf => ?_
  subst hf
  refine ⟨?_, rfl, Encoder.fits_mono hfits ?_⟩
  · have hskips := h.skips (fun _ => runChunks_range)
      (Encoder.fits_mono hfits (m := skipCost c + 3) (by omega))
    rwa [runChunks_sum (Nat.le_refl c)] at hskips
  · simp only [Writer.append_bitCount, List.length_flatMap]
    change _ + skipCost c + _ ≤ _
    omega

/-- A split: the next packet stands at `x`, with room for what is needed there (R251). -/
theorem Encoder.Inv.split (h : e.Inv j pairs startIndex k) (hbudget : j.budget ≠ none) (x need : Nat) :
    Encodes (e.split j x need) fun g =>
      g.Inv j pairs startIndex k ∧ g.dev = x ∧ g.lastValue = none ∧ g.fits j (need + 3) = true := by
  refine (Encoder.put_encodes j e .eop).bind fun c hc => ?_
  refine (Encoder.startPacket_encodes j _).bind fun f hf => ?_
  subst hc
  split
  case isFalse => exact .raise (by simp)
  case isTrue hfits =>
    have hnext := h.nextPacket hbudget hf (Encoder.fits_mono hfits (by omega))
    refine (hnext.skipCommands hfits).bind fun g hg => ?_
    obtain ⟨hinv, hlast, hroom⟩ := hg
    subst hf
    exact .ok ⟨by simpa using hinv, rfl, hlast, hroom⟩

theorem Encoder.Inv.skipTo (h : e.Inv j pairs startIndex k) {target : Nat} (hle : e.dev ≤ target) :
    Encodes (e.skipTo j target) fun f => f.Inv j pairs startIndex k ∧ f.dev = target := by
  unfold Encoder.skipTo
  dsimp only
  split
  case isTrue hzero => exact .ok ⟨h, by omega⟩
  case isFalse =>
    split
    case isTrue hfits =>
      refine (h.skipCommands (need := 0) hfits).bind fun f hf => .ok ⟨?_, rfl⟩
      obtain ⟨hinv, -, -⟩ := hf
      rwa [Nat.add_sub_cancel' hle] at hinv
    case isFalse hfits =>
      exact (h.split (Encoder.budget_ne_none hfits) target 0).mono fun g hg => ⟨hg.1, hg.2.1⟩

/-! #### Literals (R249) -/

/-- What stands at a scan position stands after its first `m` bytes at the next one. -/
theorem drop_add_of_isPrefix {seg l : List Byte} (h : seg <+: l.drop k) (m : Nat) :
    seg.drop m <+: l.drop (k + m) := by
  rw [← List.drop_drop]
  exact h.drop m

/-- A literal takes at least one byte and at most all of them, and leaves room for the terminator. -/
theorem Encoder.literalRoom_spec (h : e.fits j 15 = true) {n : Nat} (hn : 1 ≤ n) :
    1 ≤ e.literalRoom j n ∧ e.literalRoom j n ≤ n ∧
      e.fits j (3 + 9 * e.literalRoom j n + 3) = true := by
  unfold Encoder.literalRoom
  split
  case h_1 hb => exact ⟨hn, Nat.le_refl n, Encoder.fits_iff.2 fun b hb' => by rw [hb] at hb'; cases hb'⟩
  case h_2 b hb =>
    have hbits := Encoder.fits_iff.1 h b hb
    refine ⟨by omega, by omega, Encoder.fits_iff.2 fun b' hb' => ?_⟩
    cases hb.symm.trans hb'
    omega

/-- Bytes are left over only in a bounded packet. -/
theorem Encoder.budget_ne_none_of_literalRoom {n : Nat} (h : e.literalRoom j n < n) :
    j.budget ≠ none := by
  intro hnone
  unfold Encoder.literalRoom at h
  rw [hnone] at h
  exact Nat.lt_irrefl n h

theorem cost_lit (vs : List Byte) : cost (.lit vs) = 3 + 9 * vs.length := by
  simp [cost, encode]

/-- A packet with room for one byte, which a split may have to make first. -/
theorem Encoder.Inv.roomForLiteral (h : e.Inv j pairs startIndex k) {x : Nat} (hdev : e.dev = x) :
    Encodes (if e.fits j (3 + 9 + 3) = true then .ok e else e.split j x 12) fun f =>
      f.Inv j pairs startIndex k ∧ f.dev = x ∧ f.fits j 15 = true := by
  split
  case isTrue hfits => exact .ok ⟨h, hdev, hfits⟩
  case isFalse hfits =>
    exact (h.split (Encoder.budget_ne_none hfits) x 12).mono fun _ ⟨hg, hgdev, _, hroom⟩ =>
      ⟨hg, hgdev, hroom⟩

/-- New bytes at the scan position are all written, in literals (R249). -/
theorem Encoder.Inv.literals {fuel : Nat} {seg : List Byte} (h : e.Inv j pairs startIndex k)
    (hdev : e.dev = j.base + k) (hseg : seg <+: (pairs.map Prod.fst).drop k) (hfuel : seg.length ≤ fuel) :
    Encodes (Encoder.literal j fuel e k seg) fun f =>
      f.Inv j pairs startIndex (k + seg.length) ∧ f.dev = j.base + (k + seg.length) := by
  induction fuel generalizing e k seg with
  | zero =>
    obtain rfl := List.length_eq_zero_iff.1 (Nat.le_zero.1 hfuel)
    exact .ok ⟨h, hdev⟩
  | succ fuel ih =>
    rcases seg with _ | ⟨b, bs⟩
    · exact .ok ⟨h, hdev⟩
    · unfold Encoder.literal
      refine EndsIn.ite_bind (h.roomForLiteral hdev) fun f ⟨hf, hfdev, hroom⟩ => ?_
      obtain ⟨hm1, hmle, hfits⟩ := Encoder.literalRoom_spec (n := bs.length + 1) hroom (by omega)
      have hleft := @Encoder.budget_ne_none_of_literalRoom j f (bs.length + 1)
      dsimp only
      generalize f.literalRoom j (bs.length + 1) = m at *
      have hlen : ((b :: bs).take m).length = m := by simpa using hmle
      have hwrite := hf.literal hfdev (vs := (b :: bs).take m) (by simp; omega)
        ((List.take_prefix m _).trans hseg) (by rwa [cost_lit, hlen])
      rw [hlen, hfdev, Nat.add_assoc] at hwrite
      have hrest : ((b :: bs).drop m).length = bs.length + 1 - m := by simp
      refine (Encoder.put_encodes j f _).bind fun g hg => ?_
      subst hg
      refine EndsIn.ite_bind (Q := fun x => x.Inv j pairs startIndex (k + m) ∧ x.dev = j.base + (k + m))
        ?_ fun x ⟨hx, hxdev⟩ => ?_
      · split
        case isTrue => exact .ok ⟨hwrite, rfl⟩
        case isFalse hne =>
          have hmlt : m < bs.length + 1 := by
            have := List.length_pos_of_ne_nil hne
            omega
          exact (hwrite.split (hleft hmlt) _ 12).mono fun _ ⟨hx, hxdev, _⟩ => ⟨hx, hxdev⟩
      · have hturn := ih hx hxdev (drop_add_of_isPrefix hseg m) (by rw [hrest]; simp at hfuel; omega)
        rwa [hrest, show k + m + (bs.length + 1 - m) = k + (b :: bs).length by simp; omega] at hturn

/-! #### Value runs (R261 to R263) -/

theorem cost_valueCommand (last : Option Byte) (n : Nat) (v : Byte) :
    cost (valueCommand last n v) = if 15 < n then 19 else if last = some v then 7 else 15 := by
  unfold valueCommand
  split
  · simp [cost, encode]
  · split <;> simp [cost, encode]

/-- Copies of a value at the scan position are all written. A turn in which the command does not fit is
followed, in a fresh packet, by one in which it does: so two turns for each copy suffice (R263). -/
theorem Encoder.Inv.values (hruns : j.valueRuns = true) {fuel r : Nat} {v : Byte}
    (h : e.Inv j pairs startIndex k) (hdev : e.dev = j.base + k)
    (hvs : List.replicate r v <+: (pairs.map Prod.fst).drop k)
    (hfuel : 2 * r ≤ fuel ∨
      2 * r ≤ fuel + 1 ∧ e.fits j (cost (valueCommand e.lastValue (min r 255) v) + 3) = true) :
    Encodes (Encoder.valueRun j fuel e k r v) fun f =>
      f.Inv j pairs startIndex (k + r) ∧ f.dev = j.base + (k + r) := by
  induction fuel generalizing e k r with
  | zero =>
    obtain rfl : r = 0 := by omega
    exact .ok ⟨h, hdev⟩
  | succ fuel ih =>
    unfold Encoder.valueRun
    dsimp only
    split
    case isTrue hzero => exact .ok ⟨hzero ▸ h, hzero ▸ hdev⟩
    case isFalse hpos =>
      split
      case isTrue hfits =>
        generalize hch : min r 255 = ch at *
        refine (Encoder.put_encodes j e _).bind fun f hf => ?_
        subst hf
        have hhead : List.replicate ch v <+: (pairs.map Prod.fst).drop k := by
          have htake := (List.take_prefix ch (List.replicate r v)).trans hvs
          rwa [List.take_replicate, Nat.min_eq_left (by omega)] at htake
        have htail : List.replicate (r - ch) v <+: (pairs.map Prod.fst).drop (k + ch) := by
          simpa using drop_add_of_isPrefix hvs ch
        have hwrite := h.value hdev hruns (by omega) (by omega) hhead hfits
        rw [hdev, Nat.add_assoc] at hwrite
        have hturn := ih hwrite rfl htail (.inl (by omega))
        rwa [show k + ch + (r - ch) = k + r by omega] at hturn
      case isFalse hfits =>
        refine (h.split (Encoder.budget_ne_none hfits) _ _).bind fun f ⟨hf, hfdev, hlast, hroom⟩ => ?_
        have hturns := hfuel.resolve_right fun hfit => hfits hfit.2
        refine ih hf hfdev hvs (.inr ⟨hturns, Encoder.fits_mono hroom ?_⟩)
        rw [cost_valueCommand, hlast]
        simp

/-- The run at the head of a list is that many copies of its first byte (R261). -/
theorem take_runLength (v : Byte) (vs : List Byte) :
    (v :: vs).take (runLength (v :: vs)) = List.replicate (runLength (v :: vs)) v := by
  have hprefix := List.prefix_iff_eq_take.1 (List.takeWhile_prefix (l := vs) fun b => decide (b = v))
  have hcopies : (vs.takeWhile fun b => decide (b = v)) =
      List.replicate (vs.takeWhile fun b => decide (b = v)).length v :=
    List.eq_replicate_iff.2 ⟨rfl, fun b hb => by simpa using List.mem_takeWhile_imp hb⟩
  rw [runLength, Nat.add_comm, List.take_succ_cons, List.replicate_succ, ← hprefix, ← hcopies]

theorem runLength_le (seg : List Byte) : runLength seg ≤ seg.length := by
  cases seg with
  | nil => simp [runLength]
  | cons v vs =>
    have := (List.takeWhile_prefix (l := vs) fun b => decide (b = v)).length_le
    rw [runLength, List.length_cons]
    omega

theorem runLength_pos (v : Byte) (vs : List Byte) : 1 ≤ runLength (v :: vs) := Nat.le_add_right 1 _

theorem literalSpan_le (j : EncodeJob) (last : Option Byte) (seg : List Byte) :
    literalSpan j last seg ≤ seg.length := by
  induction seg with
  | nil => simp [literalSpan]
  | cons v vs ih =>
    unfold literalSpan
    split
    · omega
    · rw [List.length_cons]; omega

/-- New bytes at the scan position are all written, in literals and value commands (R262). -/
theorem Encoder.Inv.mixed (hruns : j.valueRuns = true) {fuel : Nat} {seg : List Byte}
    (h : e.Inv j pairs startIndex k) (hdev : e.dev = j.base + k)
    (hseg : seg <+: (pairs.map Prod.fst).drop k) (hfuel : seg.length ≤ fuel) :
    Encodes (Encoder.mixedRun j fuel e k seg) fun f =>
      f.Inv j pairs startIndex (k + seg.length) ∧ f.dev = j.base + (k + seg.length) := by
  induction fuel generalizing e k seg with
  | zero =>
    obtain rfl := List.length_eq_zero_iff.1 (Nat.le_zero.1 hfuel)
    exact .ok ⟨h, hdev⟩
  | succ fuel ih =>
    rcases seg with _ | ⟨v, vs⟩
    · exact .ok ⟨h, hdev⟩
    · have hrest : ∀ {n : Nat} {f : Encoder}, 1 ≤ n → n ≤ (v :: vs).length →
          f.Inv j pairs startIndex (k + n) ∧ f.dev = j.base + (k + n) →
          Encodes (Encoder.mixedRun j fuel f (k + n) ((v :: vs).drop n)) fun g =>
            g.Inv j pairs startIndex (k + (v :: vs).length) ∧
              g.dev = j.base + (k + (v :: vs).length) := by
        intro n f h1 hn ⟨hf, hfdev⟩
        have hturn := ih hf hfdev (drop_add_of_isPrefix hseg n) (by rw [List.length_drop]; omega)
        rwa [List.length_drop, Nat.add_assoc, Nat.add_sub_cancel' hn] at hturn
      unfold Encoder.mixedRun
      split
      case isTrue =>
        have hcopies : List.replicate (runLength (v :: vs)) v <+: (pairs.map Prod.fst).drop k :=
          take_runLength v vs ▸ (List.take_prefix _ _).trans hseg
        exact (h.values hruns hdev hcopies (.inl (Nat.le_refl _))).bind fun f hf =>
          hrest (runLength_pos v vs) (runLength_le _) hf
      case isFalse =>
        have hn : 1 + literalSpan j e.lastValue vs ≤ (v :: vs).length := by
          have := literalSpan_le j e.lastValue vs
          rw [List.length_cons]; omega
        have hlen := List.length_take_of_le hn
        refine (h.literals hdev ((List.take_prefix _ _).trans hseg) (Nat.le_of_eq hlen)).bind
          fun f hf => ?_
        rw [hlen] at hf
        exact hrest (Nat.le_add_right 1 _) hn hf

theorem Encoder.Inv.copyRun {seg : List Byte} (h : e.Inv j pairs startIndex k)
    (hdev : e.dev = j.base + k) (hseg : seg <+: (pairs.map Prod.fst).drop k) :
    Encodes (e.copyRun j k seg) fun f =>
      f.Inv j pairs startIndex (k + seg.length) ∧ f.dev = j.base + (k + seg.length) := by
  unfold Encoder.copyRun
  split
  case isTrue hruns => exact h.mixed hruns hdev hseg (Nat.le_refl _)
  case isFalse => exact h.literals hdev hseg (Nat.le_refl _)

/-! #### The scan (R245) -/

theorem continuesRun_not (b : Bool) (p : Byte × Byte) : continuesRun (!b) p = !continuesRun b p := by
  cases b <;> simp [continuesRun]

/-- Where a run ends the next one begins, so every run but the first is not empty (R245). -/
theorem takeWhile_of_dropWhile {b : Bool} {l : List (Byte × Byte)}
    (h : l.dropWhile (continuesRun b) ≠ []) :
    ((l.dropWhile (continuesRun b)).takeWhile (continuesRun (!b))) ≠ [] := by
  obtain ⟨x, rest, hx⟩ := List.exists_cons_of_ne_nil h
  have hhead : continuesRun b x = false := by
    have := List.head_dropWhile_not (continuesRun b) (l := l) h
    simpa [hx] using this
  rw [hx, List.takeWhile_cons_of_pos (by rw [continuesRun_not, hhead]; rfl)]
  exact List.cons_ne_nil _ _

/-- A run and what is left after it. -/
theorem run_length_add (b : Bool) (l : List (Byte × Byte)) :
    (l.takeWhile (continuesRun b)).length + (l.dropWhile (continuesRun b)).length = l.length := by
  rw [← List.length_append, List.takeWhile_append_dropWhile]

theorem drop_run (b : Bool) (l : List (Byte × Byte)) :
    l.drop (l.takeWhile (continuesRun b)).length = l.dropWhile (continuesRun b) := by
  have hdrop := List.drop_left (l₁ := l.takeWhile (continuesRun b)) (l₂ := l.dropWhile (continuesRun b))
  rwa [List.takeWhile_append_dropWhile] at hdrop

/-- One run of the scan: equal bytes are skipped and unequal ones written. -/
theorem Encoder.Inv.run {skipping : Bool} (h : e.Inv j pairs startIndex k)
    (hdev : if skipping then e.dev ≤ j.base + k else e.dev = j.base + k) :
    Encodes
      (if skipping then
        e.skipTo j (j.base + (k + ((pairs.drop k).takeWhile (continuesRun skipping)).length))
      else e.copyRun j k (((pairs.drop k).takeWhile (continuesRun skipping)).map Prod.fst)) fun f =>
      f.Inv j pairs startIndex (k + ((pairs.drop k).takeWhile (continuesRun skipping)).length) ∧
        f.dev = j.base + (k + ((pairs.drop k).takeWhile (continuesRun skipping)).length) := by
  cases skipping with
  | true =>
    refine EndsIn.mono (h.skipTo (Nat.le_trans hdev (by omega))) fun f ⟨hf, hfdev⟩ =>
      ⟨hf.pass (Nat.le_add_right k _) fun p x hkp hp hx => ?_, hfdev⟩
    obtain ⟨rest, hrest⟩ := List.takeWhile_prefix (l := pairs.drop k) (continuesRun true)
    have hmem : x ∈ (pairs.drop k).takeWhile (continuesRun true) := by
      refine List.mem_of_getElem? (i := p - k) ?_
      rw [← hx, ← Nat.add_sub_cancel' hkp, ← List.getElem?_drop, Nat.add_sub_cancel_left]
      conv_rhs => rw [← hrest]
      exact (List.getElem?_append_left (by omega)).symm
    simpa [continuesRun] using List.mem_takeWhile_imp hmem
  | false =>
    have hseg : ((pairs.drop k).takeWhile (continuesRun false)).map Prod.fst <+:
        (pairs.map Prod.fst).drop k := by
      rw [← List.map_drop]
      exact (List.takeWhile_prefix _).map _
    simpa using h.copyRun hdev hseg

/-- The scan goes through to the end of the frame. -/
theorem Encoder.Inv.scan {fuel : Nat} {skipping : Bool} (h : e.Inv j pairs startIndex k)
    (hk : k ≤ pairs.length)
    (hdev : if skipping then e.dev ≤ j.base + k else e.dev = j.base + k)
    (hfuel : (pairs.drop k).length + 2 ≤ fuel ∨
      (pairs.drop k).length + 1 ≤ fuel ∧ (pairs.drop k).takeWhile (continuesRun skipping) ≠ []) :
    Encodes (Encoder.scan j fuel e k skipping (pairs.drop k)) fun f =>
      f.Inv j pairs startIndex pairs.length := by
  induction fuel generalizing e k skipping with
  | zero => omega
  | succ fuel ih =>
    have hadd := run_length_add skipping (pairs.drop k)
    have hnext := @takeWhile_of_dropWhile skipping (pairs.drop k)
    have htail := (List.drop_drop ..).symm.trans (drop_run skipping (pairs.drop k))
    have hrun := h.run hdev
    unfold Encoder.scan
    refine EndsIn.ite_bind hrun fun f ⟨hf, hfdev⟩ => ?_
    generalize (pairs.drop k).takeWhile (continuesRun skipping) = run at *
    generalize (pairs.drop k).dropWhile (continuesRun skipping) = tail at *
    rw [List.length_drop] at hadd hfuel
    split
    case isTrue hnil =>
      rw [hnil, List.length_nil] at hadd
      exact .ok (by rwa [show pairs.length = k + run.length by omega])
    case isFalse hne =>
      subst htail
      refine ih hf (by omega) ?_ (.inr ⟨?_, hnext hne⟩)
      · rw [hfdev]; split <;> rfl
      · rcases hfuel with hfuel | ⟨hfuel, hrun⟩
        · omega
        · have := List.length_pos_of_ne_nil hrun
          omega

end

end Sys2Proof.Machine

end

section
/-! `D_COMPUTE` (42_delta_encoder.md, R240, R241, R253): its operand checks, and that it always answers, with
packets in the form, the number and the size the rules give them. -/

namespace Sys2Proof.Machine

/-! ### `D_COMPUTE` (R240, R241, R253) -/

/-- What U2 answers for `pairs`: the packets of an encoder that has reached their end. -/
def EncodingOf (j : EncodeJob) (pairs : List (Byte × Byte)) (startIndex : BitVec 16)
    (pk : List (List Byte)) : Prop :=
  ∃ (e : Encoder) (done : List (List Instr)) (cur : List Instr),
    Wrote j pairs startIndex e pairs.length done cur ∧ pk = encodedPackets startIndex done cur

theorem encodePairs_encodes {j : EncodeJob} (hbudget : budgetTooSmall j.budget = false)
    (startIndex : BitVec 16) (pairs : List (Byte × Byte)) :
    Encodes (encodePairs j startIndex pairs) (EncodingOf j pairs startIndex) := by
  refine (Encoder.startPacket_encodes j _).bind fun e he => ?_
  have hroom : e.fits j 3 = true := by
    refine Encoder.fits_iff.2 fun b hb => ?_
    have hb26 : ¬ b < 26 := by simpa [hb, budgetTooSmall] using hbudget
    simp [he, encode]
    omega
  subst he
  have hscan := (Encoder.inv_start (pairs := pairs) hroom).scan (fuel := pairs.length + 2)
    (skipping := true) (Nat.zero_le _) (Nat.zero_le _) (.inl (by simp))
  refine hscan.bind fun f ⟨done, cur, hf⟩ => ?_
  refine (Encoder.put_encodes j f .eoc).bind fun g hg => .ok ⟨f, done, cur, hf, ?_⟩
  rw [hg, hf.out, hf.wk, writerOf_append]
  rfl

/-- The job of a `D_COMPUTE` (R240). -/
def deltaJob (p : Params) (baseOffset maxBytes : BitVec 16) : EncodeJob where
  budget := packetBudget maxBytes
  wcap := p.wcap
  base := baseOffset.toNat
  valueRuns := p.valueRuns

theorem badFrames_iff {newData oldData : List Byte} {length : BitVec 16} :
    badFrames newData oldData length = true ↔
      newData.length ≠ oldData.length ∨ newData.length < length.toNat := by
  simp [badFrames]

theorem budgetTooSmall_iff {maxBytes : BitVec 16} :
    budgetTooSmall (packetBudget maxBytes) = true ↔ 1 ≤ maxBytes.toNat ∧ maxBytes.toNat ≤ 3 := by
  unfold packetBudget
  split
  case isTrue hzero => simp [budgetTooSmall, hzero]
  case isFalse hne =>
    have : maxBytes.toNat ≠ 0 := fun h => hne (BitVec.eq_of_toNat_eq h)
    simp only [budgetTooSmall, decide_eq_true_eq]
    omega

section
variable {p : Params} {newData oldData : List Byte} {baseOffset length startIndex maxBytes : BitVec 16}

theorem computeDelta_badFrames (h : badFrames newData oldData length = true) :
    computeDelta p newData oldData baseOffset length startIndex maxBytes = .error (.raise .arg) := by
  rw [computeDelta, if_pos h]

theorem computeDelta_tooSmall (hframes : badFrames newData oldData length = false)
    (h : budgetTooSmall (packetBudget maxBytes) = true) :
    computeDelta p newData oldData baseOffset length startIndex maxBytes =
      .error (.raise .budget) := by
  rw [computeDelta, hframes, if_neg Bool.false_ne_true, if_pos h]

theorem computeDelta_eq (hframes : badFrames newData oldData length = false)
    (h : budgetTooSmall (packetBudget maxBytes) = false) :
    computeDelta p newData oldData baseOffset length startIndex maxBytes =
      encodePairs (deltaJob p baseOffset maxBytes) startIndex (framePairs newData oldData length) := by
  rw [computeDelta, hframes, if_neg Bool.false_ne_true, h, if_neg Bool.false_ne_true]
  rfl

/-- What `D_COMPUTE` can do: refuse its buffers (R241), or encode or raise one of its other faults. -/
theorem computeDelta_cases (p : Params) (newData oldData : List Byte)
    (baseOffset length startIndex maxBytes : BitVec 16) :
    computeDelta p newData oldData baseOffset length startIndex maxBytes = .error (.raise .arg) ∨
      badFrames newData oldData length = false ∧
        Encodes (computeDelta p newData oldData baseOffset length startIndex maxBytes)
          (EncodingOf (deltaJob p baseOffset maxBytes) (framePairs newData oldData length) startIndex) := by
  by_cases hframes : badFrames newData oldData length = true
  · exact .inl (computeDelta_badFrames hframes)
  · rw [Bool.not_eq_true] at hframes
    refine .inr ⟨hframes, ?_⟩
    by_cases hsmall : budgetTooSmall (packetBudget maxBytes) = true
    · rw [computeDelta_tooSmall hframes hsmall]
      exact .raise (by simp)
    · rw [Bool.not_eq_true] at hsmall
      rw [computeDelta_eq hframes hsmall]
      exact encodePairs_encodes hsmall startIndex _

theorem computeDelta_ok {pk : List (List Byte)}
    (h : computeDelta p newData oldData baseOffset length startIndex maxBytes = .ok pk) :
    badFrames newData oldData length = false ∧
      EncodingOf (deltaJob p baseOffset maxBytes) (framePairs newData oldData length) startIndex pk := by
  obtain harg | ⟨hframes, henc⟩ :=
    computeDelta_cases p newData oldData baseOffset length startIndex maxBytes
  · cases harg.symm.trans h
  · exact ⟨hframes, henc.of_ok h⟩

theorem exec_dCompute_raise {s : State} {c : ErrCode}
    (h : computeDelta s.params newData oldData baseOffset length startIndex maxBytes =
      .error (.raise c)) :
    exec (.dCompute newData oldData baseOffset length startIndex maxBytes) s = .next (s.raise c) := by
  change execDCompute newData oldData baseOffset length startIndex maxBytes s = _
  rw [execDCompute, h]
  rfl

/-- A `D_COMPUTE` that answers packets has encoded its frames. -/
theorem exec_dCompute_packets {s u : State} {pk : List (List Byte)}
    (h : exec (.dCompute newData oldData baseOffset length startIndex maxBytes) s = .next u)
    (hresp : u.response = { status := 0x00, result := .packets pk }) :
    computeDelta s.params newData oldData baseOffset length startIndex maxBytes = .ok pk := by
  obtain ⟨t, res, hwork, rfl⟩ | ⟨c, -, rfl⟩ := answer_next.1 h
  · obtain ⟨pk', hpk', hwork⟩ := bind_ok.1 hwork
    cases hwork
    cases hresp
    exact hpk'
  · exact absurd (congrArg Response.status hresp) (s.raise_status_ne_ok c)

/-- The pair of bytes at a position of the frame (R76). -/
theorem framePairs_getElem? (h : badFrames newData oldData length = false) {q : Nat}
    (hq : q < length.toNat) :
    (framePairs newData oldData length)[q]? = some (newData.getD q 0, oldData.getD q 0) := by
  have hgood := mt badFrames_iff.2 (by rw [h]; exact Bool.false_ne_true)
  have hnew : q < newData.length := by omega
  have hold : q < oldData.length := by omega
  simp [framePairs, hq, hnew, hold]

theorem framePairs_length (h : badFrames newData oldData length = false) :
    (framePairs newData oldData length).length = length.toNat := by
  have hgood := mt badFrames_iff.2 (by rw [h]; exact Bool.false_ne_true)
  simp only [framePairs, List.length_take, List.length_zip]
  omega

end

theorem encodedPackets_ne_nil (startIndex : BitVec 16) (done : List (List Instr)) (cur : List Instr) :
    encodedPackets startIndex done cur ≠ [] := by simp [encodedPackets]

theorem encodedPackets_length (startIndex : BitVec 16) (done : List (List Instr)) (cur : List Instr) :
    (encodedPackets startIndex done cur).length = done.length + 1 := by simp [encodedPackets]

/-- Packet `k` of an encoding: its commands, and `EOC` in the last and `EOP` in the others (R253). -/
theorem encodedPackets_getElem? {startIndex : BitVec 16} {done : List (List Instr)} {cur : List Instr}
    {k : Nat} {p : List Byte} (h : (encodedPackets startIndex done cur)[k]? = some p) :
    ∃ cmds ∈ cur :: done, p = closedPacket startIndex k cmds
      (if k + 1 = (encodedPackets startIndex done cur).length then Instr.eoc else Instr.eop) := by
  rw [encodedPackets_length]
  rcases Nat.lt_trichotomy k done.length with hk | rfl | hk
  · refine ⟨done[k], by simp, ?_⟩
    rw [encodedPackets, List.getElem?_append_left (by simpa using hk)] at h
    rw [if_neg (by omega)]
    simpa [hk, eq_comm] using h
  · refine ⟨cur, by simp, ?_⟩
    rw [if_pos rfl]
    simpa [encodedPackets, eq_comm] using h
  · have hle : (encodedPackets startIndex done cur).length ≤ k := by rw [encodedPackets_length]; omega
    rw [List.getElem?_eq_none hle] at h
    cases h

/-- Every packet of an encoding is within its budget (R254 (a)). -/
theorem Wrote.packets_small {j : EncodeJob} {pairs : List (Byte × Byte)} {startIndex : BitVec 16}
    {e : Encoder} {k : Nat} {done : List (List Instr)} {cur : List Instr}
    (h : Wrote j pairs startIndex e k done cur) {p : List Byte}
    (hp : p ∈ encodedPackets startIndex done cur) {b : Nat} (hb : j.budget = some b) :
    p.length ≤ bytesFor b := by
  rcases List.mem_append.1 hp with hp | hp
  · exact h.small p (h.out ▸ hp) b hb
  · rw [List.mem_singleton.1 hp]
    exact Encoder.closed_length h.wk h.room rfl hb

end Sys2Proof.Machine

open Sys2Proof Sys2Proof.Machine

/-- Settles O40: both checks stand before the encoding (R241, R256 (a)). -/
theorem encoderRefusesBadOperands : Obligations.EncoderRefusesBadOperands := by
  intro s newData oldData baseOffset length startIndex maxBytes
  refine ⟨fun hbad => exec_dCompute_raise (computeDelta_badFrames (badFrames_iff.2 hbad)),
    fun heq hle h1 h3 => exec_dCompute_raise (computeDelta_tooSmall ?_ (budgetTooSmall_iff.2 ⟨h1, h3⟩))⟩
  rw [← Bool.not_eq_true, badFrames_iff]
  omega

/-- Settles O41: past its operand checks U2's work ends in packets or in one of two faults. -/
theorem encoderAlwaysAnswers : Obligations.EncoderAlwaysAnswers := by
  intro s newData oldData baseOffset length startIndex maxBytes
  obtain harg | ⟨-, ⟨pk, hpk, e, done, cur, -, rfl⟩ | ⟨c, hc, hfault⟩⟩ :=
    computeDelta_cases s.params newData oldData baseOffset length startIndex maxBytes
  · exact ⟨_, exec_dCompute_raise harg, .inr (.inl rfl)⟩
  · exact ⟨_, exec_dCompute_ok hpk, .inl ⟨_, encodedPackets_ne_nil _ _ _, rfl⟩⟩
  · refine ⟨_, exec_dCompute_raise hfault, .inr (.inr ?_)⟩
    obtain rfl | rfl : c = .budget ∨ c = .writerFull := by simpa using hc
    · exact .inl rfl
    · exact .inr rfl

/-- Settles O36: the invariant keeps a terminator's room free, and R33 holds of the working writer. -/
theorem packetsFitTheBudget : Obligations.PacketsFitTheBudget := by
  intro s u newData oldData baseOffset length startIndex maxBytes pk hexec hresp
  have hpk := exec_dCompute_packets hexec hresp
  have hfits := computeDelta_packetFits hpk
  obtain ⟨-, e, done, cur, hw, rfl⟩ := computeDelta_ok hpk
  refine ⟨encodedPackets_ne_nil _ _ _, fun hzero => ?_, fun p hp => ⟨fun hne => ?_, ?_⟩⟩
  · have hnone : (deltaJob s.params baseOffset maxBytes).budget = none := if_pos hzero
    rw [encodedPackets_length, hw.single hnone]
    rfl
  · have hsmall := hw.packets_small hp (if_neg hne)
    unfold bytesFor at hsmall
    omega
  · obtain ⟨hclean, hcap⟩ := hfits p hp
    exact ⟨hcap, by simpa [sevenBitClean] using hclean⟩

/-- Settles O37: the invariant holds each packet as its header and its canonical commands. -/
theorem packetsAreNumberedAndTerminated : Obligations.PacketsAreNumberedAndTerminated := by
  intro s u newData oldData baseOffset length startIndex maxBytes pk hexec hresp
  obtain ⟨-, e, done, cur, hw, rfl⟩ := computeDelta_ok (exec_dCompute_packets hexec hresp)
  refine ⟨encodedPackets_ne_nil _ _ _, fun k p hp => ?_⟩
  obtain ⟨cmds, hcmds, rfl⟩ := encodedPackets_getElem? hp
  obtain ⟨pad, hbits, hpad⟩ := writerOf_streamBits _
  exact ⟨cmds, pad, hbits, hpad.1, hpad.2, hw.canonical cmds hcmds⟩

end

section
/-! The packets of an encoding at the device (42_delta_encoder.md, R280, R282): read in order, they turn the old
frame into the new one. -/

namespace Sys2Proof.Machine

/-! ### The device reads the packets (R280, R282) -/

/-- The machine runs from `s` to `t`, and the display satisfies `P` at every moment of the run. -/
def RunsWithin (P : Memory → Prop) (s t : State) : Prop :=
  ∃ n, Host.Core.run Sys2Proof.core n s = .next t ∧
    ∀ m x, m ≤ n → Host.Core.run Sys2Proof.core m s = .next x → P x.dev.display

theorem RunsWithin.refl {P : Memory → Prop} {s : State} (h : P s.dev.display) : RunsWithin P s s := by
  refine ⟨0, rfl, fun m x hm hx => ?_⟩
  obtain rfl : m = 0 := by omega
  cases hx
  exact h

theorem run_succ {s u : State} (h : step s = .next u) (n : Nat) :
    Host.Core.run Sys2Proof.core (n + 1) s = Host.Core.run Sys2Proof.core n u := by
  have hstep : Sys2Proof.core.step s = .next u := h
  simp only [Host.Core.run, hstep]

theorem RunsWithin.step {P : Memory → Prop} {s u t : State} (h : RunsWithin P u t)
    (hs : Machine.step s = .next u) (hP : P s.dev.display) : RunsWithin P s t := by
  obtain ⟨n, hrun, hall⟩ := h
  refine ⟨n + 1, (run_succ hs n).trans hrun, fun m x hm hx => ?_⟩
  cases m with
  | zero => cases hx; exact hP
  | succ m => exact hall m x (by omega) ((run_succ hs m).symm.trans hx)

/-- One unit of a packet read: the device moves on, and the bits after it go back in front exactly while
the packet lasts (R280). -/
theorem step_does {s : State} {i : Instr} {d : Device} {bits : List Bool} {rest : List Input}
    (hin : s.inputs = .packet (encode i ++ bits) :: rest) (h : Does i s.dev d) :
    step s = .next
      { s with dev := d, inputs := if d.inPacket then .packet bits :: rest else rest } := by
  obtain ⟨hwf, hlayer, hexec⟩ := h
  have hlayers : i.layer = .header ∨ i.layer = .command ∨ i.layer = .request := by
    rw [hlayer, packetLayer]
    split <;> simp
  rw [step_packet hin, runPacket_ok (hlayer ▸ decode_encode_append hwf hlayers bits),
    hexec { s with inputs := rest } rfl]
  simp only [afterCommand, continuePacket]
  split <;> rfl

/-- The instructions of a packet before its terminator are read, and the run goes on from there. -/
theorem RunsWithin.reads {P : Memory → Prop} {is : List Instr} {s t : State} {d : Device}
    {bits : List Bool} {rest : List Input} (h : Reads P is s.dev d) (hP : P s.dev.display)
    (hin : s.inputs = .packet (is.flatMap encode ++ bits) :: rest)
    (hthen : P d.display → RunsWithin P { s with dev := d, inputs := .packet bits :: rest } t) :
    RunsWithin P s t := by
  induction is generalizing s with
  | nil =>
    cases h
    rw [List.flatMap_nil, List.nil_append] at hin
    rw [← hin] at hthen
    exact hthen hP
  | cons i is ih =>
    obtain ⟨d', hdoes, hpacket, hP', h⟩ := h
    rw [List.flatMap_cons, List.append_assoc] at hin
    refine RunsWithin.step ?_ (step_does hin hdoes) hP
    exact ih h hP' (if_pos hpacket) hthen

/-- The bytes of a packet hold these instructions, a terminator and padding. -/
def Carries (is : List Instr) (p : List Byte) : Prop :=
  ∃ (last : Instr) (pad : List Bool), (last = .eop ∨ last = .eoc) ∧
    streamBits p = is.flatMap encode ++ (encode last ++ pad)

/-- Packets that wait at the inputs are read to their ends. -/
theorem RunsWithin.readsAll {P : Memory → Prop} {ps : List (List Instr)} {pk : List (List Byte)}
    {s : State} {d : Device} (h : ReadsAll P ps s.dev d) (hP : P s.dev.display)
    (hpk : List.Forall₂ Carries ps pk) (hin : s.inputs = pk.map fun p => .packet (streamBits p)) :
    RunsWithin P s { s with inputs := [], dev := d } := by
  induction hpk generalizing s with
  | nil =>
    cases h
    rw [← show s.inputs = [] from hin]
    exact .refl hP
  | @cons is p ps pk hp hpk ih =>
    obtain ⟨d', hreads, hpacket, h⟩ := h
    obtain ⟨last, pad, hlast, hbits⟩ := hp
    rw [List.map_cons, hbits] at hin
    refine RunsWithin.reads hreads hP hin fun hP' => ?_
    exact RunsWithin.step (ih (s := { s with dev := d'.endPacket, inputs := _ }) h hP' rfl)
      (step_does rfl (does_terminator hlast hpacket)) hP'

theorem closedPacket_carries (startIndex : BitVec 16) (n : Nat) (cmds : List Instr) {last : Instr}
    (hlast : last = .eop ∨ last = .eoc) :
    Carries (openPacket startIndex n cmds) (closedPacket startIndex n cmds last) := by
  obtain ⟨pad, hbits, -⟩ :=
    writerOf_streamBits ((openPacket startIndex n cmds).flatMap encode ++ encode last)
  exact ⟨last, pad, hlast, hbits.trans (List.append_assoc ..)⟩

theorem encodedPackets_carries (startIndex : BitVec 16) (done : List (List Instr)) (cur : List Instr) :
    List.Forall₂ Carries (done.mapIdx (openPacket startIndex) ++ [openPacket startIndex done.length cur])
      (encodedPackets startIndex done cur) := by
  refine List.rel_append ?_ (.cons (closedPacket_carries startIndex _ cur (.inr rfl)) .nil)
  refine List.forall₂_iff_get.2 ⟨by simp, fun n h1 h2 => ?_⟩
  simpa using closedPacket_carries startIndex n _ (.inl rfl)

/-- The packets of an encoding, read by a device that holds the old frame (R282). -/
theorem EncodingOf.runs {j : EncodeJob} {pairs : List (Byte × Byte)} {startIndex : BitVec 16}
    {pk : List (List Byte)} (h : EncodingOf j pairs startIndex pk) {s : State}
    (hold : HoldsOld j.base pairs s.dev)
    (hin : s.inputs = pk.map fun p => .packet (streamBits p)) :
    ∃ d : Device, RunsWithin (OnTheWay j.base pairs s.dev.display) s { s with inputs := [], dev := d } ∧
      Shows j.base pairs pairs.length s.dev.display d.display := by
  obtain ⟨e, done, cur, hw, rfl⟩ := h
  obtain ⟨d1, d2, hdone, hcur, hat⟩ := hw.device s.dev hold
  have hall : ReadsAll (OnTheWay j.base pairs s.dev.display)
      (done.mapIdx (openPacket startIndex) ++ [openPacket startIndex done.length cur]) s.dev
      d2.endPacket := readsAll_append hdone ⟨d2, hcur, hat.inPacket, rfl⟩
  exact ⟨d2.endPacket, RunsWithin.readsAll hall ⟨0, hold.shows⟩ (encodedPackets_carries ..) hin,
    hat.shows⟩

end Sys2Proof.Machine

open Sys2Proof Sys2Proof.Machine

/-- Settles O35: at each step of the run the display shows the new bytes up to some scan position and the
old ones after it; at the end that position is the frame's. -/
theorem packetsReproduceTheNewFrame : Obligations.PacketsReproduceTheNewFrame := by
  intro s u newData oldData baseOffset length startIndex maxBytes pk hexec hresp d hwf hpacket hin hold
  obtain ⟨hframes, henc⟩ := computeDelta_ok (exec_dCompute_packets hexec hresp)
  have hlen := framePairs_length hframes
  have hpair : ∀ q, q < length.toNat → _ := fun q hq => framePairs_getElem? hframes hq
  have hholds : HoldsOld baseOffset.toNat (framePairs newData oldData length) d.dev := by
    refine ⟨hpacket, hwf, ⟨fun q x hx => ?_, fun _ _ => rfl⟩⟩
    have hq : q < length.toNat := hlen ▸ (List.getElem?_eq_some_iff.1 hx).1
    obtain rfl := Option.some.inj (hx.symm.trans (hpair q hq))
    rw [if_neg (Nat.not_lt_zero q)]
    exact hold q hq
  obtain ⟨d', ⟨k, hrun, hway⟩, hnew⟩ := henc.runs hholds hin
  refine ⟨k, _, hrun, rfl, fun q hq => hnew.new (hpair q hq), fun m x hm hx => ?_⟩
  obtain ⟨pos, hshows⟩ := hway m x hm hx
  exact ⟨fun a ha => hshows.outside a (hlen ▸ ha), fun q hq => hshows.old_or_new (hpair q hq)⟩

end

section
/-! Frames that `D_COMPUTE` encodes in one packet (42_delta_encoder.md, R247, R254): where there is room enough
no command is refused and nothing is split. -/

namespace Sys2Proof.Machine

/-! ### Frames that need no split (R254 (b)) -/

/-- U2's work where it has no fault to raise. -/
abbrev Answers {α : Type} (x : Except Stop α) (Q : α → Prop) : Prop := EndsIn [] x Q

/-- The encoder is in its first packet, and the budget and `WCAP` hold 12 bits more for every device
offset up to `top`, and a terminator. -/
structure Encoder.Roomy (j : EncodeJob) (top : Nat) (e : Encoder) : Prop where
  out : e.out = []
  wk : ∃ bits, e.wk = writerOf bits
  dev_le : e.dev ≤ top
  budget : e.fits j (12 * (top - e.dev) + 3) = true
  wcap : e.wk.bitCount + (12 * (top - e.dev) + 3) ≤ 7 * j.wcap

section
variable {j : EncodeJob} {top : Nat} {e : Encoder}

/-- Commands that take at most 12 bits for each offset they move by are written, and leave as much room
for the rest. -/
theorem Encoder.Roomy.putAll (h : e.Roomy j top) {is : List Instr} {c : Nat}
    (hcost : (is.map cost).sum ≤ 12 * c) (hle : e.dev + c ≤ top) :
    Answers (e.putAll j is) fun f => Encoder.Roomy j top { f with dev := e.dev + c } := by
  obtain ⟨bits, hbits⟩ := h.wk
  have hcount : e.wk.bitCount = bits.length := by rw [hbits, writerOf_bitCount]
  have hlen : (is.flatMap encode).length = (is.map cost).sum := List.length_flatMap
  have hwcap := h.wcap
  rw [Encoder.putAll_room hbits (by omega)]
  refine .ok ⟨h.out, ⟨_, rfl⟩, hle, ?_, ?_⟩
  · refine Encoder.fits_mono h.budget ?_
    simp only [writerOf_bitCount, List.length_append]
    omega
  · simp only [writerOf_bitCount, List.length_append]
    omega

theorem Encoder.putAll_singleton (j : EncodeJob) (e : Encoder) (i : Instr) :
    e.putAll j [i] = e.put j i := by
  cases h : e.put j i <;> simp [Encoder.putAll, h, bind, Except.bind]

theorem Encoder.Roomy.put (h : e.Roomy j top) {i : Instr} {c : Nat}
    (hcost : cost i ≤ 12 * c) (hle : e.dev + c ≤ top) :
    Answers (e.put j i) fun f => Encoder.Roomy j top { f with dev := e.dev + c } :=
  Encoder.putAll_singleton j e i ▸ h.putAll (is := [i]) (by simpa using hcost) hle

theorem Encoder.Roomy.fits (h : e.Roomy j top) {n c : Nat} (hn : n ≤ 12 * c) (hle : e.dev + c ≤ top) :
    e.fits j (n + 3) = true := Encoder.fits_mono h.budget (by omega)

theorem Encoder.Roomy.skipTo (h : e.Roomy j top) {target : Nat} (hdev : e.dev ≤ target)
    (hle : target ≤ top) :
    Answers (e.skipTo j target) fun f => f.Roomy j top ∧ f.dev = target := by
  have hcost : skipCost (target - e.dev) ≤ 12 * (target - e.dev) := by
    have := skipCost_le (target - e.dev)
    omega
  have htarget : e.dev + (target - e.dev) = target := Nat.add_sub_cancel' hdev
  unfold Encoder.skipTo
  dsimp only
  split
  case isTrue hzero => exact .ok ⟨h, by omega⟩
  case isFalse =>
    rw [if_pos (h.fits hcost (by omega))]
    exact (h.putAll hcost (by omega)).bind fun f hf => .ok ⟨htarget ▸ hf, rfl⟩

theorem Encoder.Roomy.literal (h : e.Roomy j top) {fuel k : Nat} {seg : List Byte}
    (hdev : e.dev = j.base + k) (hle : j.base + (k + seg.length) ≤ top) (hfuel : seg.length ≤ fuel) :
    Answers (Encoder.literal j fuel e k seg) fun f =>
      f.Roomy j top ∧ f.dev = j.base + (k + seg.length) := by
  rcases seg with _ | ⟨b, bs⟩
  · cases fuel <;> exact .ok ⟨h, hdev⟩
  · obtain ⟨fuel, rfl⟩ : ∃ n, fuel = n + 1 := ⟨fuel - 1, by simp at hfuel; omega⟩
    rw [List.length_cons] at hle ⊢
    have hroom : e.literalRoom j (bs.length + 1) = bs.length + 1 := by
      unfold Encoder.literalRoom
      split
      case h_1 => rfl
      case h_2 b hb =>
        have := Encoder.fits_iff.1 h.budget b hb
        omega
    have hput := h.put (i := .lit (b :: bs)) (c := bs.length + 1)
      (by rw [cost_lit, List.length_cons]; omega) (by omega)
    unfold Encoder.literal
    rw [if_pos (h.fits (c := 1) (by omega) (by omega))]
    refine EndsIn.bind (EndsIn.ok (Q := fun f => f = e) rfl) fun f hf => ?_
    subst hf
    dsimp only
    rw [hroom, ← List.length_cons (a := b), List.take_length, List.drop_length]
    refine hput.bind fun g hg => ?_
    rw [hdev, Nat.add_assoc, ← List.length_cons (a := b)] at hg
    rw [if_pos rfl]
    cases fuel <;> exact .ok ⟨hg, rfl⟩

/-- A run that U2 writes as a value has two copies at least (R261). -/
theorem criterion_runLength {last : Option Byte} {v : Byte} {vs : List Byte}
    (h : criterion j last (v :: vs) = true) : runLength (v :: vs) ≠ 1 := by
  intro hone
  simp only [criterion, Bool.and_eq_true, decide_eq_true_eq, hone] at h
  have hcost : valueCost last 1 v = cost (valueCommand last 1 v) := by
    simp [valueCost, runChunks, valueCommands]
  have hseven : 7 ≤ cost (valueCommand last 1 v) := by
    rw [cost_valueCommand]
    split
    · omega
    · split <;> omega
  omega

theorem Encoder.Roomy.valueRun (h : e.Roomy j top) {fuel k r : Nat} {v : Byte}
    (hdev : e.dev = j.base + k) (hle : j.base + (k + r) ≤ top) (hfuel : r ≤ fuel)
    (hone : r = 1 → e.lastValue = some v) :
    Answers (Encoder.valueRun j fuel e k r v) fun f => f.Roomy j top ∧ f.dev = j.base + (k + r) := by
  induction fuel generalizing e k r with
  | zero =>
    obtain rfl := Nat.le_zero.1 hfuel
    exact .ok ⟨h, hdev⟩
  | succ fuel ih =>
    unfold Encoder.valueRun
    dsimp only
    split
    case isTrue hzero => exact .ok ⟨h, hzero ▸ hdev⟩
    case isFalse hpos =>
      have hcost : cost (valueCommand e.lastValue (min r 255) v) ≤ 12 * min r 255 := by
        rw [cost_valueCommand]
        split
        · omega
        · split
          · omega
          · have : r ≠ 1 := fun hr => by simp_all
            omega
      rw [if_pos (h.fits hcost (by omega))]
      refine (h.put hcost (by omega)).bind fun f hf => ?_
      rw [hdev, Nat.add_assoc] at hf
      have hturn := ih (k := k + min r 255) (r := r - min r 255)
        (e := { f with lastValue := some v, dev := j.base + (k + min r 255) }) { hf with } rfl
        (by omega) (by omega) fun _ => rfl
      rwa [show k + min r 255 + (r - min r 255) = k + r by omega] at hturn

theorem Encoder.Roomy.mixedRun (h : e.Roomy j top) {fuel k : Nat} {seg : List Byte}
    (hdev : e.dev = j.base + k) (hle : j.base + (k + seg.length) ≤ top) (hfuel : seg.length ≤ fuel) :
    Answers (Encoder.mixedRun j fuel e k seg) fun f =>
      f.Roomy j top ∧ f.dev = j.base + (k + seg.length) := by
  induction fuel generalizing e k seg with
  | zero =>
    obtain rfl := List.length_eq_zero_iff.1 (Nat.le_zero.1 hfuel)
    exact .ok ⟨h, hdev⟩
  | succ fuel ih =>
    rcases seg with _ | ⟨v, vs⟩
    · exact .ok ⟨h, hdev⟩
    · have hrest : ∀ {n : Nat} {f : Encoder}, 1 ≤ n → n ≤ (v :: vs).length →
          f.Roomy j top ∧ f.dev = j.base + (k + n) →
          Answers (Encoder.mixedRun j fuel f (k + n) ((v :: vs).drop n)) fun g =>
            g.Roomy j top ∧ g.dev = j.base + (k + (v :: vs).length) := by
        intro n f h1 hn ⟨hf, hfdev⟩
        have hlen : k + n + ((v :: vs).drop n).length = k + (v :: vs).length := by
          rw [List.length_drop]; omega
        have hturn := ih hf hfdev (hlen ▸ hle) (by rw [List.length_drop]; omega)
        rwa [hlen] at hturn
      unfold Encoder.mixedRun
      split
      case isTrue hcrit =>
        have hr := runLength_le (v :: vs)
        exact (h.valueRun hdev (by omega) (by omega) fun hone =>
          absurd hone (criterion_runLength hcrit)).bind fun f hf => hrest (runLength_pos v vs) hr hf
      case isFalse =>
        have hn : 1 + literalSpan j e.lastValue vs ≤ (v :: vs).length := by
          have := literalSpan_le j e.lastValue vs
          rw [List.length_cons]; omega
        have hlen := List.length_take_of_le hn
        refine (h.literal hdev (by omega) (Nat.le_of_eq hlen)).bind fun f hf => ?_
        rw [hlen] at hf
        exact hrest (Nat.le_add_right 1 _) hn hf

theorem Encoder.Roomy.copyRun (h : e.Roomy j top) {k : Nat} {seg : List Byte}
    (hdev : e.dev = j.base + k) (hle : j.base + (k + seg.length) ≤ top) :
    Answers (e.copyRun j k seg) fun f => f.Roomy j top ∧ f.dev = j.base + (k + seg.length) := by
  unfold Encoder.copyRun
  split
  · exact h.mixedRun hdev hle (Nat.le_refl _)
  · exact h.literal hdev hle (Nat.le_refl _)

/-- One run of the scan. -/
theorem Encoder.Roomy.run (h : e.Roomy j top) {skipping : Bool} {k : Nat} {run : List (Byte × Byte)}
    (hdev : if skipping then e.dev ≤ j.base + k else e.dev = j.base + k)
    (hle : j.base + (k + run.length) ≤ top) :
    Answers
      (if skipping then e.skipTo j (j.base + (k + run.length)) else e.copyRun j k (run.map Prod.fst))
      fun f => f.Roomy j top ∧ f.dev = j.base + (k + run.length) := by
  cases skipping with
  | true => exact h.skipTo (Nat.le_trans hdev (by omega)) hle
  | false => simpa using h.copyRun (seg := run.map Prod.fst) hdev (by simpa using hle)

theorem Encoder.Roomy.scan (h : e.Roomy j top) {fuel k : Nat} {skipping : Bool}
    {pairs : List (Byte × Byte)}
    (hdev : if skipping then e.dev ≤ j.base + k else e.dev = j.base + k)
    (hle : j.base + (k + pairs.length) ≤ top) :
    Answers (Encoder.scan j fuel e k skipping pairs) fun f => f.Roomy j top := by
  induction fuel generalizing e k skipping pairs with
  | zero => exact .ok h
  | succ fuel ih =>
    have hadd := run_length_add skipping pairs
    unfold Encoder.scan
    refine EndsIn.ite_bind (h.run hdev (by omega)) fun f ⟨hf, hfdev⟩ => ?_
    split
    · exact .ok hf
    · refine ih hf ?_ (by omega)
      rw [hfdev]
      split <;> rfl

end

/-- A frame of which `WCAP` and the budget hold 12 bits for each device offset up to its end gives one
packet. -/
theorem encodePairs_roomy {j : EncodeJob} {startIndex : BitVec 16} {pairs : List (Byte × Byte)}
    (hcap : 26 + 12 * (j.base + pairs.length) ≤ 7 * j.wcap)
    (hbudget : ∀ b, j.budget = some b → 26 + 12 * (j.base + pairs.length) ≤ b) :
    Answers (encodePairs j startIndex pairs) fun pk => ∃ p, pk = [p] := by
  have hheader : (encode (.deltaHdr startIndex)).length = 23 := by simp [encode]
  unfold encodePairs
  rw [Encoder.startPacket_room (by omega)]
  have hstart : Encoder.Roomy j (j.base + pairs.length)
      ⟨writerOf (encode (.deltaHdr startIndex)), startIndex, 0, none, []⟩ := by
    refine ⟨rfl, ⟨_, rfl⟩, Nat.zero_le _, Encoder.fits_iff.2 fun b hb => ?_, ?_⟩
    · have := hbudget b hb
      rw [writerOf_bitCount]
      omega
    · rw [writerOf_bitCount]
      omega
  refine (hstart.scan (Nat.zero_le _) (by omega)).bind fun f hf => ?_
  obtain ⟨bits, hbits⟩ := hf.wk
  have hroom := hf.wcap
  rw [hbits, writerOf_bitCount] at hroom
  rw [Encoder.put_room hbits (by rw [show cost .eoc = 3 from rfl]; omega)]
  exact .ok ⟨_, by rw [hf.out]; rfl⟩

end Sys2Proof.Machine

open Sys2Proof Sys2Proof.Machine

/-- Settles O38: no command takes more than 12 bits for each offset it moves by, so none overflows and none
is split off. -/
theorem roomyFrameGivesOnePacket : Obligations.RoomyFrameGivesOnePacket := by
  intro s newData oldData baseOffset length startIndex maxBytes heq hle hcap hbudget
  have hframes : badFrames newData oldData length = false := by
    rw [← Bool.not_eq_true, badFrames_iff]
    omega
  have hsmall : budgetTooSmall (packetBudget maxBytes) = false :=
    budgetTooSmall_false fun b hb => by have := packetBudget_room hbudget hb; omega
  rw [← framePairs_length hframes] at hcap hbudget
  obtain ⟨_, hpk, p, rfl⟩ | ⟨_, hno, -⟩ := encodePairs_roomy (j := deltaJob s.params baseOffset maxBytes)
    (startIndex := startIndex) hcap fun _ => packetBudget_room hbudget
  · exact ⟨p, exec_dCompute_ok ((computeDelta_eq hframes hsmall).trans hpk)⟩
  · cases hno

end

section
/-! The session (43_session_fsm.md): acks and what they send, the eight handshake steps, a frame's gate and
commit, and the requests that open, close and configure. -/

namespace Sys2Proof.Machine

/-! ### The handshake steps (R320 to R328) -/

/-- The sends of steps 1 to 7, written out byte by byte (R321 to R327). -/
theorem stepSends_eq {n : BitVec 4} (s : State) (h1 : 1 ≤ n.toNat) (h7 : n.toNat ≤ 7) :
    stepSends n s = handshakeEvents s.params s.devIdx n.toNat := by
  have hn : n = 1 ∨ n = 2 ∨ n = 3 ∨ n = 4 ∨ n = 5 ∨ n = 6 ∨ n = 7 := by bv_omega
  rcases hn with rfl | rfl | rfl | rfl | rfl | rfl | rfl <;> rfl

/-- The step after `STEP`: step 3 sets `HBEN`, step 6 sets `PC`, steps up to 7 await an ack, and step 8
makes the session ready (R320 to R328). -/
theorem runStep_succ {s : State} (h1 : 1 ≤ s.stepReg.toNat) (h7 : s.stepReg.toNat ≤ 7) :
    runStep (s.stepReg + 1) { s with pending := false } = .ok { s with
      stepReg := s.stepReg + 1
      pending := decide (s.stepReg.toNat < 7)
      hbEn := if s.stepReg = 2 then true else s.hbEn
      pc := if s.stepReg = 5 then 3 else s.pc
      readyF := if s.stepReg = 7 then true else s.readyF
      sstate := if s.stepReg = 7 then .ready else s.sstate
      events := s.events ++ handshakeEvents s.params s.devIdx (s.stepReg.toNat + 1) } := by
  have hnext : (s.stepReg + 1).toNat = s.stepReg.toNat + 1 := by
    rw [BitVec.toNat_add]; simp; omega
  by_cases hlast : s.stepReg = 7
  · rw [hlast]
    exact runStep_ready _
  · have hlt : s.stepReg.toNat < 7 :=
      Nat.lt_of_le_of_ne h7 fun h => hlast (BitVec.eq_of_toNat_eq h)
    have hthree : s.stepReg.toNat + 1 = 3 ↔ s.stepReg = 2 := by rw [BitVec.toNat_eq]; simp
    have hsix : s.stepReg.toNat + 1 = 6 ↔ s.stepReg = 5 := by rw [BitVec.toNat_eq]; simp
    rw [runStep_waits (by omega) (by omega), stepSends_eq _ (by omega) (by omega), hnext]
    simp only [hthree, hsix, if_neg hlast]
    simp [hlt, Bool.or_comm, Config.fwCounterAfterUpload]

/-! ### Acks (R309 to R313) -/

/-- The counter update: a repeated counter is a stall (R310), any other is progress (R311). -/
theorem ackCounter_eq (c : BitVec 10) (s : State) :
    ackCounter c s = { s with
      apc := c
      pc := if c = s.apc then s.apc + 1 else s.pc
      events := s.events ++ (if c = s.apc then [.stuck s.apc] else []) } := by
  rcases ackCounter_cases c s with ⟨rfl, h⟩ | ⟨hne, h⟩
  · simp [h, stall, State.emit]
  · simp [h, hne]

theorem ackContinue_queued {s : State} {p : List Byte} {rest : List (List Byte)}
    (h : s.queue = p :: rest) :
    ackContinue s = .ok { s with
      queue := rest
      pc := s.pc + 1
      events := s.events ++ [.tx s.devIdx p none] } := by
  rw [ackContinue, if_pos (by simp [h]), sendQueuedHead_cons h]

theorem ackContinue_pending {s : State} (hq : s.queue = []) (hp : s.pending = true) :
    ackContinue s = runStep (s.stepReg + 1) { s with pending := false } := by
  rw [ackContinue, if_neg (by simp [hq]), if_pos hp]

theorem ackContinue_idle {s : State} (hq : s.queue = []) (hp : s.pending = false) :
    ackContinue s = .ok s := by
  rw [ackContinue, if_neg (by simp [hq]), if_neg (by simp [hp])]

/-- `S_ACK` in `CLOSED` does nothing (R309). -/
theorem exec_sAck_closed {s : State} (h : s.sstate = .closed) (c : BitVec 10) :
    exec (.sAck c) s = .next (s.respondOk .none) :=
  exec_sAck_ok (if_pos h)

/-- `S_ACK` elsewhere takes the counter and goes on (R309). -/
theorem exec_sAck_taken {s t : State} {c : BitVec 10} (h : s.sstate ≠ .closed)
    (ht : ackContinue { s with
      apc := c
      pc := if c = s.apc then s.apc + 1 else s.pc
      events := s.events ++ (if c = s.apc then [.stuck s.apc] else []) } = .ok t) :
    exec (.sAck c) s = .next (t.respondOk .none) := by
  rw [← ackCounter_eq] at ht
  exact exec_sAck_ok ((if_neg h).trans ht)

/-- An ack with packets queued sends the head (R312). -/
theorem exec_sAck_queued {s : State} (h : s.sstate ≠ .closed) {p : List Byte}
    {rest : List (List Byte)} (hq : s.queue = p :: rest) (c : BitVec 10) :
    exec (.sAck c) s = .next { s with
      apc := c
      pc := (if c = s.apc then s.apc + 1 else s.pc) + 1
      queue := rest
      events := s.events ++ (if c = s.apc then [.stuck s.apc] else []) ++ [.tx s.devIdx p none]
      response := { status := 0x00, result := .none } } :=
  exec_sAck_taken h (ackContinue_queued hq)

/-- An ack that finds a wait of step `STEP` runs the next step (R313, R314). -/
theorem exec_sAck_pending {s : State} (hopen : s.sstate = .opening) (hp : s.pending = true)
    (hq : s.queue = []) (h1 : 1 ≤ s.stepReg.toNat) (h7 : s.stepReg.toNat ≤ 7) (c : BitVec 10) :
    exec (.sAck c) s = .next { s with
      apc := c
      pc := if s.stepReg = 5 then 3 else if c = s.apc then s.apc + 1 else s.pc
      stepReg := s.stepReg + 1
      pending := decide (s.stepReg.toNat < 7)
      hbEn := if s.stepReg = 2 then true else s.hbEn
      readyF := if s.stepReg = 7 then true else s.readyF
      sstate := if s.stepReg = 7 then .ready else .opening
      events := s.events ++ (if c = s.apc then [.stuck s.apc] else []) ++
        handshakeEvents s.params s.devIdx (s.stepReg.toNat + 1)
      response := { status := 0x00, result := .none } } := by
  rw [← hopen]
  exact exec_sAck_taken (by rw [hopen]; exact SState.noConfusion)
    ((ackContinue_pending (by exact hq) (by exact hp)).trans (runStep_succ h1 h7))

/-! ### Runs of requests (R84) -/

theorem execAll_cons {i : Instr} {is : List Instr} {s t : State} (h : exec i s = .next t) :
    execAll (i :: is) s = execAll is t := by
  rw [execAll, h]

theorem execAll_append {is js : List Instr} {s t : State} (h : execAll is s = .next t) :
    execAll (is ++ js) s = execAll js t := by
  induction is generalizing s with
  | nil => cases h; rfl
  | cons i is ih =>
    rcases hi : exec i s with u | f | r
    · rw [List.cons_append, execAll_cons hi]
      exact ih ((execAll_cons hi).symm.trans h)
    all_goals rw [execAll, hi] at h; cases h

/-! ### The whole handshake (R313, R314, R320) -/

/-- `S_OPEN` in `CLOSED` runs step 1 (R319, R321). -/
theorem exec_sOpen_closed {s : State} (h : s.sstate = .closed) :
    exec .sOpen s = .next { s with
      sstate := .opening
      stepReg := 1
      pending := true
      events := s.events ++ handshakeEvents s.params s.devIdx 1
      response := { status := 0x00, result := .none } } := by
  change execSOpen s = _
  rw [execSOpen, if_pos h, runStep_waits (by decide) (by decide)]
  simp only [Bool.or_false, show decide ((1 : BitVec 4).toNat = 3) = false from rfl]
  rfl

/-- `t` is where `s` is when `S_OPEN` has run and the handshake has run its first `n` steps. -/
structure Handshake (s : State) (n : Nat) (t : State) : Prop where
  sstate : t.sstate = if n = 8 then .ready else .opening
  stepReg : t.stepReg.toNat = n
  pending : t.pending = decide (n < 8)
  hbEn : 3 ≤ n → t.hbEn = true
  readyF : n = 8 → t.readyF = true
  queue : t.queue = []
  lastEvent : n = 8 → t.events.getLast? = some .ready
  sent : t.sent = s.sent ++
    ((List.range n).flatMap fun k => handshakeEvents s.params s.devIdx (k + 1)).filter Event.isTx
  frame : t = { s with
    sstate := t.sstate
    stepReg := t.stepReg
    pending := t.pending
    pc := t.pc
    apc := t.apc
    readyF := t.readyF
    hbEn := t.hbEn
    events := t.events
    response := t.response }

/-- A stall is no transmission (R310). -/
theorem filter_isTx_stuck (p : Prop) [Decidable p] (a : BitVec 10) :
    (if p then [Event.stuck a] else []).filter Event.isTx = [] := by
  split <;> rfl

theorem filter_isTx_tx (d : BitVec 7) (x : List Byte) (e : Option (BitVec 7)) :
    [Event.tx d x e].filter Event.isTx = [.tx d x e] := rfl

theorem handshake_open {s : State} (hclosed : s.sstate = .closed) (hq : s.queue = []) :
    ∃ t, exec .sOpen s = .next t ∧ Handshake s 1 t := by
  refine ⟨_, exec_sOpen_closed hclosed, ?_⟩
  constructor
  case sent => simp [State.sent]
  case queue => exact hq
  all_goals simp

/-- Each ack takes the handshake one step further. -/
theorem Handshake.ack {s t : State} {n : Nat} (h : Handshake s n t) (h1 : 1 ≤ n) (h7 : n ≤ 7)
    (c : BitVec 10) :
    ∃ u, exec (.sAck c) t = .next u ∧ u.apc = c ∧ Handshake s (n + 1) u := by
  obtain ⟨hst, hstep, hpend, hhb, -, hq, -, hsent, hframe⟩ := h
  rw [if_neg (by omega)] at hst
  have hwait : t.pending = true := by rw [hpend, decide_eq_true]; omega
  have hseven : t.stepReg = 7 ↔ n + 1 = 8 := by rw [BitVec.toNat_eq, hstep]; simp
  have htwo : t.stepReg = 2 ↔ n + 1 = 3 := by rw [BitVec.toNat_eq, hstep]; simp
  have hparams : t.params = s.params := by rw [hframe]
  have hdev : t.devIdx = s.devIdx := by rw [hframe]
  refine ⟨_, exec_sAck_pending hst hwait hq (by omega) (by omega) c, rfl, ?_⟩
  constructor
  case sstate => simp only [hseven]
  case stepReg => rw [← hstep, BitVec.toNat_add]; simp; omega
  case pending => rw [hstep]; exact decide_eq_decide.2 (by omega)
  case hbEn =>
    intro h3
    simp only [htwo]
    split
    · rfl
    · exact hhb (by omega)
  case readyF => intro h8; exact if_pos (hseven.2 h8)
  case queue => exact hq
  case lastEvent =>
    intro h8
    simp [hstep, h8, handshakeEvents]
  case sent =>
    simp only [State.sent] at hsent ⊢
    simp [hsent, hstep, hparams, hdev, filter_isTx_stuck, List.range_succ]
  case frame => rw [hframe]

/-- `S_OPEN` and up to seven acks, whatever their counters, run one handshake step each. -/
theorem handshake_run {s : State} (hclosed : s.sstate = .closed) (hq : s.queue = [])
    (cs : List (BitVec 10)) (hlen : cs.length ≤ 7) :
    ∃ t, execAll (.sOpen :: cs.map .sAck) s = .next t ∧ Handshake s (cs.length + 1) t ∧
      ∀ c, cs.getLast? = some c → t.apc = c := by
  induction cs using List.reverseRecOn with
  | nil =>
    obtain ⟨t, ht, hshake⟩ := handshake_open hclosed hq
    exact ⟨t, execAll_cons ht, hshake, by simp⟩
  | append_singleton cs c ih =>
    rw [List.length_append, List.length_singleton] at hlen ⊢
    obtain ⟨t, ht, hshake, -⟩ := ih (by omega)
    obtain ⟨u, hu, hapc, hshake'⟩ := hshake.ack (by omega) (by omega) c
    refine ⟨u, ?_, hshake', by simp [hapc]⟩
    rw [List.map_append, ← List.cons_append, execAll_append ht]
    exact execAll_cons hu

/-! ### Frames (R340 to R342) -/

section
variable {s : State} {newData oldData : List Byte} {baseOffset length : BitVec 16}

/-- The gate of R340: `READY`, and `LASTACKED` = 1. -/
theorem frame_gate (hready : s.sstate = .ready) (hacked : s.pc = s.apc + 1) :
    ¬ (s.sstate ≠ .ready ∨ s.lastAcked = false) := by
  simp [hready, hacked, State.lastAcked]

/-- Inside the gate the encoder's fault is the frame's (R340, R364). -/
theorem exec_sFrame_raise (hready : s.sstate = .ready) (hacked : s.pc = s.apc + 1) {c : ErrCode}
    (h : computeDelta s.params newData oldData baseOffset length (s.pc.setWidth 16) s.maxPkt =
      .error (.raise c)) :
    exec (.sFrame newData oldData baseOffset length) s = .next (s.raise c) := by
  change execSFrame newData oldData baseOffset length s = _
  rw [execSFrame, if_neg (frame_gate hready hacked), h]
  rfl

/-- Inside the gate the encoder's packets are committed (R340). -/
theorem exec_sFrame_commit (hready : s.sstate = .ready) (hacked : s.pc = s.apc + 1)
    {pk : List (List Byte)}
    (h : computeDelta s.params newData oldData baseOffset length (s.pc.setWidth 16) s.maxPkt = .ok pk) :
    exec (.sFrame newData oldData baseOffset length) s =
      answer s (commitFrame pk s >>= fun t => .ok (t, .committed)) := by
  change execSFrame newData oldData baseOffset length s = _
  rw [execSFrame, if_neg (frame_gate hready hacked), h]
  rfl

theorem commitFrame_full {pk : List (List Byte)} (h : s.params.qcap < s.queue.length + pk.length) :
    commitFrame pk s = .error (.raise .queueFull) := if_pos h

theorem commitFrame_queued {pk : List (List Byte)} (h : s.queue.length + pk.length ≤ s.params.qcap)
    (hq : s.queue ≠ []) : commitFrame pk s = .ok { s with queue := s.queue ++ pk } := by
  rw [commitFrame, if_neg (by omega)]
  exact if_neg hq

theorem commitFrame_first {p : List Byte} {rest : List (List Byte)}
    (h : s.queue.length + (p :: rest).length ≤ s.params.qcap) (hq : s.queue = []) :
    commitFrame (p :: rest) s = .ok { s with
      queue := rest
      pc := s.pc + 1
      events := s.events ++ [.tx s.devIdx p none] } := by
  rw [commitFrame, if_neg (by omega)]
  exact (if_pos hq).trans (sendQueuedHead_cons (by simp [hq]))

/-- A `D_COMPUTE` that raises a fault is an encoder that raises it (R362). -/
theorem exec_dCompute_raised {startIndex maxBytes : BitVec 16} {c : ErrCode}
    (h : exec (.dCompute newData oldData baseOffset length startIndex maxBytes) s =
      .next (s.raise c)) :
    computeDelta s.params newData oldData baseOffset length startIndex maxBytes =
      .error (.raise c) := by
  obtain ⟨u, res, -, hok⟩ | ⟨d, hd, hraise⟩ := answer_next.1 h
  · exact absurd (congrArg (·.response.status) hok) (s.raise_status_ne_ok c)
  · have hcode : c.code = d.code := congrArg (·.response.status) hraise
    rw [ErrCode.code_inj.1 hcode]
    rcases hcompute : computeDelta s.params newData oldData baseOffset length startIndex maxBytes
      with e | pk <;> rw [hcompute] at hd <;> cases hd
    rfl

end

/-- A `D_COMPUTE` that answers packets answers at least one (R253). -/
theorem computeDelta_cons {p : Params} {newData oldData : List Byte}
    {baseOffset length startIndex maxBytes : BitVec 16} {pk : List (List Byte)}
    (h : computeDelta p newData oldData baseOffset length startIndex maxBytes = .ok pk) :
    ∃ (x : List Byte) (rest : List (List Byte)), pk = x :: rest := by
  obtain ⟨-, e, done, cur, -, rfl⟩ := computeDelta_ok h
  exact List.exists_cons_of_ne_nil (encodedPackets_ne_nil _ _ _)

/-! ### A queue drained by acks (R312) -/

/-- What an ack with packets queued does to the queue and to the wire. -/
theorem exec_sAck_sends {s : State} (hne : s.sstate ≠ .closed) {p : List Byte}
    {rest : List (List Byte)} (hq : s.queue = p :: rest) (c : BitVec 10) :
    ∃ t, exec (.sAck c) s = .next t ∧ t.sstate = s.sstate ∧ t.devIdx = s.devIdx ∧ t.queue = rest ∧
      t.sent = s.sent ++ [.tx s.devIdx p none] := by
  refine ⟨_, exec_sAck_queued hne hq c, rfl, rfl, rfl, ?_⟩
  simp [State.sent, filter_isTx_stuck, filter_isTx_tx]

/-- Each ack sends one queued packet, head first, whatever its counter. -/
theorem execAll_acks_drain {s : State} (hne : s.sstate ≠ .closed) {cs : List (BitVec 10)}
    (hlen : cs.length ≤ s.queue.length) :
    ∃ t, execAll (cs.map .sAck) s = .next t ∧ t.queue = s.queue.drop cs.length ∧
      t.sent = s.sent ++ (s.queue.take cs.length).map fun p => .tx s.devIdx p none := by
  induction cs generalizing s with
  | nil => exact ⟨s, rfl, rfl, by simp⟩
  | cons c cs ih =>
    obtain ⟨p, rest, hq⟩ : ∃ p rest, s.queue = p :: rest :=
      List.exists_cons_of_length_pos (by rw [List.length_cons] at hlen; omega)
    obtain ⟨u, hu, hst, hdev, hqueue, hsent⟩ := exec_sAck_sends hne hq c
    obtain ⟨t, ht, hqueue', hsent'⟩ := ih (hst ▸ hne) (by simpa [hq, hqueue] using hlen)
    refine ⟨t, (execAll_cons hu).trans ht, ?_, ?_⟩
    · rw [hqueue', hqueue, hq, List.length_cons, List.drop_succ_cons]
    · simp [hsent', hsent, hqueue, hdev, hq]

end Sys2Proof.Machine

open Sys2Proof Sys2Proof.Machine

/-- Settles O48: the counters are taken, then the queue or the pending wait decides. -/
theorem ackUpdatesCountersAndDrains : Obligations.AckUpdatesCountersAndDrains := by
  intro s c
  refine ⟨fun h => exec_sAck_closed h c, fun h p rest hq => exec_sAck_queued h hq c,
    fun h hq hp => exec_sAck_taken h (ackContinue_idle hq hp)⟩

/-- Settles O49: the wait's continuation is the step after `STEP`. -/
theorem ackAdvancesTheHandshake : Obligations.AckAdvancesTheHandshake :=
  fun _ c hopen hp hq h1 h7 => exec_sAck_pending hopen hp hq h1 h7 c

/-- Settles O50: step 1 at the opening, and one step further for each ack. -/
theorem sevenAcksReachReady : Obligations.SevenAcksReachReady := by
  intro s cs hclosed hq hlen
  obtain ⟨t, ht, hshake, hapc⟩ := handshake_run hclosed hq cs (by omega)
  rw [hlen] at hshake
  obtain ⟨c, hc⟩ : ∃ c, cs.getLast? = some c :=
    Option.isSome_iff_exists.1 (by rw [List.getLast?_isSome]; rintro rfl; simp at hlen)
  refine ⟨t, ht, hshake.sstate, BitVec.eq_of_toNat_eq hshake.stepReg, hshake.pending,
    hshake.readyF rfl, hshake.hbEn (by decide), hshake.queue, ?_, hshake.lastEvent rfl,
    hshake.sent, hshake.frame⟩
  rw [hc, hapc c hc]

/-- Settles O53: `D_COMPUTE` and the frame run the same encoder, whose packets are committed. -/
theorem frameIsCommittedAndItsHeadSent : Obligations.FrameIsCommittedAndItsHeadSent := by
  intro s u newData oldData baseOffset length pk hready hacked hexec hresp hroom
  have hpk := exec_dCompute_packets hexec hresp
  have hcommit := exec_sFrame_commit hready hacked hpk
  refine ⟨fun hq => ?_, fun hq => ?_⟩
  · rw [hcommit, commitFrame_queued hroom hq]
    rfl
  · obtain ⟨p, rest, rfl⟩ := computeDelta_cons hpk
    refine ⟨p, rest, rfl, ?_⟩
    rw [hcommit, commitFrame_first hroom hq]
    rfl

/-- Settles O54: such a frame gives one packet (O38), and one packet fits the empty queue. -/
theorem roomyFrameIsCommitted : Obligations.RoomyFrameIsCommitted := by
  intro s newData oldData baseOffset length hready hacked hq hqcap heq hle hcap hbudget
  obtain ⟨p, hexec⟩ := roomyFrameGivesOnePacket s newData oldData baseOffset length
    (s.pc.setWidth 16) s.maxPkt heq hle hcap hbudget
  obtain ⟨-, hsent⟩ := frameIsCommittedAndItsHeadSent s _ newData oldData baseOffset length [p]
    hready hacked hexec rfl (by simpa [hq] using hqcap)
  obtain ⟨_, _, hone, hframe⟩ := hsent hq
  cases hone
  rw [← hq] at hframe
  exact ⟨p, hexec, hframe⟩

/-- Settles O55: the encoder's fault ends the frame, and so does the commit's. -/
theorem frameFaultsAreTheEncodersOrQueueFull : Obligations.FrameFaultsAreTheEncodersOrQueueFull := by
  intro s u newData oldData baseOffset length hready hacked hexec
  refine ⟨fun pk hresp hfull => ?_, fun c hu => ?_⟩
  · rw [exec_sFrame_commit hready hacked (exec_dCompute_packets hexec hresp), commitFrame_full hfull]
    rfl
  · exact exec_sFrame_raise hready hacked (exec_dCompute_raised (hu ▸ hexec))

/-- Settles O56: the commit sends the first packet, and the acks drain the others. -/
theorem committedFrameDrainsByAcks : Obligations.CommittedFrameDrainsByAcks := by
  intro s u newData oldData baseOffset length pk cs hready hacked hq hexec hresp hroom hlen
  obtain ⟨-, hfirst⟩ := frameIsCommittedAndItsHeadSent s u newData oldData baseOffset length pk
    hready hacked hexec hresp (by simpa [hq] using hroom)
  obtain ⟨p, rest, rfl, hframe⟩ := hfirst hq
  obtain ⟨t, ht, hqueue, hsent⟩ := execAll_acks_drain (cs := cs) (s := { s with
    queue := rest, pc := _, events := _, response := _ }) (by simp [hready])
    (by rw [List.length_cons] at hlen; exact Nat.le_of_lt_succ hlen)
  refine ⟨t, (execAll_cons hframe).trans ht, hqueue, ?_⟩
  rw [hsent]
  simp [State.sent, filter_isTx_tx]

/-- Settles O46: the state is checked before anything is written. -/
theorem configOnlyInClosed : Obligations.ConfigOnlyInClosed := by
  intro s devIdx maxPkt
  change (_ → execSConfig devIdx maxPkt s = _) ∧ (_ → execSConfig devIdx maxPkt s = _)
  unfold execSConfig
  refine ⟨fun h => ?_, fun h => ?_⟩
  · rw [if_pos h]; rfl
  · rw [if_neg h]; rfl

/-- Settles O47: step 1 of the handshake, after the check of the state. -/
theorem openRunsStepOne : Obligations.OpenRunsStepOne := by
  intro s
  refine ⟨exec_sOpen_closed, fun h => ?_⟩
  change execSOpen s = _
  rw [execSOpen, if_neg h]
  rfl

/-- Settles O51: outside `CLOSED` the close differs only in whether a wait is there to abort. -/
theorem closeEndsTheSession : Obligations.CloseEndsTheSession := by
  intro s
  change (_ → execSClose s = _) ∧ (_ → execSClose s = _)
  unfold execSClose
  refine ⟨fun h => ?_, fun h => ?_⟩
  · rw [if_pos h]; rfl
  · rw [if_neg h]
    cases hp : s.pending <;> simp [abortWait, hp, State.respondOk, State.emit]

/-- Settles O52: the gate stands before the encoder (R341). -/
theorem frameOutsideTheGateIsDropped : Obligations.FrameOutsideTheGateIsDropped := by
  intro s newData oldData baseOffset length hgate
  change execSFrame newData oldData baseOffset length s = _
  rw [execSFrame, if_pos (hgate.imp_right fun h => by simpa [State.lastAcked] using h)]
  rfl

/-- Settles O57: each is one row of R111's table, which passes its own check. -/
theorem heartbeatAndTopologyRequests : Obligations.HeartbeatAndTopologyRequests := by
  intro s
  refine ⟨?_, ?_⟩
  · change execSHbTick s = _
    unfold execSHbTick
    by_cases hhb : s.hbEn = true
    · rw [if_pos hhb, if_pos hhb, transmitCommand_ok s s.devIdx rfl]
      rfl
    · rw [if_neg hhb, if_neg hhb, List.append_nil]
      rfl
  · change execSReqTopo s = _
    rw [execSReqTopo, transmitCommand_ok s 0 rfl]
    rfl

end

section
/-! The faults (60_exceptions.md): a request that answers with a fault's status has done nothing but raise
it (R362). -/

namespace Sys2Proof.Machine

/-- Every request and message commits its work on a copy of the state, or raises its fault on the state as
it was (R362). -/
theorem exec_eq_answer {i : Instr} (hl : i.layer = .request ∨ i.layer = .message) (s : State) :
    ∃ r, exec i s = answer s r := by
  by_cases hi : i = .sStatus
  · subst hi
    exact ⟨.ok (s, .status s.status0 s.status1), rfl⟩
  · obtain ⟨work, hexec, -⟩ := exec_ignoresHistory hl hi
    exact ⟨work s, hexec s⟩

/-- Committed work answers `OK`, so any other status is a fault's (R360). -/
theorem answer_status_ne_ok {s t : State} {r : Except Stop (State × Result)}
    (h : answer s r = .next t) (ht : t.response.status ≠ 0x00) : ∃ c, t = s.raise c := by
  obtain ⟨u, res, -, rfl⟩ | ⟨c, -, hraise⟩ := answer_next.1 h
  · exact absurd rfl ht
  · exact ⟨c, hraise⟩

/-- A request, its opcode reserved or not, that answers another status than `OK` has raised a fault on the
state before it (R114, R362). -/
theorem runRequest_status_ne_ok {bits : List Bool} {s t : State} (h : runRequest bits s = .next t)
    (ht : t.response.status ≠ 0x00) : ∃ c, t = s.raise c := by
  obtain ⟨i, left, hd, hexec⟩ | hraise := runRequest_next h
  · obtain ⟨r, hr⟩ := exec_eq_answer (.inl (decodeRequest_layer hd)) s
    exact answer_status_ne_ok (hr.symm.trans hexec) ht
  · exact ⟨.illegalOp, hraise⟩

end Sys2Proof.Machine

open Sys2Proof Sys2Proof.Machine

/-- Settles O11: such a request has raised one of R360's codes on the state without that input. -/
theorem faultingRequestChangesNothingElse : Obligations.FaultingRequestChangesNothingElse := by
  intro s t bits rest hi h ht
  obtain ⟨c, rfl⟩ := runRequest_status_ne_ok ((step_request hi).symm.trans h) ht
  exact ⟨rfl, c.code_le⟩

end

section
/-! Reset (70_reset_and_hazards.md, R390): the values that the reset input and `State.reset` share, and why
`State.reset` is a good state. -/

namespace Sys2Proof.Machine

/-- The reset input has nothing left to change in `State.reset`. -/
theorem State.reset_coreReset : State.reset.coreReset = State.reset := rfl

/-- Nothing has been emitted at reset (R390). -/
theorem State.reset_events : State.reset.events = [] := rfl

/-- After the reset input every writer is empty: its cursor at 0 and all of its bytes 0 (R34, R390). -/
theorem State.coreReset_writers_empty (s : State) :
    ∀ wr ∈ s.coreReset.writers, wr.nb = 0 ∧ wr.nbit = 0 ∧ ∀ i, wr.buf.getD i 0 = 0 := by
  intro wr hwr
  rw [List.eq_of_mem_replicate hwr]
  exact ⟨rfl, rfl, fun _ => rfl⟩

/-- `LASTACKED` after the reset input: `PC` is 1 and `APC` is 0 (R45). -/
@[simp] theorem State.coreReset_lastAcked (s : State) : s.coreReset.lastAcked = true := rfl

/-- Bytes with bit 7 cleared are 7-bit-clean (log 5). -/
theorem sevenBitClean_map_and (bs : List Byte) : sevenBitClean (bs.map (· &&& 0x7F#8)) = true := by
  simp only [sevenBitClean, List.all_map, List.all_eq_true, Function.comp_apply, decide_eq_true_eq]
  intro b _
  have hmask : b.toNat &&& 0x7F ≤ 0x7F := Nat.and_le_right
  rw [BitVec.toNat_and]
  exact Nat.lt_succ_of_le hmask

/-- The parameters at reset are in R10's ranges, whatever the free bytes of `FW_IMAGE` are. -/
theorem Params.default_wellFormed : Params.default.wellFormed = true := by
  simp only [Params.wellFormed, Bool.and_eq_true]
  exact ⟨⟨by decide, sevenBitClean_map_and _⟩, sevenBitClean_map_and _⟩

theorem State.reset_good : State.reset.Good where
  params := Params.default_wellFormed
  writerCount := List.length_replicate
  writers := fun wr hwr => by
    rw [List.eq_of_mem_replicate hwr]
    exact Writer.empty_wf _
  session := (State.sessionWf_closed rfl).2 ⟨rfl, rfl, rfl, rfl, Nat.zero_le _⟩
  queueLength := Nat.zero_le _
  queue := List.forall_mem_nil _
  fault := Nat.zero_le _
  display := Memory.reset_wf
  events := List.forall_mem_nil _

end Sys2Proof.Machine

open Sys2Proof Sys2Proof.Machine

/-- Settles O8: `State.reset` is good clause by clause; the free bytes of `FW_IMAGE` have bit 7 cleared. -/
theorem resetIsAGoodState : Obligations.ResetIsAGoodState :=
  State.wf_iff_good.2 State.reset_good

/-- Settles O9: a step takes the reset input by `coreReset`, which has R390's values in every state and
leaves `State.reset` as it is. -/
theorem resetLeavesTheSpecValues : Obligations.ResetLeavesTheSpecValues := by
  refine ⟨fun s rest hi => ⟨_, step_reset hi, ?_⟩, ?_⟩
  · refine ⟨rfl, by simp, State.coreReset_writers_empty _, ?_⟩
    simp [Config.maxPacketBytesDefault]
  · rw [← State.reset_coreReset]
    refine ⟨rfl, by simp, State.coreReset_writers_empty _, ?_⟩
    simp [Config.maxPacketBytesDefault, State.reset_events]

end

section
/-! `VALL` where R281 leaves it open (42_delta_encoder.md section 7): a count of 0 (log 21), and no
established value (log 12). -/

namespace Sys2Proof.Machine

/-- `VALL 0` is a no-op, whether or not a value is established (R106, log 21). -/
theorem exec_vall_zero (s : State) : exec (.vall 0) s = .next s := rfl

/-- `VALL` of a count above 0 with no established value draws the next free effect (log 12). -/
theorem exec_vall_none {n : BitVec 4} {s : State} (hn : n ≠ 0) (hlast : s.dev.last = none) :
    exec (.vall n) s =
      .next { s with dev := s.dev.undefinedVall s.freeCount, freeCount := s.freeCount + 1 } := by
  change execVall n s = _
  rw [execVall, if_neg hn, hlast]

/-- Whatever writes the free effect draws, it keeps the display canonical. -/
theorem Device.undefinedVall_display_wf {d : Device} (h : d.display.wf = true) (k : Nat) :
    (d.undefinedVall k).display.wf = true :=
  Memory.writeAll_wf h (Config.undefinedVallWrites k)

end Sys2Proof.Machine

open Sys2Proof Sys2Proof.Machine

/-- Settles O45: without an established value the device after `VALL` is the free effect's, whatever that
is; with a count of 0 nothing is read or written. -/
theorem vallWithoutValueGoesOn : Obligations.VallWithoutValueGoesOn := by
  intro s n
  refine ⟨fun hlast hn => ?goesOn, fun hzero => ?noOp⟩
  case goesOn =>
    exact ⟨s.dev.undefinedVall s.freeCount, exec_vall_none hn hlast,
      fun hwf => Device.undefinedVall_display_wf hwf s.freeCount⟩
  case noOp =>
    subst hzero
    exact exec_vall_zero s

end
